-- ==== Sys2Proof/Word.lean ====
section
/-! DEFINITION. The plain types of CORE: words, bytes, halves, Blocks, lane numbers, slot numbers, host addresses
(spec/00_scope.md rules R5, R6, R12, R14). -/

namespace Sys2Proof

/-- A word of the datapath: 32 bits, unsigned, bit 0 the least significant (R12). -/
abbrev Word := BitVec 32

/-- A byte, for the byte view of a Block (R56). -/
abbrev Byte := BitVec 8

/-- A sub-block, and the Salsa state: 16 words (R5, R14). -/
abbrev Half := Vector Word 16

/-- A Block: 32 words (R5, R14). -/
abbrev Block := Vector Word 32

/-- A lane number, 0 to 7 (R6, R20). -/
abbrev LaneId := Fin 8

/-- A scratchpad slot, and the iteration counter of a phase: 0 to N-1, N = 1024 (R5, R26, R28). -/
abbrev Slot := Fin 1024

/-- A host address: 9 bits, it names a word (R50, R52). -/
abbrev HostAddr := BitVec 9

end Sys2Proof
end

