-- ==== Sys2Proof/Config.lean ====
section
/-! DEFINITION. What an implementation of CORE fixes, and the free values: constants with no body, of which nothing can be
proved (spec/92_eei_decisions.md "Open parameters"; spec/93_implementation_defined.md section 1). -/

namespace Sys2Proof

/-- N, the scratchpad entries per stream and the iterations per phase (R5). -/
abbrev Config.n : Nat := 1024

/-- VBYTES, the bytes of one scratchpad bank (R5). -/
abbrev Config.vBytes : Nat := 131072

/-- A depth of the transfer engine: a positive number of records (R76). -/
abbrev Config.Depth := { d : Nat // 0 < d }

/-- TE_DEPTH, the largest number of records in flight over all lanes; `none` is unbounded (R76). UNVERIFIED which value
hardware has: every statement holds for each. Log 7, safe. -/
opaque Config.teDepth : Option Config.Depth

/-- The choice among several enabled steps, asked for the n-th time (R10, R67, R163). A free value: log 3, safe. That it is weakly
fair (R77) is `State.fair` of Sys2Proof/Safety.lean, a premise where a claim needs it (log 8). -/
opaque Config.schedule (n : Nat) : Nat

/-- What lane `s` reads, at its n-th draw, in word `w` of a Block register word that holds no value (R33, R218).
A free value: log 1, safe. -/
opaque Config.freeLaneWord (s : LaneId) (n w : Nat) : Word

/-- Word `w` of what `T[s]` holds after the SX evaluation made at lane `s`'s n-th draw (R110: "no specified value").
A free value: log 2, safe. -/
opaque Config.freeSalsaWord (s : LaneId) (n w : Nat) : Word

/-- The n-th "any value" a host read returns (R182, R184, R203, R208). A free value: log 5, safe. -/
opaque Config.freeHostWord (n : Nat) : Word

end Sys2Proof
end

