-- ==== Sys2Proof/Syntax.lean ====
section
/-! DEFINITION. The four commands of spec/opcode_table.json, and their text (spec/30_encoding.md rules R83, R87). -/

namespace Sys2Proof

/-- The commands of CORE, one constructor per row of the opcode table. Operands are the ones the text of a command has
(R87): a lane, a half, and for `ROMIXB` the batch width k itself, not its logarithm. -/
inductive Instr where
  /-- `SALSA8X s, h`: the Salsa20/8 core on half h of lane s (R110). -/
  | salsa8x (s : LaneId) (h : Fin 2)
  /-- `BMIX s`: BlockMix on lane s (R122). -/
  | bmix (s : LaneId)
  /-- `ROMIX s`: ROMix on lane s (R135). -/
  | romix (s : LaneId)
  /-- `ROMIXB k`: ROMix on lanes 0 to k-1 (R160). -/
  | romixb (k : Nat)
deriving DecidableEq, Repr

/-- The text of a command: the mnemonic, then its operands in decimal, separated by commas (R87). -/
def Instr.text : Instr → String
  | .salsa8x s h => "SALSA8X " ++ toString s.val ++ ", " ++ toString h.val
  | .bmix s => "BMIX " ++ toString s.val
  | .romix s => "ROMIX " ++ toString s.val
  | .romixb k => "ROMIXB " ++ toString k

end Sys2Proof
end

