-- ==== Sys2Proof/WellFormed.lean ====
section
/-! DEFINITION. Which terms of `Instr` are commands (spec/30_encoding.md rules R82, R87; spec/00_scope.md rule R6). -/

namespace Sys2Proof

/-- The batch widths: "k ∈ {1, 2, 4, 8}" (R6, R82). -/
def legalWidth (k : Nat) : Bool := k == 1 || k == 2 || k == 4 || k == 8

/-- A term is a command when its operands are in the ranges of R87; the lane and half types leave only the batch width
to check. "An operand outside its range is an error of the text and encodes nothing." -/
def Instr.wf : Instr → Bool
  | .salsa8x _ _ => true
  | .bmix _ => true
  | .romix _ => true
  | .romixb k => legalWidth k

end Sys2Proof
end

