-- ==== Sys2Proof/Decode.lean ====
section
/-! DEFINITION. Command words: format C, the decoder, and the encoder (spec/30_encoding.md). -/

namespace Sys2Proof

/-- The fields of format C that a command uses, and what `CUR` latches (R29, R81). -/
structure Fields where
  /-- `OP`, bits 3:0. -/
  op : BitVec 4
  /-- `S`, bits 6:4. -/
  s  : BitVec 3
  /-- `H`, bit 7. -/
  h  : BitVec 1
  /-- `LK`, bits 9:8. -/
  lk : BitVec 2
deriving DecidableEq, Repr

/-- Why a word selects no row of the opcode table (R84, R85). -/
inductive DecodeError where
  /-- `Z`, bits 31:10, is not zero. -/
  | nonzeroZ
  /-- `OP` is 0 or 5 to 15. -/
  | reservedOp
  /-- A field that the row fixes at zero is not zero. -/
  | nonzeroField
deriving DecidableEq, Repr

/-- The fields of a word, bit by bit (R81). -/
def fieldsOf (c : Word) : Fields where
  op := c.extractLsb' 0 4
  s  := c.extractLsb' 4 3
  h  := c.extractLsb' 7 1
  lk := c.extractLsb' 8 2

/-- `Z`, bits 31:10 (R81). -/
def fieldZ (c : Word) : BitVec 22 := c.extractLsb' 10 22

/-- The word with the given fields and `Z` = 0 (R81). -/
def wordOf (f : Fields) : Word := (0#22 ++ f.lk ++ f.h ++ f.s ++ f.op : BitVec 32)

/-- `S` as a lane number, `zext(S)` (R82). -/
def laneOf (s : BitVec 3) : LaneId := ⟨s.toNat, s.isLt⟩

/-- `H` as a half number, `zext(H)` (R82). -/
def halfOf (h : BitVec 1) : Fin 2 := ⟨h.toNat, h.isLt⟩

/-- The batch width, k = 2^LK (R82). -/
def widthOf (lk : BitVec 2) : Nat := 2 ^ lk.toNat

/-- `decode(c)`, total: the row that c selects with its field values, or the reason why it selects none (R83, R84). -/
def decode (c : Word) : Except DecodeError Instr :=
  let f := fieldsOf c
  if fieldZ c ≠ 0 then .error .nonzeroZ
  else if f.op = 1 then
    if f.lk = 0 then .ok (.salsa8x (laneOf f.s) (halfOf f.h)) else .error .nonzeroField
  else if f.op = 2 then
    if f.lk = 0 ∧ f.h = 0 then .ok (.bmix (laneOf f.s)) else .error .nonzeroField
  else if f.op = 3 then
    if f.lk = 0 ∧ f.h = 0 then .ok (.romix (laneOf f.s)) else .error .nonzeroField
  else if f.op = 4 then
    if f.s = 0 ∧ f.h = 0 then .ok (.romixb (widthOf f.lk)) else .error .nonzeroField
  else .error .reservedOp

/-- The field values of a command, for a term that is one: fields it does not use are zero (R83, R87). -/
def Instr.fields : Instr → Fields
  | .salsa8x s h => { op := 1, s := BitVec.ofNat 3 s.val, h := BitVec.ofNat 1 h.val, lk := 0 }
  | .bmix s      => { op := 2, s := BitVec.ofNat 3 s.val, h := 0, lk := 0 }
  | .romix s     => { op := 3, s := BitVec.ofNat 3 s.val, h := 0, lk := 0 }
  | .romixb k    => { op := 4, s := 0, h := 0, lk := BitVec.ofNat 2 k.log2 }

/-- The word of a command; a term with an operand outside its range "encodes nothing" (R83, R87). -/
def encode (i : Instr) : Option Word := if i.wf then some (wordOf i.fields) else none

/-- The `match` column of the opcode table (R83). -/
def Instr.matchWord : Instr → Word
  | .salsa8x _ _ => 0x00000001
  | .bmix _      => 0x00000002
  | .romix _     => 0x00000003
  | .romixb _    => 0x00000004

/-- The `mask` column of the opcode table (R83). -/
def Instr.maskWord : Instr → Word
  | .salsa8x _ _ => 0xFFFFFF0F
  | .bmix _      => 0xFFFFFF8F
  | .romix _     => 0xFFFFFF8F
  | .romixb _    => 0xFFFFFCFF

/-- The command the decoder reads from a word whose low `nbits` bits are those of `w` and whose other bits are 0. A command
is one whole 32-bit word (R80), so nothing is laid out in bytes. -/
def decodeTableWord (nbits w : Nat) : Option Instr :=
  match decode (BitVec.ofNat 32 (w % 2 ^ nbits)) with
  | .ok i => some i
  | .error _ => none

end Sys2Proof
end

