-- ==== Sys2Proof/Machine/State.lean ====
section
/-! DEFINITION. The machine state as plain data: everything spec/10_state.md gives CORE, the host's side of the interface,
and the model's own counters of free values; the outcomes of a step; the state after reset. -/

namespace Sys2Proof.Machine

/-- `seq[s].ph`, the phase of a lane (R28). -/
inductive Phase where
  | idle | sal | bmx | fill | mix | drain
deriving DecidableEq, Repr

/-- `seq[s] = (ph, i, u)`, the sequencer state of a lane (R28). -/
structure Seq where
  /-- Phase. -/
  ph : Phase
  /-- Iteration counter of the phase, 0 to N-1. -/
  i  : Slot
  /-- Micro-step within the iteration, 2 bits. -/
  u  : Fin 4
deriving DecidableEq, Repr

/-- `PR[s]`, the pending-read slot (R24). -/
inductive PendingRead where
  /-- `none`: no read in flight. -/
  | empty
  /-- `(j, none)`: a read of slot j has been issued and not yet performed. -/
  | issued (j : Slot)
  /-- `(j, D)`: the read has been performed and D not yet consumed. -/
  | performed (j : Slot) (d : Block)
deriving DecidableEq, Repr

/-- `PW[s]`, the pending-write set: a finite map from slot to Block, as a list with slots strictly rising (R25). -/
abbrev PendingWrites := List (Slot × Block)

/-- `V[s]`, a scratchpad bank (R26): a list of (address, byte) with addresses strictly rising, byte n of slot j at address
128 j + n (R56). A byte that is not listed holds no value (R33, R34; log 6, safe). -/
abbrev Memory := List Host.Cell

/-- A lane (R20). -/
structure Lane where
  /-- `X[s]`, the Block register (R21); `none` is the spec's "holds no value" (R33, R34), which a read answers with a free
  value and never with a fault (R218; log 1). -/
  x  : Vector (Option Word) 32
  /-- `T[s]`, the Salsa working state (R23); `none` holds no value (R33, R34). Written by every SX evaluation and read by
  nothing after it (R23; log 2). -/
  t  : Option Half
  /-- `PR[s]` (R24). -/
  pr : PendingRead
  /-- `PW[s]` (R25). -/
  pw : PendingWrites
  /-- `V[s]` (R26). -/
  v  : Memory
  /-- `seq[s]` (R28). -/
  seq : Seq
  /-- The model's own: how many draws of free values this lane has made (logs 1 and 2). -/
  draws : Nat
  /-- The model's own: the record of R218, that a micro-step of this lane has read a word of `X[s]` that held no value. It is
  about the run, so a RESET keeps it: such a run has not ended well (93_implementation_defined.md U16; log 1). -/
  unwritten : Bool
deriving DecidableEq, Repr

/-- The two fault codes (R202, R203); code 3 is never produced and has no name (R204). -/
inductive FaultCode where
  /-- Code 1, an illegal command word. -/
  | illCmd
  /-- Code 2, a host access that is not in the map. -/
  | badAddr
deriving DecidableEq, Repr

/-- The fields of `STATUS` (R30); bits 31:4 are hardwired 0 and no state. -/
structure Status where
  /-- `BUSY`, bit 0. -/
  busy : Bool
  /-- `DONE`, bit 1. -/
  done : Bool
  /-- `FAULT`, bits 3:2; `none` is code 0. -/
  fault : Option FaultCode
deriving DecidableEq, Repr

/-- A line of a host script (R88); `CMD`, `LDBLK` and `RDBLK` are abbreviations of these. -/
inductive HostAction where
  /-- `HRD a`. -/
  | hrd (a : HostAddr)
  /-- `HWR a, v`. -/
  | hwr (a : HostAddr) (v : Word)
  /-- `RESET`, taken in its place in the script. -/
  | reset
  /-- `WAIT`: `HRD 0x001` again and again until the value read has `BUSY` = 0. -/
  | wait
deriving DecidableEq, Repr

/-- What one host read returned. -/
structure HostRead where
  addr  : HostAddr
  value : Word
deriving DecidableEq, Repr

/-- The machine: CORE and what its host still wants to do. -/
structure State where
  /-- The eight lanes (R20). -/
  lanes : Vector Lane 8
  /-- `CUR`, the latched command (R29). -/
  cur : Fields
  /-- `STATUS` (R30). -/
  status : Status
  /-- HOST: the actions it has not yet had taken, in order (R72, R88, R180). -/
  script : List HostAction
  /-- HOST: how many `RESET` events it still wants to cause beside the script, as while a transaction is held; each may come
  at any moment (R180, R181, R230, R231; log 4). -/
  resets : Nat
  /-- HOST: what its reads have returned, newest first. -/
  reads : List HostRead
  /-- The model's own: how many "any value" reads there have been (log 5). -/
  hostDraws : Nat
  /-- The model's own: how many times the schedule has been asked (log 3). -/
  tick : Nat
deriving DecidableEq, Repr

/-- Why the model stops: the model fault of R218. The hardware's own faults, ILLCMD and BADADDR, are codes in `STATUS` and
do not stop it. -/
inductive Fault where
  /-- `UNWRITTEN`: raised by the TE read-perform step when it meets a slot that holds no value (R63, R218). Safe: the
  machine stops, and by R146 hardware never gets here. -/
  | unwritten (s : LaneId) (j : Slot)
deriving DecidableEq, Repr

/-- Why an instruction has no meaning. -/
inductive Refusal where
  /-- Raised by an arm of `exec` for an instruction with no meaning yet. Safe. No arm raises it. -/
  | notModelled (mnemonic : String)
  /-- Raised by `exec` for a term that is no command (R87: "encodes nothing"); no word decodes to one. Safe. -/
  | illFormed (mnemonic : String)
deriving DecidableEq, Repr

/-- A lane after reset (R34). -/
def Lane.reset : Lane where
  x := Vector.replicate 32 none
  t := none
  pr := .empty
  pw := []
  v := []
  seq := { ph := .idle, i := 0, u := 0 }
  draws := 0
  unwritten := false

/-- CORE after reset (R34), with a host that wants nothing (log 4). -/
def State.reset : State where
  lanes := Vector.replicate 8 Lane.reset
  cur := { op := 0, s := 0, h := 0, lk := 0 }
  status := { busy := false, done := false, fault := none }
  script := []
  resets := 0
  reads := []
  hostDraws := 0
  tick := 0

end Sys2Proof.Machine
end

