-- ==== Sys2Proof/Machine/Flags.lean ====
section
/-! DEFINITION. `STATUS`, the only status bits CORE has: no command writes a flag that depends on data (spec/10_state.md rules
R30, R32). -/

namespace Sys2Proof.Machine

/-- The two bits of `FAULT` (R30, R204). -/
def faultBits : Option FaultCode → BitVec 2
  | none => 0
  | some .illCmd => 1
  | some .badAddr => 2

/-- The word a `STATUS` read returns: 28 zero bits, FAULT, DONE, BUSY (R30, R183). -/
def statusWord (st : Status) : Word :=
  (0#28 ++ faultBits st.fault ++ BitVec.ofBool st.done ++ BitVec.ofBool st.busy : BitVec 32)

/-- What command accept does to `STATUS` (R185). -/
def Status.accept (st : Status) : Status := { st with busy := true, done := false }

/-- What command completion does to `STATUS` (R189). -/
def Status.complete (st : Status) : Status := { st with busy := false, done := true }

/-- What fault entry does to `STATUS` (R207). -/
def Status.latch (st : Status) (c : FaultCode) : Status := { st with fault := some c }

end Sys2Proof.Machine
end

