-- ==== Sys2Proof/Machine/Arx.lean ====
section
/-! DEFINITION. The Salsa20/8 core as pure functions on 16 words (spec/40_salsa.md rules R100 to R109). -/

namespace Sys2Proof.Machine

/-- `rotl(a, r)`, rotation left by a constant 0 < r < 32 (R13). -/
def rotl (a : Word) (r : Nat) : Word := (a <<< r) ||| (a >>> (32 - r))

/-- `ARX(x, a, b, c, r)`: x[a] <- x[a] xor rotl(x[b] + x[c], r) (R101). -/
def arx (x : Half) (a b c : Fin 16) (r : Nat) : Half :=
  x.set a (x[a] ^^^ rotl (x[b] + x[c]) r)

/-- `QR(x, y0, y1, y2, y3)`, the quarter-round: four ARX operations, each on the results of the ones before (R102). -/
def qr (x : Half) (y0 y1 y2 y3 : Fin 16) : Half :=
  let x1 := arx x y1 y0 y3 7
  let x2 := arx x1 y2 y1 y0 9
  let x3 := arx x2 y3 y2 y1 13
  arx x3 y0 y3 y2 18

/-- Index m of column group c: (5 c + 4 m) mod 16 (R103). -/
def colIndex (c m : Nat) : Fin 16 := ⟨(5 * c + 4 * m) % 16, Nat.mod_lt _ (by decide)⟩

/-- Index m of row group q: 4 q + ((q + m) mod 4), for q below 4 (R105). -/
def rowIndex (q m : Nat) : Fin 16 := ⟨(4 * q + (q + m) % 4) % 16, Nat.mod_lt _ (by decide)⟩

/-- The quarter-round on column group c (R103). -/
def colGroup (x : Half) (c : Nat) : Half := qr x (colIndex c 0) (colIndex c 1) (colIndex c 2) (colIndex c 3)

/-- The quarter-round on row group q (R105). -/
def rowGroup (x : Half) (q : Nat) : Half := qr x (rowIndex q 0) (rowIndex q 1) (rowIndex q 2) (rowIndex q 3)

/-- `COLROUND(x)`: the four column groups (R104). -/
def colRound (x : Half) : Half := colGroup (colGroup (colGroup (colGroup x 0) 1) 2) 3

/-- `ROWROUND(x)`: the four row groups (R106). -/
def rowRound (x : Half) : Half := rowGroup (rowGroup (rowGroup (rowGroup x 0) 1) 2) 3

/-- `DROUND(x)`: the column round, then the row round (R107). -/
def dRound (x : Half) : Half := rowRound (colRound x)

/-- `P8(x)`: four double-rounds (R108). -/
def p8 (x : Half) : Half := dRound (dRound (dRound (dRound x)))

/-- Elementwise xor of two halves (R14). -/
@[irreducible] def halfXor (a b : Half) : Half := Vector.ofFn fun w => a[w] ^^^ b[w]

/-- Elementwise addition of two halves, modulo 2^32 (R13, R14). -/
@[irreducible] def halfAdd (a b : Half) : Half := Vector.ofFn fun w => a[w] + b[w]

/-- `SX(state, feedback)`: xor, eight rounds, feed-forward of the pre-permutation value (R109). Irreducible, so that no
unification evaluates 128 ARX operations; a proof unfolds it by name. -/
@[irreducible] def sx (state feedback : Half) : Half :=
  let t := halfXor state feedback
  halfAdd t (p8 t)

end Sys2Proof.Machine
end

