-- ==== Sys2Proof/Machine/Operands.lean ====
section
/-! DEFINITION. Operand forms: the halves and bytes of a Block, the Block register as a lane and the host read it, the
addressing of the scratchpad and of the host space. -/

namespace Sys2Proof.Machine

/-- `LO(B)`: words 0..15, the sub-block B0 (R14, R22). -/
@[irreducible] def lo (b : Block) : Half := Vector.ofFn fun w => b[w.val]

/-- `HI(B)`: words 16..31, the sub-block B1 (R14, R22). -/
@[irreducible] def hi (b : Block) : Half := Vector.ofFn fun w => b[w.val + 16]

/-- The Block with the given halves (R14). -/
@[irreducible] def ofHalves (l h : Half) : Block := Vector.ofFn fun w => if hw : w.val < 16 then l[w.val] else h[w.val - 16]

/-- Elementwise xor of two Blocks (R14). -/
@[irreducible] def blockXor (a b : Block) : Block := Vector.ofFn fun w => a[w] ^^^ b[w]

/-- `X mod n` of word 16, for a model whose N is n (R7, R132). -/
def integerifyN (n : Nat) (w16 : Word) : Nat := w16.toNat % n

/-- `INTEGERIFY`: word 16 of the Block modulo N, its low 10 bits (R132; 90_conflicts.md C1). -/
def integerify (w16 : Word) : Slot := ⟨integerifyN Config.n w16, Nat.mod_lt _ (by decide)⟩

/-- Byte n of a Block: bits [8 (n mod 4) + 7 : 8 (n mod 4)] of word n div 4 (R56). -/
def blockByte (b : Block) (n : Fin 128) : Byte := (b[n.val / 4]).extractLsb' (8 * (n.val % 4)) 8

/-- The 128 bytes of a Block, byte 0 first (R56). -/
@[irreducible] def blockBytes (b : Block) : List Byte := List.ofFn (blockByte b)

/-- The word of four bytes, the first the least significant (R56). -/
def wordOfBytes (b0 b1 b2 b3 : Byte) : Word := (b3 ++ b2 ++ b1 ++ b0 : BitVec 32)

/-- The Block of 128 bytes (R56). -/
def blockOfBytes (b : Vector Byte 128) : Block :=
  Vector.ofFn fun w => wordOfBytes b[4 * w.val] b[4 * w.val + 1] b[4 * w.val + 2] b[4 * w.val + 3]

/-- A Block register all of whose words hold the values of `b`. -/
@[irreducible] def held (b : Block) : Vector (Option Word) 32 := Vector.ofFn fun w => some b[w]

/-- What lane `s` reads in word `w` of its Block register: the word, or a free value where it holds none (R218; log 1,
safe). -/
def readWord (s : LaneId) (l : Lane) (w : Fin 32) : Word :=
  match l.x[w] with
  | some v => v
  | none => Config.freeLaneWord s l.draws w.val

/-- What lane `s` reads as the whole of `X[s]`. -/
@[irreducible] def readBlock (s : LaneId) (l : Lane) : Block := Vector.ofFn (readWord s l)

/-- Some word of `X[s]` holds no value (R33). -/
def Lane.missing (l : Lane) : Bool := (List.finRange 32).any fun w => l.x[w].isNone

/-- The books of a micro-step that reads all 32 words of `X[s]` (R218): the next read draws anew, and where a word holds no
value the read is on record (log 1). -/
def Lane.sawBlock (l : Lane) : Lane := { l with draws := l.draws + 1, unwritten := l.unwritten || l.missing }

/-- The books of a micro-step that reads word w of `X[s]` only, as M-FETCH reads word 16 (R218; log 1). -/
def Lane.sawWord (l : Lane) (w : Fin 32) : Lane :=
  { l with draws := l.draws + 1, unwritten := l.unwritten || l.x[w].isNone }

/-- What stands at a host address (R51). -/
inductive HostLoc where
  | cmd
  | status
  | unmapped
  | xwin (s : LaneId) (w : Fin 32)
deriving DecidableEq, Repr

/-- The HOST map (R51), with s = a[7:5] and w = a[4:0] in XWIN (R53). -/
def hostLoc (a : HostAddr) : HostLoc :=
  if a = 0x000 then .cmd
  else if a = 0x001 then .status
  else if a.toNat < 0x100 then .unmapped
  else .xwin (laneOf (a.extractLsb' 5 3)) ⟨(a.extractLsb' 0 5).toNat, (a.extractLsb' 0 5).isLt⟩

/-- The host address of word w of lane s: 0x100 + 32 s + w (R53). -/
def xwinAddr (s : LaneId) (w : Fin 32) : HostAddr := BitVec.ofNat 9 (0x100 + 32 * s.val + w.val)

end Sys2Proof.Machine
end

