-- ==== Sys2Proof/Machine/Ops.lean ====
section
/-! DEFINITION. The named operations over the state: scratchpad memory, the pending-write map, lanes and Block registers,
command accept, fault entry, and the reset event, which is the only return from a fault. -/

namespace Sys2Proof.Machine

/-! ### Scratchpad memory -/

/-- The canonical form of a bank: addresses strictly rising and inside the bank. An unlisted byte holds no value, so no
entry can be equal to what an unlisted address reads as. -/
abbrev Memory.wf (m : Memory) : Prop :=
  m.Pairwise (fun a b => a.1 < b.1) ∧ ∀ c ∈ m, c.1 < Config.vBytes

/-- The byte at an address, if it holds a value. -/
def Memory.read : Memory → Nat → Option Byte
  | [], _ => none
  | c :: m, a => if c.1 = a then some c.2 else Memory.read m a

/-- Store one byte, keeping the addresses rising. -/
def Memory.write : Memory → Nat → Byte → Memory
  | [], a, b => [(a, b)]
  | c :: m, a, b =>
    if a < c.1 then (a, b) :: c :: m
    else if a = c.1 then (a, b) :: m
    else c :: Memory.write m a b

/-- Store bytes at rising addresses. -/
def Memory.writeBytes : Memory → Nat → List Byte → Memory
  | m, _, [] => m
  | m, a, b :: bs => Memory.writeBytes (Memory.write m a b) (a + 1) bs

/-- The address of byte 0 of slot j of a bank: Blocks of 128 bytes, slot 0 first (R26). -/
def slotAddr (j : Slot) : Nat := 128 * j.val

/-- `MemWrite((s, j), 128, D)` on bank s: all 32 words at once (R58, R62). -/
@[irreducible] def Memory.writeSlot (m : Memory) (j : Slot) (d : Block) : Memory := m.writeBytes (slotAddr j) (blockBytes d)

/-- Whether every byte of slot j holds a value. -/
@[irreducible] def Memory.holds (m : Memory) (j : Slot) : Bool :=
  (List.finRange 128).all fun n => (m.read (slotAddr j + n.val)).isSome

/-- `MemRead((s, j), 128)` on bank s: the Block in slot j, or nothing where the slot holds no value (R58, R63). -/
@[irreducible] def Memory.readSlot (m : Memory) (j : Slot) : Option Block :=
  if m.holds j then
    some (blockOfBytes (Vector.ofFn fun n => (m.read (slotAddr j + n.val)).getD 0))
  else none

/-! ### The pending-write map -/

/-- The canonical form of `PW[s]`: slots strictly rising. -/
abbrev PendingWrites.wf (p : PendingWrites) : Prop := p.Pairwise fun a b => a.1 < b.1

/-- `PW[s][j]`, if j is in the domain (R25). -/
def PendingWrites.find : PendingWrites → Slot → Option Block
  | [], _ => none
  | e :: p, j => if e.1 = j then some e.2 else PendingWrites.find p j

/-- `PW[s][j] <- D` (R60). -/
def PendingWrites.insert : PendingWrites → Slot → Block → PendingWrites
  | [], j, d => [(j, d)]
  | e :: p, j, d =>
    if j < e.1 then (j, d) :: e :: p
    else if j = e.1 then (j, d) :: p
    else e :: PendingWrites.insert p j d

/-- Remove j from `PW[s]` (R62). -/
def PendingWrites.remove (p : PendingWrites) (j : Slot) : PendingWrites := p.filter fun e => e.1 ≠ j

/-! ### Lanes -/

/-- The records lane l has in flight: the entries of `PW[s]` and a `PR[s]` that is not `none` (R76). -/
def Lane.records (l : Lane) : Nat := l.pw.length + (if l.pr = .empty then 0 else 1)

/-- Lane t of the machine. -/
def State.lane (s : State) (t : LaneId) : Lane := s.lanes[t]

/-- The machine with lane t replaced. -/
def State.setLane (s : State) (t : LaneId) (l : Lane) : State := { s with lanes := s.lanes.set t l }

/-- The records in flight over all lanes (R76). -/
def State.records (s : State) : Nat := ((List.finRange 8).map fun t => (s.lane t).records).sum

/-- Whether the transfer engine can take one more record (R76). -/
def State.teRoom (s : State) : Bool :=
  match Config.teDepth with
  | none => true
  | some d => s.records < d.val

/-- Whether every lane is `IDLE` (R189). -/
def State.allIdle (s : State) : Bool := (List.finRange 8).all fun t => (s.lane t).seq.ph = .idle

/-- `seq[s]` after a lane has nothing left to do (R28). -/
def Seq.idle : Seq := { ph := .idle, i := 0, u := 0 }

/-- An SX evaluation writes its result to words 0..15 and leaves `T[s]` with no specified value (R110; log 2). -/
@[irreducible] def Lane.putLo (s : LaneId) (l : Lane) (h : Half) : Lane :=
  { l with
    x := Vector.ofFn fun w : Fin 32 => if hw : w.val < 16 then some h[w.val] else l.x[w]
    t := some (Vector.ofFn fun w => Config.freeSalsaWord s l.draws w.val) }

/-- An SX evaluation writes its result to words 16..31 and leaves `T[s]` with no specified value (R110; log 2). -/
@[irreducible] def Lane.putHi (s : LaneId) (l : Lane) (h : Half) : Lane :=
  { l with
    x := Vector.ofFn fun w : Fin 32 => if hw : w.val < 16 then l.x[w] else some h[w.val - 16]
    t := some (Vector.ofFn fun w => Config.freeSalsaWord s l.draws w.val) }

/-- X[s].lo <- SX(X[s].lo, X[s].hi), the arithmetic of half a BlockMix (R110, R122, R137, R141). -/
@[irreducible] def Lane.mixLo (s : LaneId) (l : Lane) : Lane :=
  let b := readBlock s l
  l.sawBlock.putLo s (sx (lo b) (hi b))

/-- X[s].hi <- SX(X[s].hi, X[s].lo), the arithmetic of the other half (R110, R122, R138, R142). -/
@[irreducible] def Lane.mixHi (s : LaneId) (l : Lane) : Lane :=
  let b := readBlock s l
  l.sawBlock.putHi s (sx (hi b) (lo b))

/-! ### Command accept -/

/-- Command accept, one atomic step: `CUR` gets the fields, BUSY is set, DONE cleared, and every lane for which `on` holds
gets `seq = (ph, 0, 0)` (R185). -/
def State.accept (s : State) (f : Fields) (ph : Phase) (on : LaneId → Bool) : State :=
  { s with
    cur := f
    status := s.status.accept
    lanes := Vector.ofFn fun t =>
      if on t then { s.lane t with seq := { ph := ph, i := 0, u := 0 } } else s.lane t }

/-- A command reaches CORE (R181, R182): while BUSY the host's write is held and nothing happens; in the faulted state it is
discarded; else it is accepted. The host's steps never submit a command while BUSY (log 9). -/
def State.submit (s : State) (f : Fields) (ph : Phase) (on : LaneId → Bool) : State :=
  if s.status.busy then s
  else if s.status.fault.isSome then s
  else s.accept f ph on

/-! ### Fault entry, and the only return from it -/

/-- `raise Fault(code)`: `STATUS.FAULT <- code` and nothing else (R207). -/
def State.raise (s : State) (c : FaultCode) : State := { s with status := s.status.latch c }

/-- The reset event, one atomic step (R230, R231): every piece of CORE's state takes its reset value (R34). The host's
script and answers are the host's and stay (R231: a held transaction is taken afterwards). The model's own fields stay too:
the counters of free values go on, so that what holds no value now is not what held none before, and the record of an
unwritten read is of the run (logs 1, 2, 3, 5). -/
def State.resetEvent (s : State) : State :=
  { s with
    lanes := Vector.ofFn fun t => { Lane.reset with draws := (s.lane t).draws, unwritten := (s.lane t).unwritten }
    cur := State.reset.cur
    status := State.reset.status }

end Sys2Proof.Machine
end

