-- ==== Sys2Proof/Machine/BlockMix.lean ====
section
/-! DEFINITION. BlockMix: the function, the command `BMIX` and its micro-steps (spec/41_blockmix.md, spec/44_host_ops.md rule
R188). -/

namespace Sys2Proof.Machine

/-- `BM(B)`, with three buffers as R120 has it: Y0 = SX(B1, B0), Y1 = SX(Y0, B1), and the halves do not move (R121). -/
def bm (b : Block) : Block :=
  let y0 := sx (hi b) (lo b)
  let y1 := sx y0 (hi b)
  ofHalves y0 y1

/-- `BMIX s` reaches CORE: lane s starts in phase BMX (R122, R185). -/
def execBmix (s : LaneId) (st : State) : Host.Outcome State Fault Refusal :=
  .next (st.submit (Instr.bmix s).fields .bmx fun t => t == s)

/-- B-MIX0 of lane s (R122, R188). -/
def microBMix0 (s : LaneId) (l : Lane) : Lane := { l.mixLo s with seq := { ph := .bmx, i := 0, u := 1 } }

/-- B-MIX1 of lane s (R122, R188). -/
def microBMix1 (s : LaneId) (l : Lane) : Lane := { l.mixHi s with seq := Seq.idle }

end Sys2Proof.Machine
end

