-- ==== Sys2Proof/Machine/Transfer.lean ====
section
/-! DEFINITION. The asynchronous transfer interface of a lane and the steps of the transfer engine (spec/20_memory.md rules
R60 to R66). -/

namespace Sys2Proof.Machine

/-- `issue_write(s, i, D)`: PW[s][i] <- D, with D a snapshot (R60). -/
def Lane.issueWrite (l : Lane) (i : Slot) (d : Block) : Lane := { l with pw := l.pw.insert i d }

/-- The write of slot j is complete: j is not in the domain of PW[s] (R65). -/
def Lane.written (l : Lane) (j : Slot) : Bool := (l.pw.find j).isNone

/-- `issue_read(s, j)`: guard PR[s] = none and the write of slot j complete (R61, R66); effect PR[s] <- (j, none). -/
def Lane.issueRead (l : Lane) (j : Slot) : Option Lane :=
  if l.pr = .empty ∧ l.written j then some { l with pr := .issued j } else none

/-- `await` of a read: guard PR[s] = (j, D) with D a Block; it obtains D, and PR[s] <- none (R64). -/
def Lane.awaitRead (l : Lane) : Option (Block × Lane) :=
  match l.pr with
  | .performed _ d => some (d, { l with pr := .empty })
  | .issued _ => none
  | .empty => none

/-- TE write-perform of slot i: V[s][i] <- PW[s][i], and i leaves PW[s] (R62). Not enabled where i is not in PW[s]. -/
def Lane.performWrite (l : Lane) (i : Slot) : Option Lane :=
  match l.pw.find i with
  | some d => some { l with v := l.v.writeSlot i d, pw := l.pw.remove i }
  | none => none

/-- The slot of a read that has been issued and not performed (R24, R63). -/
def Lane.readToPerform (l : Lane) : Option Slot :=
  match l.pr with
  | .issued j => some j
  | .performed _ _ => none
  | .empty => none

/-- TE read-perform for lane s: PR[s] <- (j, V[s][j]); a slot that holds no value is the model fault UNWRITTEN (R63, R218). -/
def Lane.performRead (s : LaneId) (l : Lane) (j : Slot) : Except Fault Lane :=
  match l.v.readSlot j with
  | some d => .ok { l with pr := .performed j d }
  | none => .error (.unwritten s j)

end Sys2Proof.Machine
end

