-- ==== Sys2Proof/Machine/Romix.lean ====
section
/-! DEFINITION. ROMix: the function, the command `ROMIX` and the eight micro-steps of a lane in it (spec/42_romix.md). -/

namespace Sys2Proof.Machine

/-! ### The function -/

/-- The fill phase over n iterations: the Blocks stored, slot 0 first, and the Block after it (R130, R131). -/
def fillPhase : Nat → Block → List Block × Block
  | 0, x => ([], x)
  | n + 1, x =>
    let r := fillPhase n (bm x)
    (x :: r.1, r.2)

/-- k iterations of the mix phase over the scratchpad v of a model whose N is n (R130, R133). The index is below n, so the
default of the lookup is not met where v has n Blocks. -/
def mixPhase (n : Nat) (v : List Block) : Nat → Block → Block
  | 0, x => x
  | k + 1, x => mixPhase n v k (bm (blockXor x (v.getD (integerifyN n x[16]) x)))

/-- ROMix of a model whose N is n (R7, R130). -/
def rmN (n : Nat) (b : Block) : Block :=
  let r := fillPhase n b
  mixPhase n r.1 n r.2

/-- `RM(B)`: ROMix at N = 1024 (R130). -/
@[irreducible] def rm (b : Block) : Block := rmN Config.n b

/-- The indices of k iterations of the mix phase, in order (R132, R133, R149). -/
def mixIndices (n : Nat) (v : List Block) : Nat → Block → List Nat
  | 0, _ => []
  | k + 1, x =>
    integerifyN n x[16] :: mixIndices n v k (bm (blockXor x (v.getD (integerifyN n x[16]) x)))

/-- The sequence j_0, j_1, ... of ROMix at N = 1024 on b (R149). -/
@[irreducible] def rmIndices (b : Block) : List Nat :=
  let r := fillPhase Config.n b
  mixIndices Config.n r.1 Config.n r.2

/-! ### The command -/

/-- `ROMIX s` reaches CORE: lane s starts in phase FILL (R135, R185). -/
def execRomix (s : LaneId) (st : State) : Host.Outcome State Fault Refusal :=
  .next (st.submit (Instr.romix s).fields .fill fun t => t == s)

/-! ### The micro-steps

Each is written for a lane whose `seq` selects it; `none` means that the rest of its guard is false and the lane is held. -/

/-- The last iteration of a phase, N-1. -/
def lastIter (i : Slot) : Bool := i.val + 1 == Config.n

/-- The iteration after i (R138, R142). -/
def nextIter (i : Slot) : Slot := ⟨(i.val + 1) % Config.n, Nat.mod_lt _ (by decide)⟩

/-- F-STORE: issue the write of X[s] as it is now to slot i; held while the transfer engine has no room (R76, R136). -/
def microFStore (room : Bool) (s : LaneId) (l : Lane) : Option Lane :=
  if room then
    some { l.sawBlock.issueWrite l.seq.i (readBlock s l) with
           seq := { ph := .fill, i := l.seq.i, u := 1 } }
  else none

/-- F-MIX0 (R137). -/
def microFMix0 (s : LaneId) (l : Lane) : Lane := { l.mixLo s with seq := { ph := .fill, i := l.seq.i, u := 2 } }

/-- F-MIX1: to the next iteration, or from the last one to the mix phase (R138). -/
def microFMix1 (s : LaneId) (l : Lane) : Lane :=
  { l.mixHi s with
    seq := if lastIter l.seq.i then { ph := .mix, i := 0, u := 0 } else { ph := .fill, i := nextIter l.seq.i, u := 0 } }

/-- M-FETCH: issue the read of slot INTEGERIFY(X[s]); held while that slot's write is in flight, or the transfer engine has
no room (R66, R76, R139). -/
def microMFetch (room : Bool) (s : LaneId) (l : Lane) : Option Lane :=
  if room then
    match (l.sawWord 16).issueRead (integerify (readWord s l 16)) with
    | some l' => some { l' with seq := { ph := .mix, i := l.seq.i, u := 1 } }
    | none => none
  else none

/-- M-XOR: take the fetched Block and xor it into X[s]; held while the read is not performed (R64, R140). -/
def microMXor (s : LaneId) (l : Lane) : Option Lane :=
  match l.sawBlock.awaitRead with
  | some (d, l') =>
    some { l' with
           x := held (blockXor (readBlock s l) d)
           seq := { ph := .mix, i := l.seq.i, u := 2 } }
  | none => none

/-- M-MIX0 (R141). -/
def microMMix0 (s : LaneId) (l : Lane) : Lane := { l.mixLo s with seq := { ph := .mix, i := l.seq.i, u := 3 } }

/-- M-MIX1: to the next iteration, or from the last one to DRAIN (R142). -/
def microMMix1 (s : LaneId) (l : Lane) : Lane :=
  { l.mixHi s with
    seq := if lastIter l.seq.i then { ph := .drain, i := 0, u := 0 } else { ph := .mix, i := nextIter l.seq.i, u := 0 } }

/-- L-DRAIN: idle once nothing of the lane is in flight (R71, R143). -/
def microLDrain (l : Lane) : Option Lane :=
  if l.pw = [] ∧ l.pr = .empty then some { l with seq := Seq.idle } else none

end Sys2Proof.Machine
end

