-- ==== Sys2Proof/Machine/Batched.lean ====
section
/-! DEFINITION. The command `ROMIXB`: ROMix on the lanes 0 to k-1 (spec/43_batched.md). It has no micro-step of its own (R164). -/

namespace Sys2Proof.Machine

/-- The lanes of a batch of width k: 0 to k-1 (R160, R161). -/
def inBatch (k : Nat) (t : LaneId) : Bool := t.val < k

/-- `ROMIXB k` reaches CORE: lanes 0 to k-1 start in phase FILL (R160, R185). A width outside 1, 2, 4, 8 is no command and no
word decodes to it (R82, R87; log 10). -/
def execRomixb (k : Nat) (st : State) : Host.Outcome State Fault Refusal :=
  if legalWidth k then .next (st.submit (Instr.romixb k).fields .fill (inBatch k))
  else .refused (.illFormed "ROMIXB")

end Sys2Proof.Machine
end

