-- ==== Sys2Proof/Machine/Salsa.lean ====
section
/-! DEFINITION. The command `SALSA8X` and its micro-step S-EXEC (spec/40_salsa.md rule R110, spec/44_host_ops.md rule R187). -/

namespace Sys2Proof.Machine

/-- `SALSA8X s, h` reaches CORE: lane s starts in phase SAL (R110, R185). -/
def execSalsa8x (s : LaneId) (h : Fin 2) (st : State) : Host.Outcome State Fault Refusal :=
  .next (st.submit (Instr.salsa8x s h).fields .sal fun t => t == s)

/-- S-EXEC of lane s, with h = `CUR.H`: the half h of X[s] takes SX of it and the other half; the lane is idle (R110, R187). -/
def microSExec (s : LaneId) (h : BitVec 1) (l : Lane) : Lane :=
  { (if h = 0 then l.mixLo s else l.mixHi s) with seq := Seq.idle }

end Sys2Proof.Machine
end

