-- ==== Sys2Proof/Machine/Dispatch.lean ====
section
/-! DEFINITION. The meaning of a command when it reaches CORE: one arm per row of the opcode table. -/

namespace Sys2Proof.Machine

/-- What a command does when the host's write of it to `CMD` is taken (R185). -/
def exec (i : Instr) (s : State) : Host.Outcome State Fault Refusal :=
  match i with
  | .salsa8x l h => Sys2Proof.Machine.execSalsa8x l h s
  | .bmix l => Sys2Proof.Machine.execBmix l s
  | .romix l => Sys2Proof.Machine.execRomix l s
  | .romixb k => Sys2Proof.Machine.execRomixb k s

end Sys2Proof.Machine
end

