-- ==== Sys2Proof/Machine/Host.lean ====
section
/-! DEFINITION. The steps of the agent HOST: reads, writes, RESET, and the script's pseudo-actions (spec/44_host_ops.md rules R180
to R186, spec/30_encoding.md rule R88). -/

namespace Sys2Proof.Machine

/-- The host address of `STATUS` (R51). -/
def statusAddr : HostAddr := 0x001

/-- The host address of `CMD` (R51). -/
def cmdAddr : HostAddr := 0x000

/-- A host read returns v. -/
def State.answer (s : State) (a : HostAddr) (v : Word) : State :=
  { s with reads := { addr := a, value := v } :: s.reads }

/-- A host read returns any value (log 5). -/
def State.answerAny (s : State) (a : HostAddr) : State :=
  { s.answer a (Config.freeHostWord s.hostDraws) with hostDraws := s.hostDraws + 1 }

/-- `HRD(a)`, taken, with the checks in the order of R182: faulted state, map, then the access (R183, R184). -/
def hostRead (a : HostAddr) (s : State) : State :=
  match hostLoc a with
  | .status => s.answer a (statusWord s.status)
  | .cmd => if s.status.fault.isSome then s.answerAny a else (s.raise .badAddr).answerAny a
  | .unmapped => if s.status.fault.isSome then s.answerAny a else (s.raise .badAddr).answerAny a
  | .xwin t w =>
    if s.status.fault.isSome then s.answerAny a
    else match (s.lane t).x[w] with
      | some v => s.answer a v
      | none => s.answerAny a

/-- X[t][w] <- v; the word now holds a value (R184). -/
def State.putWord (s : State) (t : LaneId) (w : Fin 32) (v : Word) : State :=
  s.setLane t { s.lane t with x := (s.lane t).x.set w (some v) }

/-- `HWR(a, v)`, taken, with the checks in the order of R182: faulted state, map, command legality, then the access: a Block
register word (R184) or a command (R185). -/
def hostWrite (a : HostAddr) (v : Word) (s : State) : Host.Outcome State Fault Refusal :=
  if s.status.fault.isSome then .next s
  else match hostLoc a with
    | .cmd =>
      match decode v with
      | .ok i => exec i s
      | .error _ => .next (s.raise .illCmd)
    | .status => .next (s.raise .badAddr)
    | .unmapped => .next (s.raise .badAddr)
    | .xwin t w => .next (s.putWord t w v)

/-- Hold while busy (R181): every HRD and HWR but the STATUS read. RESET is never held; WAIT is STATUS reads (R88). -/
def HostAction.isHeld (busy : Bool) : HostAction → Bool
  | .hrd a => busy && a != statusAddr
  | .hwr _ _ => busy
  | .reset => false
  | .wait => false

/-- The host's next action is there and not held. -/
def State.hostReady (s : State) : Bool :=
  match s.script with
  | [] => false
  | a :: _ => !(a.isHeld s.status.busy)

/-- Take a host action that has left the script. WAIT reads STATUS once, and comes back while it reads BUSY = 1 (R88). -/
def takeHost (a : HostAction) (s : State) : Host.Outcome State Fault Refusal :=
  match a with
  | .hrd a => .next (hostRead a s)
  | .hwr a v => hostWrite a v s
  | .reset => .next s.resetEvent
  | .wait =>
    .next { hostRead statusAddr s with script := if s.status.busy then .wait :: s.script else s.script }

/-- The HOST step: its next action is taken, if it is not held (R72, R180, R181). -/
def hostStep (s : State) : Host.Outcome State Fault Refusal :=
  match s.script with
  | [] => .next s
  | a :: rest => if a.isHeld s.status.busy then .next s else takeHost a { s with script := rest }

/-- One of the RESET events the host wants beside its script is taken; it is never held (R181, R230, R231). -/
def resetStep (s : State) : State :=
  match s.resets with
  | 0 => s
  | n + 1 => { s.resetEvent with resets := n }

/-! ### The script's abbreviations (R88) -/

/-- `CMD <command>`: one write of the command's word; a text that encodes nothing is no action (R87). -/
def scriptCmd (i : Instr) : List HostAction :=
  match encode i with
  | some w => [.hwr cmdAddr w]
  | none => []

/-- `LDBLK s, B`. -/
def scriptLdblk (s : LaneId) (b : Block) : List HostAction :=
  (List.finRange 32).map fun w => .hwr (xwinAddr s w) b[w]

/-- `RDBLK s`. -/
def scriptRdblk (s : LaneId) : List HostAction := (List.finRange 32).map fun w => .hrd (xwinAddr s w)

end Sys2Proof.Machine
end

