-- ==== Sys2Proof/Machine/Schedule.lean ====
section
/-! DEFINITION. The step relation: which steps of HOST, LANE(s), TE and SEQ are enabled, what each does, and the choice
between them (spec/00_scope.md rules R9, R10; spec/20_memory.md rules R62, R63; spec/42_romix.md; spec/44_host_ops.md). -/

namespace Sys2Proof.Machine

/-- The micro-steps of a lane (R136 to R143, R187, R188). -/
inductive Micro where
  | sExec | bMix0 | bMix1 | fStore | fMix0 | fMix1 | mFetch | mXor | mMix0 | mMix1 | lDrain
deriving DecidableEq, Repr

/-- The micro-step that `seq[s]` selects, at most one (42_romix.md section 3): the first line of each guard. -/
def selected (q : Seq) : Option Micro :=
  match q.ph with
  | .idle => none
  | .sal => some .sExec
  | .bmx => if q.i = 0 ∧ q.u = 0 then some .bMix0 else if q.i = 0 ∧ q.u = 1 then some .bMix1 else none
  | .fill => if q.u = 0 then some .fStore else if q.u = 1 then some .fMix0 else if q.u = 2 then some .fMix1 else none
  | .mix => if q.u = 0 then some .mFetch else if q.u = 1 then some .mXor else if q.u = 2 then some .mMix0 else some .mMix1
  | .drain => some .lDrain

/-- One micro-step of lane s, or `none` where the rest of its guard is false: the lane is held (R15, R169). -/
def runMicro (m : Micro) (room : Bool) (h : BitVec 1) (s : LaneId) (l : Lane) : Option Lane :=
  match m with
  | .sExec => some (microSExec s h l)
  | .bMix0 => some (microBMix0 s l)
  | .bMix1 => some (microBMix1 s l)
  | .fStore => microFStore room s l
  | .fMix0 => some (microFMix0 s l)
  | .fMix1 => some (microFMix1 s l)
  | .mFetch => microMFetch room s l
  | .mXor => microMXor s l
  | .mMix0 => some (microMMix0 s l)
  | .mMix1 => some (microMMix1 s l)
  | .lDrain => microLDrain l

/-- The step LANE(s) can take now, as what its lane becomes. -/
def laneNext (room : Bool) (h : BitVec 1) (s : LaneId) (l : Lane) : Option Lane :=
  match selected l.seq with
  | some m => runMicro m room h s l
  | none => none

/-- The guard of C-DONE (R189). -/
def State.canComplete (s : State) : Bool := s.status.busy && s.allIdle

/-- The effect of C-DONE (R189). -/
def State.complete (s : State) : State := { s with status := s.status.complete }

/-- A step of one agent (R10). -/
inductive Action where
  /-- HOST: its next script action. -/
  | host
  /-- HOST: a RESET event beside the script. -/
  | reset
  /-- LANE(s): its selected micro-step. -/
  | lane (s : LaneId)
  /-- TE: write-perform of slot j of lane s. -/
  | teWrite (s : LaneId) (j : Slot)
  /-- TE: read-perform for lane s. -/
  | teRead (s : LaneId)
  /-- SEQ: C-DONE. -/
  | cDone
deriving DecidableEq, Repr

/-- The guard of a step. -/
def enabled (a : Action) (s : State) : Bool :=
  match a with
  | .host => s.hostReady
  | .reset => s.resets != 0
  | .lane t => (laneNext s.teRoom s.cur.h t (s.lane t)).isSome
  | .teWrite t j => ((s.lane t).performWrite j).isSome
  | .teRead t => (s.lane t).readToPerform.isSome
  | .cDone => s.canComplete

/-- Lane t becomes l, or stays where its step is not enabled. -/
def State.laneOr (s : State) (t : LaneId) (l : Option Lane) : State :=
  match l with
  | some l' => s.setLane t l'
  | none => s

/-- The TE read-perform step of lane t (R63). -/
def State.teReadStep (s : State) (t : LaneId) : Host.Outcome State Fault Refusal :=
  match (s.lane t).readToPerform with
  | some j =>
    match Lane.performRead t (s.lane t) j with
    | .ok l => .next (s.setLane t l)
    | .error f => .fault f
  | none => .next s

/-- The effect of a step. A step that is not enabled changes nothing: its agent is held (R15). -/
def perform (a : Action) (s : State) : Host.Outcome State Fault Refusal :=
  match a with
  | .host => hostStep s
  | .reset => .next (resetStep s)
  | .lane t => .next (s.laneOr t (laneNext s.teRoom s.cur.h t (s.lane t)))
  | .teWrite t j => .next (s.laneOr t ((s.lane t).performWrite j))
  | .teRead t => s.teReadStep t
  | .cDone => .next (if s.canComplete then s.complete else s)

/-- Every step some agent could want to take: the TE's writes are those in the pending-write sets. -/
def State.wanted (s : State) : List Action :=
  [Action.host, Action.reset, Action.cDone]
    ++ (List.finRange 8).map Action.lane
    ++ (List.finRange 8).map Action.teRead
    ++ (List.finRange 8).flatMap fun t => (s.lane t).pw.map fun e => Action.teWrite t e.1

/-- The enabled steps. -/
def State.enabledActions (s : State) : List Action := s.wanted.filter fun a => enabled a s

/-- The step that is next: any enabled step of any agent may be (R10, R163). Where there are several the free value
`Config.schedule` takes one (log 3). -/
def State.chosen (s : State) : Option Action :=
  match s.enabledActions with
  | [] => none
  | [a] => some a
  | a :: b :: rest => some ((a :: b :: rest).getD (Config.schedule s.tick % (rest.length + 2)) a)

/-- The machine after the schedule has been asked: where there is no choice it is not. -/
def State.asked (s : State) : State :=
  match s.enabledActions with
  | [] => s
  | [_] => s
  | _ :: _ :: _ => { s with tick := s.tick + 1 }

/-- One step of the machine: the enabled step that is next is taken; where none is enabled the machine waits for its host. -/
def advance (s : State) : Host.Outcome State Fault Refusal :=
  match s.chosen with
  | none => .next s
  | some a => perform a s.asked

end Sys2Proof.Machine
end

