-- ==== Sys2Proof/Machine/Step.lean ====
section
/-! DEFINITION. The step of the machine, and how the host's probe places a command. -/

namespace Sys2Proof.Machine

/-- One step: one enabled step of one agent (R10). -/
def step (s : State) : Host.Outcome State Fault Refusal := advance s

/-- CORE fetches no instructions (R75): a command comes as a host write of its word to `CMD`. So the word is put at the head of
the host's script as `HWR 0x000, w`, which the next step takes where CORE is idle (log 4). -/
def State.withFetchWord (s : State) (nbits w : Nat) : State :=
  { s with script := .hwr cmdAddr (BitVec.ofNat 32 (w % 2 ^ nbits)) :: s.script }

end Sys2Proof.Machine
end

