-- ==== Sys2Proof/Safety.lean ====
section
/-! DEFINITION. The terms claims about CORE are made in: the invariant of the machine, runs of one command under any
schedule, the work left, the end of a run, and the event history. -/

namespace Sys2Proof.Machine

/-! ### The invariant -/

/-- The values `seq[s]` takes (R28): `i` is meaningful in FILL and MIX only, `u` in BMX (0..1), FILL (0..2), MIX (0..3). -/
def Seq.legal (q : Seq) : Bool :=
  match q.ph with
  | .idle => q.i = 0 ∧ q.u = 0
  | .sal => q.i = 0 ∧ q.u = 0
  | .bmx => q.i = 0 ∧ q.u.val ≤ 1
  | .fill => q.u.val ≤ 2
  | .mix => true
  | .drain => q.i = 0 ∧ q.u = 0

/-- Slot k has been stored in this command: its write is in flight, or its Block stands in the bank. -/
def Lane.stored (l : Lane) (k : Slot) : Prop := (l.pw.find k).isSome ∨ l.v.holds k

/-- The fill phase at `seq` has issued the write of slot k (R136, R138). -/
def fillIssued (q : Seq) (k : Slot) : Prop := k.val < q.i.val ∨ (k = q.i ∧ q.u ≠ 0)

/-- The read in flight, if any, is of a slot whose write is complete (R66). -/
def Lane.readSafe (l : Lane) : Prop :=
  match l.pr with
  | .empty => True
  | .issued j => l.pw.find j = none
  | .performed j _ => l.pw.find j = none

/-- What holds of a lane's transfers in each phase (R71, R136 to R146). -/
def Lane.transfersInv (l : Lane) : Prop :=
  match l.seq.ph with
  | .idle => l.pw = [] ∧ l.pr = .empty
  | .sal => l.pw = [] ∧ l.pr = .empty
  | .bmx => l.pw = [] ∧ l.pr = .empty
  | .fill =>
    l.pr = .empty ∧ (∀ k, (l.pw.find k).isSome → fillIssued l.seq k) ∧ ∀ k, fillIssued l.seq k → l.stored k
  | .mix => (l.pr = .empty ↔ l.seq.u ≠ 1) ∧ l.readSafe ∧ ∀ k, l.stored k
  | .drain => l.pr = .empty

/-- The invariant of a lane: its bank and its pending-write set are in canonical form, its sequencer state is legal, and its
transfers agree with its phase. -/
def Lane.Inv (l : Lane) : Prop := l.v.wf ∧ l.pw.wf ∧ l.seq.legal ∧ l.transfersInv

/-- The invariant of the machine: that of each lane; with BUSY = 0 every lane is IDLE (R189); BUSY = 1 never together with
DONE = 1 or FAULT ≠ 0 (R30, R183, R206). -/
def State.Inv (s : State) : Prop :=
  (∀ t, (s.lane t).Inv)
    ∧ (s.status.busy = false → s.allIdle)
    ∧ ¬(s.status.busy ∧ s.status.done)
    ∧ (s.status.busy → s.status.fault = none)

/-- A command written to `CMD` now would be accepted (R182, R185): not held, not faulted. -/
def State.ready (s : State) : Prop := s.status.busy = false ∧ s.status.fault = none

/-- The host wants nothing more of the machine. -/
def State.hostDone (s : State) : Prop := s.script = [] ∧ s.resets = 0

/-! ### Runs of one command under any schedule -/

/-- A step of CORE itself: of a lane, the TE or SEQ (R10). -/
def Action.isCore : Action → Bool
  | .host => false
  | .reset => false
  | .lane _ => true
  | .teWrite _ _ => true
  | .teRead _ => true
  | .cDone => true

/-- The step is a RESET event. -/
def Action.isReset (a : Action) (s : State) : Bool :=
  match a with
  | .host => s.script.head? = some .reset
  | .reset => true
  | .lane _ => false
  | .teWrite _ _ => false
  | .teRead _ => false
  | .cDone => false

/-- `as` is a schedule of enabled steps of any agents, all taken while BUSY = 1 and none of them a RESET, that leads from s
to t (R10, R163). -/
def CommandRun : List Action → State → State → Prop
  | [], s, t => s = t
  | a :: as, s, t =>
    s.status.busy = true ∧ a.isReset s = false ∧ enabled a s = true ∧ ∃ s', perform a s = .next s' ∧ CommandRun as s' t

/-- From the accept state s the command completes, and however the steps were interleaved, `post` holds of the schedule and of
the state at completion: every schedule that reaches BUSY = 0 ends so, and there is one (R144, R165, R189). -/
def Completes (s : State) (post : List Action → State → Prop) : Prop :=
  (∀ as t, CommandRun as s t → t.status.busy = false → post as t)
    ∧ ∃ as t, CommandRun as s t ∧ t.status.busy = false

/-! ### Endless runs, and weak fairness -/

/-- `r 0, r 1, ...` is a run of the agents, with `act n` the step taken at moment n: an enabled step of some agent, or none, where
nothing happens for a while (R9, R10). The model's count of schedule choices may be any number, so that every run of the
machine's own steps is one of these. -/
def IsRun (r : Nat → State) (act : Nat → Option Action) : Prop :=
  ∀ n, match act n with
    | none => r (n + 1) = r n
    | some a => enabled a (r n) = true ∧ ∃ k, perform a { r n with tick := k } = .next (r (n + 1))

/-- Weak fairness, the one liveness assumption of the spec: "a step of any agent that stays enabled is eventually taken" (R9,
R77; log 8). -/
def WeaklyFair (r : Nat → State) (act : Nat → Option Action) : Prop :=
  ∀ (a : Action) (n : Nat), (∀ m, n ≤ m → enabled a (r m) = true) → ∃ m, n ≤ m ∧ act m = some a

/-- The machine after n of its own steps; where a step would fault it stays. -/
def State.after (s : State) : Nat → State
  | 0 => s
  | n + 1 =>
    match step (s.after n) with
    | .next u => u
    | .fault _ => s.after n
    | .refused _ => s.after n

/-- The steps the schedule chooses from s on. -/
def State.choices (s : State) (n : Nat) : Option Action := (s.after n).chosen

/-- `Config.schedule` is weakly fair from s on (R77). No schedule is forced to be: a claim that needs it has it as a premise
(log 8). -/
def State.fair (s : State) : Prop := WeaklyFair s.after s.choices

/-! ### The work left -/

/-- The lane micro-steps from `seq[s]` to IDLE (R148). -/
def microsLeft (q : Seq) : Nat :=
  match q.ph with
  | .idle => 0
  | .sal => 1
  | .bmx => 2 - q.u.val
  | .fill => 3 * (Config.n - q.i.val) - q.u.val + 4 * Config.n + 1
  | .mix => 4 * (Config.n - q.i.val) - q.u.val + 1
  | .drain => 1

/-- The work left in a lane: two for each micro-step (it may issue a transfer), one for each transfer not yet performed. -/
def Lane.work (l : Lane) : Nat :=
  2 * microsLeft l.seq + l.pw.length + (if l.readToPerform.isSome then 1 else 0)

/-- The work left in the machine: that of the lanes, and the completion step. -/
def State.work (s : State) : Nat :=
  ((List.finRange 8).map fun t => (s.lane t).work).sum + (if s.status.busy then 1 else 0)

/-! ### The end of a run -/

/-- A run of a host script is over (R190). -/
def State.finished (s : State) : Prop :=
  s.hostDone ∧ s.status.busy = false ∧ s.allIdle ∧ ∀ t, (s.lane t).pw = [] ∧ (s.lane t).pr = .empty

/-- A run has ended well (R190): no hardware fault is latched, and no model fault was recorded: no lane has read a word of
`X[s]` that held no value (R218, 93_implementation_defined.md U16). The other model fault, of the TE, stops the machine, so
a state it has reached has none. -/
def State.endedWell (s : State) : Prop :=
  s.finished ∧ s.status.fault = none ∧ ∀ t, (s.lane t).unwritten = false

/-! ### The event history -/

/-- The events of a lane's transfers (R149). -/
inductive Event where
  | issueWrite (s : LaneId) (i : Slot)
  | performWrite (s : LaneId) (i : Slot)
  | issueRead (s : LaneId) (j : Slot)
  | performRead (s : LaneId) (j : Slot)
  | awaitRead (s : LaneId) (j : Slot)
deriving DecidableEq, Repr

/-- The event of one step taken in state s, if it is one of a transfer (R149). -/
def eventOf (a : Action) (s : State) : Option Event :=
  match a with
  | .lane t =>
    match selected (s.lane t).seq, (s.lane t).pr with
    | some .fStore, _ => some (.issueWrite t (s.lane t).seq.i)
    | some .mFetch, _ => some (.issueRead t (integerify (readWord t (s.lane t) 16)))
    | some .mXor, .performed j _ => some (.awaitRead t j)
    | _, _ => none
  | .teWrite t j => some (.performWrite t j)
  | .teRead t => (s.lane t).readToPerform.map fun j => .performRead t j
  | .host => none
  | .reset => none
  | .cDone => none

/-- The event history of a schedule from s, oldest first (R149). -/
def history : List Action → State → List Event
  | [], _ => []
  | a :: as, s =>
    (eventOf a s).toList ++ match perform a s with
      | .next s' => history as s'
      | .fault _ => []
      | .refused _ => []

/-- The slots lane t has read, in order: the sequence of mix indices (R149). -/
def readTrace (t : LaneId) (es : List Event) : List Slot :=
  es.filterMap fun e => match e with
    | .issueRead s j => if s = t then some j else none
    | .issueWrite _ _ => none
    | .performWrite _ _ => none
    | .performRead _ _ => none
    | .awaitRead _ _ => none

end Sys2Proof.Machine
end

