-- ==== Sys2Proof/Certificates/Slice0/Obligations.lean ====
section
/-! DEFINITION. The statements for the provers, from the numbered rules of spec/. OBLIGATIONS.json lists them. -/

open Sys2Proof Sys2Proof.Machine

/-! ### Encoding -/

/-- Every command has a word and is read back from it, with every operand at every value; a term with an operand outside its
range encodes nothing (R83, R84, R87). -/
def Obligations.DecodeEncodeRoundTrip : Prop :=
  ∀ i : Instr,
    (i.wf = true → ∃ w, encode i = some w ∧ decode w = .ok i) ∧
    (i.wf = false → encode i = none ∧ scriptCmd i = [])

/-- A word that decodes is the word of the command it decodes to: no two words mean one command, and no legal word has a bit
outside the fields its row uses (R83, R87). -/
def Obligations.DecodedWordIsTheEncoding : Prop :=
  ∀ (c : Word) (i : Instr), decode c = .ok i → i.wf = true ∧ encode i = some c

/-- R84: which words are legal, which row with which field values a legal one is, and what a host write of an illegal one
does. -/
def Obligations.LegalWordsAndIllegalOnes : Prop :=
  (∀ c : Word,
    (∃ i, decode c = .ok i) ↔
      c.extractLsb' 10 22 = 0 ∧
        ((c.extractLsb' 0 4 = 1 ∧ c.extractLsb' 8 2 = 0) ∨
         (c.extractLsb' 0 4 = 2 ∧ c.extractLsb' 7 3 = 0) ∨
         (c.extractLsb' 0 4 = 3 ∧ c.extractLsb' 7 3 = 0) ∨
         (c.extractLsb' 0 4 = 4 ∧ c.extractLsb' 4 4 = 0))) ∧
  (∀ (c : Word) (i : Instr), decode c = .ok i →
    (c.extractLsb' 0 4 = 1 → ∃ s h, i = .salsa8x s h ∧ s.val = (c.extractLsb' 4 3).toNat ∧ h.val = (c.extractLsb' 7 1).toNat) ∧
    (c.extractLsb' 0 4 = 2 → ∃ s, i = .bmix s ∧ s.val = (c.extractLsb' 4 3).toNat) ∧
    (c.extractLsb' 0 4 = 3 → ∃ s, i = .romix s ∧ s.val = (c.extractLsb' 4 3).toNat) ∧
    (c.extractLsb' 0 4 = 4 → i = .romixb (2 ^ (c.extractLsb' 8 2).toNat))) ∧
  ∀ (c : Word) (s : State), (¬ ∃ i, decode c = .ok i) → s.ready →
    hostWrite cmdAddr c s = .next { s with status := { s.status with fault := some .illCmd } }

/-- R83: a word selects a row if and only if (c and mask) = match, with the table's own masks and matches. -/
def Obligations.WordSelectsRowByMaskAndMatch : Prop :=
  ∀ c : Word,
    (c &&& 0xFFFFFF0F = 0x00000001 ↔ ∃ s h, decode c = .ok (.salsa8x s h)) ∧
    (c &&& 0xFFFFFF8F = 0x00000002 ↔ ∃ s, decode c = .ok (.bmix s)) ∧
    (c &&& 0xFFFFFF8F = 0x00000003 ↔ ∃ s, decode c = .ok (.romix s)) ∧
    (c &&& 0xFFFFFCFF = 0x00000004 ↔ ∃ k, decode c = .ok (.romixb k))

/-- The words R85 and R87 write out, and what they stand for. -/
def Obligations.WrittenOutWordsDecode : Prop :=
  decode 0x00000001 = .ok (.salsa8x 0 0) ∧ decode 0x000000D1 = .ok (.salsa8x 5 1) ∧
  decode 0x00000032 = .ok (.bmix 3) ∧ decode 0x00000073 = .ok (.romix 7) ∧
  decode 0x00000004 = .ok (.romixb 1) ∧ decode 0x00000304 = .ok (.romixb 8) ∧
  decode 0x00000000 = .error .reservedOp ∧ decode 0x00000005 = .error .reservedOp ∧
  decode 0x00000082 = .error .nonzeroField ∧ decode 0x00000314 = .error .nonzeroField ∧
  decode 0x00000473 = .error .nonzeroZ

/-! ### The Salsa20/8 core, BlockMix and ROMix as functions -/

/-- R13: rotl, by its shifts on numbers, is rotation left. -/
def Obligations.RotlRotatesLeft : Prop :=
  ∀ (a : Word) (r : Nat), 0 < r → r < 32 →
    (rotl a r).toNat = ((a.toNat <<< r) % 2 ^ 32 ||| a.toNat >>> (32 - r)) ∧ rotl a r = a.rotateLeft r

/-- R101: ARX gives x[a] its new value and writes nothing else. -/
def Obligations.ArxWritesItsTargetOnly : Prop :=
  ∀ (x : Half) (a b c : Fin 16) (r : Nat),
    (arx x a b c r)[a] = x[a] ^^^ rotl (x[b] + x[c]) r ∧
    ∀ d : Fin 16, d ≠ a → (arx x a b c r)[d] = x[d]

/-- R102 to R107: the order of the ARX operations of a quarter-round, the wiring of the column and row rounds, and the order of
the rounds in a double-round. -/
def Obligations.RoundWiring : Prop :=
  (∀ (x : Half) (y0 y1 y2 y3 : Fin 16),
    qr x y0 y1 y2 y3 = arx (arx (arx (arx x y1 y0 y3 7) y2 y1 y0 9) y3 y2 y1 13) y0 y3 y2 18) ∧
  (∀ x : Half, colRound x = qr (qr (qr (qr x 0 4 8 12) 5 9 13 1) 10 14 2 6) 15 3 7 11) ∧
  (∀ x : Half, rowRound x = qr (qr (qr (qr x 0 1 2 3) 5 6 7 4) 10 11 8 9) 15 12 13 14) ∧
  ∀ x : Half, dRound x = rowRound (colRound x)

/-- R104, R106: the four quarter-rounds of a round touch disjoint words, so their order among themselves does not matter. -/
def Obligations.QuarterRoundsOfARoundCommute : Prop :=
  ∀ (x : Half) (c d : Nat), c < 4 → d < 4 → c ≠ d →
    colGroup (colGroup x c) d = colGroup (colGroup x d) c ∧
    rowGroup (rowGroup x c) d = rowGroup (rowGroup x d) c

/-- R108: P8 is four double-rounds, is a bijection on 16-word states, and maps the all-zero state to itself. -/
def Obligations.P8IsABijection : Prop :=
  (∀ x : Half, p8 x = dRound^[4] x) ∧ Function.Bijective p8 ∧
    p8 (Vector.replicate 16 0) = Vector.replicate 16 0

/-- R109: SX word by word, and its laws. -/
def Obligations.SxAndItsLaws : Prop :=
  (∀ (a b : Half) (w : Fin 16), (sx a b)[w] = (a[w] ^^^ b[w]) + (p8 (halfXor a b))[w]) ∧
  (∀ a b : Half, sx a b = sx b a) ∧
  (∀ a : Half, sx a a = Vector.replicate 16 0) ∧
  (∀ a : Half, sx a (Vector.replicate 16 0) = halfAdd a (p8 a)) ∧
  ∀ a b c d : Half, halfXor a b = halfXor c d → sx a b = sx c d

/-- R120, R122, R123: the three-buffer BlockMix is the in-place one, low half first. -/
def Obligations.BlockMixFormsAgree : Prop :=
  ∀ b : Block,
    bm b = ofHalves (sx (lo b) (hi b)) (sx (hi b) (sx (lo b) (hi b))) ∧
    (lo b = hi b → lo (bm b) = Vector.replicate 16 0)

/-- R131: V[i] is BlockMix applied i times to the input, and the Block after the fill phase is BlockMix applied N times. -/
def Obligations.FillPhaseStoresTheIterates : Prop :=
  ∀ (n : Nat) (b : Block),
    (fillPhase n b).1 = (List.range n).map (fun i => bm^[i] b) ∧ (fillPhase n b).2 = bm^[n] b

/-- R130, R133: ROMix is N iterations of "xor with V[j], then BlockMix" on the Block after the fill, j being word 16 modulo N of
the Block before the xor, and V[j] BlockMix applied j times to the input. R135, corner case: the all-zero Block gives the
all-zero Block, every index being 0. -/
def Obligations.RomixIsIteratedMix : Prop :=
  (∀ b : Block, rm b = (fun x => bm (blockXor x (bm^[x[16].toNat % 1024] b)))^[1024] (bm^[1024] b)) ∧
  rm (Vector.replicate 32 0) = Vector.replicate 32 0 ∧ ∀ j ∈ rmIndices (Vector.replicate 32 0), j = 0

/-- R132: INTEGERIFY of a Block is its word 16 modulo N, the low 10 bits of that word, in 0..1023. -/
def Obligations.IntegerifyIsLowTenBits : Prop :=
  (∀ b : Block,
    (integerify b[16]).val = b[16].toNat % 1024 ∧ (integerify b[16]).val = (b[16].extractLsb' 0 10).toNat ∧
      (integerify b[16]).val ≤ 1023) ∧
  ∀ b : Block, b[16] = 0x27765044 → (integerify b[16]).val = 68

/-- R56: the byte view of a Block is little-endian, and words and bytes determine each other. -/
def Obligations.BlockBytesAreLittleEndian : Prop :=
  (∀ (b : Vector Byte 128) (w : Fin 32),
    (blockOfBytes b)[w].toNat =
      b[4 * w.val].toNat + 2 ^ 8 * b[4 * w.val + 1].toNat + 2 ^ 16 * b[4 * w.val + 2].toNat
        + 2 ^ 24 * b[4 * w.val + 3].toNat) ∧
  (∀ b : Block, blockOfBytes (Vector.ofFn (blockByte b)) = b) ∧
  ∀ (b : Vector Byte 128) (n : Fin 128), blockByte (blockOfBytes b) n = b[n]

/-! ### A command reaches CORE -/

/-- R185 for each of the four commands: it is accepted wherever CORE is neither busy nor faulted. `CUR` gets the fields, BUSY is
set and DONE cleared, the lanes the command names start in its phase, and nothing else changes: every other lane, and of
the named lanes every piece of state but `seq`, the fault code, and the host's own state. -/
def Obligations.CommandAcceptNextState : Prop :=
  ∀ st : State, st.ready →
    (∀ (s : LaneId) (h : Fin 2), ∃ t, exec (.salsa8x s h) st = .next t ∧
      t = { st with
            cur := { op := 1, s := BitVec.ofNat 3 s.val, h := BitVec.ofNat 1 h.val, lk := 0 }
            status := { busy := true, done := false, fault := none }
            lanes := t.lanes } ∧
      t.lane s = { st.lane s with seq := { ph := .sal, i := 0, u := 0 } } ∧
      ∀ r, r ≠ s → t.lane r = st.lane r) ∧
    (∀ s : LaneId, ∃ t, exec (.bmix s) st = .next t ∧
      t = { st with
            cur := { op := 2, s := BitVec.ofNat 3 s.val, h := 0, lk := 0 }
            status := { busy := true, done := false, fault := none }
            lanes := t.lanes } ∧
      t.lane s = { st.lane s with seq := { ph := .bmx, i := 0, u := 0 } } ∧
      ∀ r, r ≠ s → t.lane r = st.lane r) ∧
    (∀ s : LaneId, ∃ t, exec (.romix s) st = .next t ∧
      t = { st with
            cur := { op := 3, s := BitVec.ofNat 3 s.val, h := 0, lk := 0 }
            status := { busy := true, done := false, fault := none }
            lanes := t.lanes } ∧
      t.lane s = { st.lane s with seq := { ph := .fill, i := 0, u := 0 } } ∧
      ∀ r, r ≠ s → t.lane r = st.lane r) ∧
    (∀ (lk : BitVec 2), ∃ t, exec (.romixb (2 ^ lk.toNat)) st = .next t ∧
      t = { st with
            cur := { op := 4, s := 0, h := 0, lk := lk }
            status := { busy := true, done := false, fault := none }
            lanes := t.lanes } ∧
      (∀ r : LaneId, r.val < 2 ^ lk.toNat → t.lane r = { st.lane r with seq := { ph := .fill, i := 0, u := 0 } }) ∧
      ∀ r : LaneId, ¬ r.val < 2 ^ lk.toNat → t.lane r = st.lane r)

/-- The frame of command accept, for all four commands: every byte of every scratchpad bank reads as before, every Block
register, working state, pending write and pending read is unchanged (R185, R27). -/
def Obligations.CommandAcceptFrame : Prop :=
  ∀ (i : Instr) (st t : State), exec i st = .next t →
    (∀ (r : LaneId) (a : Nat), (t.lane r).v.read a = (st.lane r).v.read a) ∧
    (∀ r : LaneId, (t.lane r).x = (st.lane r).x ∧ (t.lane r).t = (st.lane r).t ∧ (t.lane r).pw = (st.lane r).pw ∧
      (t.lane r).pr = (st.lane r).pr ∧ (t.lane r).draws = (st.lane r).draws ∧ (t.lane r).unwritten = (st.lane r).unwritten) ∧
    t.status.fault = st.status.fault ∧ t.script = st.script ∧ t.resets = st.resets ∧ t.reads = st.reads ∧
    t.hostDraws = st.hostDraws ∧ t.tick = st.tick

/-- Where a command is turned away with none of its effect: held while BUSY (R181), discarded in the faulted state (R182,
R208); that `exec` itself answers the unchanged state there is the model's form (log 9). A width outside 1, 2, 4, 8 is no
command, and the model refuses it by name (R160, R87; the refusal is log 10). -/
def Obligations.CommandTurnedAway : Prop :=
  (∀ (i : Instr) (st : State), i.wf = true → (st.status.busy = true ∨ st.status.fault ≠ none) → exec i st = .next st) ∧
  ∀ (k : Nat) (st : State), k ≠ 1 → k ≠ 2 → k ≠ 4 → k ≠ 8 → exec (.romixb k) st = .refused (.illFormed "ROMIXB")

/-- A step runs the decoded command: where CORE is idle and not faulted and the host's next action is the write of a legal word
to `CMD`, the step is `exec` of the decoded command on the state with that action taken off the script (R185, R72). -/
def Obligations.StepRunsTheDecodedCommand : Prop :=
  ∀ (s : State) (w : Word) (rest : List HostAction) (i : Instr),
    s.Inv → s.ready → s.resets = 0 → s.script = .hwr 0x000 w :: rest → decode w = .ok i →
    step s = exec i { s with script := rest }

/-! ### What the commands do, under every schedule -/

/-- R110: whatever the schedule, SALSA8X s, h completes; half h of X[s] is SX of it and the other half, the other half and every
other lane are unchanged; the TE takes no step, so no scratchpad and no transfer state is touched; no unwritten word is
read. What V[s] and T[s] hold afterwards is not spoken of (R190). -/
def Obligations.Salsa8xResult : Prop :=
  ∀ (st : State) (s : LaneId) (h : Fin 2) (b : Block),
    st.Inv → st.ready → (st.lane s).x = held b →
    ∃ t, exec (.salsa8x s h) st = .next t ∧ Completes t fun as u =>
      (u.lane s).x = held (if h = 0 then ofHalves (sx (lo b) (hi b)) (hi b) else ofHalves (lo b) (sx (hi b) (lo b))) ∧
      (∀ r j, .teWrite r j ∉ as) ∧ (∀ r, .teRead r ∉ as) ∧
      (u.lane s).pw = [] ∧ (u.lane s).pr = .empty ∧ (u.lane s).seq.ph = .idle ∧ (u.lane s).unwritten = (st.lane s).unwritten ∧
      (∀ r, r ≠ s → u.lane r = st.lane r) ∧ u.status = { busy := false, done := true, fault := none }

/-- R122: whatever the schedule, BMIX s completes with X[s] = BM(X[s] at accept), every other lane unchanged; the TE takes no
step, so no scratchpad and no transfer state is touched; no unwritten word is read. What V[s] and T[s] hold afterwards is
not spoken of (R190). -/
def Obligations.BmixResult : Prop :=
  ∀ (st : State) (s : LaneId) (b : Block),
    st.Inv → st.ready → (st.lane s).x = held b →
    ∃ t, exec (.bmix s) st = .next t ∧ Completes t fun as u =>
      (u.lane s).x = held (bm b) ∧
      (∀ r j, .teWrite r j ∉ as) ∧ (∀ r, .teRead r ∉ as) ∧
      (u.lane s).pw = [] ∧ (u.lane s).pr = .empty ∧ (u.lane s).seq.ph = .idle ∧ (u.lane s).unwritten = (st.lane s).unwritten ∧
      (∀ r, r ≠ s → u.lane r = st.lane r) ∧ u.status = { busy := false, done := true, fault := none }

/-- R135, R144, R147: whatever the schedule of lane, TE, SEQ and polling host steps, the TE's depth, and what V[s] held before,
ROMIX s completes with X[s] = RM(X[s] at accept), nothing in flight, no unwritten word read, and every other lane unchanged. -/
def Obligations.RomixResultForEverySchedule : Prop :=
  ∀ (st : State) (s : LaneId) (b : Block),
    st.Inv → st.ready → (st.lane s).x = held b →
    ∃ t, exec (.romix s) st = .next t ∧ Completes t fun _ u =>
      (u.lane s).x = held (rm b) ∧
      (u.lane s).pw = [] ∧ (u.lane s).pr = .empty ∧ (u.lane s).seq = { ph := .idle, i := 0, u := 0 } ∧
      (u.lane s).unwritten = (st.lane s).unwritten ∧
      (∀ r, r ≠ s → u.lane r = st.lane r) ∧ u.status = { busy := false, done := true, fault := none }

/-- R160, R165: whatever the interleaving, ROMIXB k completes with X[r] = RM(X[r] at accept) for each r < k, as k separate
ROMIX commands would give, and with every lane r ≥ k unchanged. -/
def Obligations.RomixbResultForEverySchedule : Prop :=
  ∀ (st : State) (k : Nat) (b : LaneId → Block),
    st.Inv → st.ready → (k = 1 ∨ k = 2 ∨ k = 4 ∨ k = 8) →
    (∀ r : LaneId, r.val < k → (st.lane r).x = held (b r)) →
    ∃ t, exec (.romixb k) st = .next t ∧ Completes t fun _ u =>
      (∀ r : LaneId, r.val < k →
        (u.lane r).x = held (rm (b r)) ∧ (u.lane r).pw = [] ∧ (u.lane r).pr = .empty ∧
        (u.lane r).seq = { ph := .idle, i := 0, u := 0 } ∧ (u.lane r).unwritten = (st.lane r).unwritten) ∧
      (∀ r : LaneId, ¬ r.val < k → u.lane r = st.lane r) ∧ u.status = { busy := false, done := true, fault := none }

/-- R148: one ROMIX takes exactly 7169 micro-steps of its lane, 1024 write-performs and 1024 read-performs of the TE, and one
completion step; no other lane moves. -/
def Obligations.RomixStepCounts : Prop :=
  ∀ (st : State) (s : LaneId),
    st.Inv → st.ready →
    ∃ t, exec (.romix s) st = .next t ∧ Completes t fun as _ =>
      as.countP (fun a => a == .lane s) = 7169 ∧
      as.countP (fun a => match a with | .teWrite r _ => r == s | _ => false) = 1024 ∧
      as.countP (fun a => a == .teRead s) = 1024 ∧
      as.countP (fun a => a == .cDone) = 1 ∧
      as.countP (fun a => a.isCore) = 7169 + 1024 + 1024 + 1

/-- R149: the slots lane s reads in one ROMIX are, in order, the mix indices j_0, j_1, ... of the function. -/
def Obligations.RomixReadTrace : Prop :=
  ∀ (st : State) (s : LaneId) (b : Block),
    st.Inv → st.ready → (st.lane s).x = held b →
    ∃ t, exec (.romix s) st = .next t ∧ Completes t fun as _ =>
      (readTrace s (history as t)).map Fin.val = rmIndices b

/-- R77, R190. First: whatever the schedule, where the host wants nothing more, the machine's own steps run an accepted command
to its completion, in no more steps than the work left; and that run is one of the schedules the other statements speak of.
Second: beside any host, a WAIT that polls or a transaction that is held included, every weakly fair run of the agents takes
a running command to its completion, unless a RESET abandons it; the run up to there is one of those schedules. Third: so
do the machine's own steps where `Config.schedule` is weakly fair, which the model does not force it to be (log 8). -/
def Obligations.MachineRunsACommandToCompletion : Prop :=
  (∀ (st : State) (i : Instr),
    st.Inv → st.ready → st.hostDone → i.wf = true →
    ∃ t : State, exec i st = .next t ∧ ∃ (k : Nat) (u : State) (as : List Action),
      k ≤ t.work ∧ Sys2Proof.core.run k t = .next u ∧ CommandRun as t { u with tick := t.tick } ∧
      u.status.busy = false ∧ u.status.done = true) ∧
  (∀ (r : Nat → State) (act : Nat → Option Action),
    IsRun r act → WeaklyFair r act → (r 0).Inv → (r 0).status.busy = true →
    ∃ n, (∀ m, m ≤ n → (r m).status.busy = true) ∧ (r (n + 1)).status.busy = false ∧
      ((∃ a, act n = some a ∧ a.isReset (r n) = true) ∨
       (act n = some .cDone ∧ (r (n + 1)).status.done = true ∧
        ∃ as, CommandRun as (r 0) { r (n + 1) with tick := (r 0).tick }))) ∧
  ∀ s : State, s.Inv → IsRun s.after s.choices ∧
    (s.status.busy = true → s.fair → ∃ n, (s.after n).status.busy = false)

/-! ### The micro-steps of a lane -/

/-- R136 to R143, R187, R188: the sequencer transitions of all eleven micro-steps. -/
def Obligations.MicroStepTransitions : Prop :=
  ∀ (m : Micro) (room : Bool) (h : BitVec 1) (s : LaneId) (l l' : Lane),
    selected l.seq = some m → runMicro m room h s l = some l' →
    match m with
    | .sExec => l'.seq = { ph := .idle, i := 0, u := 0 }
    | .bMix0 => l'.seq = { ph := .bmx, i := 0, u := 1 }
    | .bMix1 => l'.seq = { ph := .idle, i := 0, u := 0 }
    | .fStore => l'.seq = { l.seq with u := 1 }
    | .fMix0 => l'.seq = { l.seq with u := 2 }
    | .fMix1 =>
      (l.seq.i.val < 1023 → l'.seq.ph = .fill ∧ l'.seq.i.val = l.seq.i.val + 1 ∧ l'.seq.u = 0) ∧
      (l.seq.i.val = 1023 → l'.seq = { ph := .mix, i := 0, u := 0 })
    | .mFetch => l'.seq = { l.seq with u := 1 }
    | .mXor => l'.seq = { l.seq with u := 2 }
    | .mMix0 => l'.seq = { l.seq with u := 3 }
    | .mMix1 =>
      (l.seq.i.val < 1023 → l'.seq.ph = .mix ∧ l'.seq.i.val = l.seq.i.val + 1 ∧ l'.seq.u = 0) ∧
      (l.seq.i.val = 1023 → l'.seq = { ph := .drain, i := 0, u := 0 })
    | .lDrain => l'.seq = { ph := .idle, i := 0, u := 0 }

/-- R110, R137, R141, R188: S-EXEC with h = 0, B-MIX0, F-MIX0 and M-MIX0 are never held; they give X[s].lo the value
SX(X[s].lo, X[s].hi) and leave X[s].hi, the bank and all transfer state. Where a word of X[s] holds no value, what is read
for it is the model's free value, and the read is on record (R218; log 1). -/
def Obligations.LowHalfMicroSteps : Prop :=
  ∀ (m : Micro) (room : Bool) (h : BitVec 1) (s : LaneId) (l : Lane),
    (m = .bMix0 ∨ m = .fMix0 ∨ m = .mMix0 ∨ (m = .sExec ∧ h = 0)) →
    ∃ l', runMicro m room h s l = some l' ∧
      (∀ w : Fin 16, l'.x[w.val] = some (sx (lo (readBlock s l)) (hi (readBlock s l)))[w]) ∧
      (∀ w : Fin 16, l'.x[w.val + 16] = l.x[w.val + 16]) ∧
      (∀ b, l.x = held b → l'.x = held (ofHalves (sx (lo b) (hi b)) (hi b))) ∧
      (l'.unwritten = true ↔ l.unwritten = true ∨ ∃ w : Fin 32, l.x[w] = none) ∧
      l'.pr = l.pr ∧ l'.pw = l.pw ∧ l'.v = l.v

/-- R110, R138, R142, R188: S-EXEC with h = 1, B-MIX1, F-MIX1 and M-MIX1 are never held; they give X[s].hi the value
SX(X[s].hi, X[s].lo) and leave X[s].lo, the bank and all transfer state. Where a word of X[s] holds no value, what is read
for it is the model's free value, and the read is on record (R218; log 1). -/
def Obligations.HighHalfMicroSteps : Prop :=
  ∀ (m : Micro) (room : Bool) (h : BitVec 1) (s : LaneId) (l : Lane),
    (m = .bMix1 ∨ m = .fMix1 ∨ m = .mMix1 ∨ (m = .sExec ∧ h = 1)) →
    ∃ l', runMicro m room h s l = some l' ∧
      (∀ w : Fin 16, l'.x[w.val + 16] = some (sx (hi (readBlock s l)) (lo (readBlock s l)))[w]) ∧
      (∀ w : Fin 16, l'.x[w.val] = l.x[w.val]) ∧
      (∀ b, l.x = held b → l'.x = held (ofHalves (lo b) (sx (hi b) (lo b)))) ∧
      (l'.unwritten = true ↔ l.unwritten = true ∨ ∃ w : Fin 32, l.x[w] = none) ∧
      l'.pr = l.pr ∧ l'.pw = l.pw ∧ l'.v = l.v

/-- R60, R136, R76: F-STORE is held exactly while the TE has no room; it issues the write of a snapshot of X[s] to slot i, and
changes neither X[s], nor the bank, nor any other pending write. The TE has room where TE_DEPTH is unbounded, or where the
records in flight over all lanes, every entry of a PW and every PR that is not none, are fewer than it. -/
def Obligations.FStoreIssuesASnapshot : Prop :=
  ∀ (room : Bool) (h : BitVec 1) (s : LaneId) (l : Lane),
    (selected l.seq = some .fStore ↔ l.seq.ph = .fill ∧ l.seq.u = 0) ∧
    (runMicro .fStore room h s l = none ↔ room = false) ∧
    (∀ (st : State) (t : LaneId), selected (st.lane t).seq = some .fStore →
      (enabled (.lane t) st = true ↔
        ∀ d, Config.teDepth = some d →
          ((List.finRange 8).map fun r =>
            (st.lane r).pw.length + if (st.lane r).pr = .empty then 0 else 1).sum < d.val)) ∧
    ∀ l', runMicro .fStore room h s l = some l' →
      l'.seq = { ph := .fill, i := l.seq.i, u := 1 } ∧
      l'.pw.find l.seq.i = some (readBlock s l) ∧
      (∀ k, k ≠ l.seq.i → l'.pw.find k = l.pw.find k) ∧
      (∀ b, l.x = held b → l'.pw.find l.seq.i = some b) ∧
      (l'.unwritten = true ↔ l.unwritten = true ∨ ∃ w : Fin 32, l.x[w] = none) ∧
      l'.x = l.x ∧ l'.v = l.v ∧ l'.pr = l.pr ∧ l'.t = l.t

/-- R61, R66, R139, R76: M-FETCH is taken exactly when the TE has room, no read is in flight and the write of slot
j = INTEGERIFY(X[s]) is complete; it issues the read of slot j and changes neither X[s], nor the bank, nor a pending
write. The TE has room where TE_DEPTH is unbounded, or where the records in flight over all lanes are fewer than it. -/
def Obligations.MFetchWaitsForTheSlotsWrite : Prop :=
  ∀ (room : Bool) (h : BitVec 1) (s : LaneId) (l : Lane) (j : Slot), j = integerify (readWord s l 16) →
    (∀ b, l.x = held b → j.val = b[16].toNat % 1024) ∧
    (selected l.seq = some .mFetch ↔ l.seq.ph = .mix ∧ l.seq.u = 0) ∧
    (∀ l', runMicro .mFetch room h s l = some l' →
      l'.seq = { ph := .mix, i := l.seq.i, u := 1 } ∧ l'.pr = .issued j ∧ l'.x = l.x ∧ l'.t = l.t ∧ l'.pw = l.pw ∧ l'.v = l.v ∧
      (l'.unwritten = true ↔ l.unwritten = true ∨ l.x[16] = none)) ∧
    ((∃ l', runMicro .mFetch room h s l = some l') ↔ room = true ∧ l.pr = .empty ∧ l.pw.find j = none) ∧
    ∀ (st : State) (t : LaneId), selected (st.lane t).seq = some .mFetch →
      (enabled (.lane t) st = true ↔
        (∀ d, Config.teDepth = some d →
          ((List.finRange 8).map fun r =>
            (st.lane r).pw.length + if (st.lane r).pr = .empty then 0 else 1).sum < d.val) ∧
        (st.lane t).pr = .empty ∧ (st.lane t).pw.find (integerify (readWord t (st.lane t) 16)) = none)

/-- R64, R140: M-XOR is taken exactly when the lane's read has been performed; it xors the fetched Block into all 32 words of
X[s], consumes the read, and changes neither the bank nor a pending write. -/
def Obligations.MXorWaitsForTheData : Prop :=
  ∀ (room : Bool) (h : BitVec 1) (s : LaneId) (l : Lane),
    (selected l.seq = some .mXor ↔ l.seq.ph = .mix ∧ l.seq.u = 1) ∧
    ((∃ l', runMicro .mXor room h s l = some l') ↔ ∃ j d, l.pr = .performed j d) ∧
    ∀ l' j d, l.pr = .performed j d → runMicro .mXor room h s l = some l' →
      l'.seq = { ph := .mix, i := l.seq.i, u := 2 } ∧
      (∀ w : Fin 32, l'.x[w] = some ((readBlock s l)[w] ^^^ d[w])) ∧
      (∀ b, l.x = held b → ∀ w : Fin 32, l'.x[w] = some (b[w] ^^^ d[w])) ∧
      (l'.unwritten = true ↔ l.unwritten = true ∨ ∃ w : Fin 32, l.x[w] = none) ∧
      l'.pr = .empty ∧ l'.pw = l.pw ∧ l'.v = l.v

/-- R71, R143: L-DRAIN is taken exactly when the lane has no transfer in flight, and only makes the lane idle. -/
def Obligations.LDrainWaitsForAllTransfers : Prop :=
  ∀ (room : Bool) (h : BitVec 1) (s : LaneId) (l : Lane),
    (selected l.seq = some .lDrain ↔ l.seq.ph = .drain) ∧
    ((∃ l', runMicro .lDrain room h s l = some l') ↔ l.pw = [] ∧ l.pr = .empty) ∧
    ∀ l', runMicro .lDrain room h s l = some l' → l' = { l with seq := { ph := .idle, i := 0, u := 0 } }

/-! ### The transfer engine and the sequencer -/

/-- R62: TE write-perform of any entry of PW[t]: V[t][j] is the entry's Block, j leaves PW[t], every byte outside the slot's 128
reads as before, and nothing else changes. -/
def Obligations.TeWritePerform : Prop :=
  ∀ (s : State) (t : LaneId) (j : Slot) (d : Block), (s.lane t).pw.find j = some d →
    enabled (.teWrite t j) s = true ∧
    ∃ u, perform (.teWrite t j) s = .next u ∧
      u = { s with lanes := u.lanes } ∧ (∀ r, r ≠ t → u.lane r = s.lane r) ∧
      u.lane t = { s.lane t with v := (u.lane t).v, pw := (u.lane t).pw } ∧
      (u.lane t).v.readSlot j = some d ∧
      (∀ a, ¬(slotAddr j ≤ a ∧ a < slotAddr j + 128) → (u.lane t).v.read a = (s.lane t).v.read a) ∧
      (u.lane t).pw.find j = none ∧ ∀ k, k ≠ j → (u.lane t).pw.find k = (s.lane t).pw.find k

/-- R63, R218: TE read-perform gives PR[t] the Block that slot j holds and changes nothing else; where the slot holds no value
it is the model fault UNWRITTEN, which no state that meets the invariant comes to (R146). -/
def Obligations.TeReadPerform : Prop :=
  ∀ (s : State) (t : LaneId) (j : Slot), (s.lane t).pr = .issued j →
    enabled (.teRead t) s = true ∧
    (∀ d, (s.lane t).v.readSlot j = some d →
      ∃ u, perform (.teRead t) s = .next u ∧ u = { s with lanes := u.lanes } ∧
        u.lane t = { s.lane t with pr := .performed j d } ∧ ∀ r, r ≠ t → u.lane r = s.lane r) ∧
    ((s.lane t).v.readSlot j = none → perform (.teRead t) s = .fault (.unwritten t j)) ∧
    (s.Inv → ∃ d, (s.lane t).v.readSlot j = some d)

/-- R67: the TE may perform the pending writes of a lane in either order, to the same state. -/
def Obligations.PendingWritesPerformInAnyOrder : Prop :=
  ∀ (s a a' b b' : State) (t : LaneId) (i j : Slot), s.Inv → i ≠ j →
    perform (.teWrite t i) s = .next a → perform (.teWrite t j) a = .next b →
    perform (.teWrite t j) s = .next a' → perform (.teWrite t i) a' = .next b' → b = b'

/-- R189: C-DONE is enabled exactly when BUSY = 1 and every lane is IDLE; it clears BUSY, sets DONE, and changes nothing else.
In a state that meets the invariant nothing is in flight then. -/
def Obligations.CompletionStep : Prop :=
  ∀ s : State,
    (enabled .cDone s = true ↔ s.status.busy = true ∧ ∀ t, (s.lane t).seq.ph = .idle) ∧
    (enabled .cDone s = true →
      perform .cDone s = .next { s with status := { s.status with busy := false, done := true } }) ∧
    (s.Inv → enabled .cDone s = true → ∀ t, (s.lane t).pw = [] ∧ (s.lane t).pr = .empty)

/-! ### Lanes apart -/

/-- R20, R36: the ownership table. Whatever one step changes of a lane or of the control registers, it is a step of the agent
that owns it, or a RESET. -/
def Obligations.OwnershipOfState : Prop :=
  ∀ (a : Action) (s u : State), perform a s = .next u → a.isReset s = false →
    (∀ t, (u.lane t).x ≠ (s.lane t).x → a = .lane t ∨ (a = .host ∧ s.status.busy = false)) ∧
    (∀ t, (u.lane t).t ≠ (s.lane t).t → a = .lane t) ∧
    (∀ t, (u.lane t).pw ≠ (s.lane t).pw → a = .lane t ∨ ∃ j, a = .teWrite t j) ∧
    (∀ t, (u.lane t).pr ≠ (s.lane t).pr → a = .lane t ∨ a = .teRead t) ∧
    (∀ t, (u.lane t).v ≠ (s.lane t).v → ∃ j, a = .teWrite t j) ∧
    (∀ t, (u.lane t).seq ≠ (s.lane t).seq → a = .lane t ∨ (a = .host ∧ s.status.busy = false)) ∧
    (u.cur ≠ s.cur → a = .host ∧ s.status.busy = false) ∧
    (u.status ≠ s.status → a = .cDone ∨ (a = .host ∧ s.status.busy = false))

/-- R70: what a micro-step of lane t makes of its lane depends on that lane alone, but for `CUR.H` and the TE's room: two
machines that agree on these give the same lane, whatever every other lane holds. -/
def Obligations.LaneStepReadsItsLaneOnly : Prop :=
  ∀ (s1 s2 u1 u2 : State) (t : LaneId),
    s1.lane t = s2.lane t → s1.cur.h = s2.cur.h → s1.teRoom = s2.teRoom →
    perform (.lane t) s1 = .next u1 → perform (.lane t) s2 = .next u2 → u1.lane t = u2.lane t

/-- R70, R243: steps of different lanes commute: where both orders are enabled, they end in the same state. -/
def Obligations.LaneStepsCommute : Prop :=
  ∀ (s a a' b b' : State) (p q : LaneId), p ≠ q →
    enabled (.lane p) s = true → perform (.lane p) s = .next a →
    enabled (.lane q) a = true → perform (.lane q) a = .next b →
    enabled (.lane q) s = true → perform (.lane q) s = .next a' →
    enabled (.lane p) a' = true → perform (.lane p) a' = .next b' → b = b'

/-! ### The host -/

/-- R51, R53: the host map, location by location; in XWIN the lane is a[7:5] and the word a[4:0]. -/
def Obligations.HostMap : Prop :=
  ∀ a : HostAddr,
    (hostLoc a = .cmd ↔ a.toNat = 0) ∧ (hostLoc a = .status ↔ a.toNat = 1) ∧
    (hostLoc a = .unmapped ↔ 2 ≤ a.toNat ∧ a.toNat ≤ 0xFF) ∧
    (∀ (s : LaneId) (w : Fin 32), hostLoc a = .xwin s w ↔ a.toNat = 0x100 + 32 * s.val + w.val) ∧
    ∀ (s : LaneId) (w : Fin 32), hostLoc a = .xwin s w →
      s.val = (a.extractLsb' 5 3).toNat ∧ w.val = (a.extractLsb' 0 5).toNat ∧ xwinAddr s w = a

/-- R183: the STATUS read is enabled in every state, returns FAULT, DONE and BUSY in bits 3:2, 1 and 0 and zeros above, and has
no other effect. In a state that meets the invariant it can return seven values only. -/
def Obligations.StatusReadAnswers : Prop :=
  (∀ s : State, s.Inv → statusWord s.status ∈ ([0x0, 0x1, 0x2, 0x4, 0x6, 0x8, 0xA] : List Word)) ∧
  ∀ (s : State) (rest : List HostAction), s.script = .hrd 0x001 :: rest →
    enabled .host s = true ∧
    ∃ v : Word, v = statusWord s.status ∧
      perform .host s = .next { s with script := rest, reads := { addr := 0x001, value := v } :: s.reads } ∧
      v.extractLsb' 4 28 = 0 ∧ v.extractLsb' 0 1 = BitVec.ofBool s.status.busy ∧
      v.extractLsb' 1 1 = BitVec.ofBool s.status.done ∧
      v.extractLsb' 2 2 = (match s.status.fault with | none => 0 | some .illCmd => 1 | some .badAddr => 2)

/-- R181: while BUSY = 1 every host read but that of STATUS, and every host write, is held: not enabled, nothing changes; with
BUSY = 0 it is enabled. The STATUS read, RESET and the STATUS polls of WAIT are never held. A RESET the host wants beside its
script is enabled in every state, taking it leaves one fewer, and no other step takes one away, so each of them may come at
any moment (that they are a number in the state is the model's form of the host, log 4). -/
def Obligations.HostHeldWhileBusy : Prop :=
  (∀ (s : State) (n : Nat), s.resets = n + 1 →
    enabled .reset s = true ∧ ∃ u, perform .reset s = .next u ∧ u.resets = n ∧ u.script = s.script) ∧
  (∀ (a : Action) (s u : State), perform a s = .next u → a ≠ .reset → u.resets = s.resets) ∧
  ∀ (s : State) (a : HostAction) (rest : List HostAction), s.script = a :: rest →
    (s.status.busy = false → enabled .host s = true) ∧
    (s.status.busy = true → ∀ (adr : HostAddr) (v : Word),
      (a = .hwr adr v ∨ (a = .hrd adr ∧ adr ≠ 0x001)) → enabled .host s = false ∧ perform .host s = .next s) ∧
    match a with
    | .hrd adr => adr = 0x001 → enabled .host s = true
    | .hwr _ _ => True
    | .reset => enabled .host s = true
    | .wait => enabled .host s = true

/-- R88, R183: WAIT is never held and reads STATUS; while the value read has bit 0 set it stays the host's next action, else it
is over. Nothing of CORE changes. That it stays in the script, one poll a step, is the model's form of the repetition
(log 12). -/
def Obligations.WaitPollsStatus : Prop :=
  ∀ (s : State) (rest : List HostAction), s.script = .wait :: rest →
    enabled .host s = true ∧
    ∃ v : Word, v = statusWord s.status ∧
      perform .host s =
        .next { s with
                script := if v.extractLsb' 0 1 = 1 then .wait :: rest else rest
                reads := { addr := 0x001, value := v } :: s.reads } ∧
      v.extractLsb' 4 28 = 0 ∧ v.extractLsb' 0 1 = BitVec.ofBool s.status.busy ∧
      v.extractLsb' 1 1 = BitVec.ofBool s.status.done ∧
      v.extractLsb' 2 2 = (match s.status.fault with | none => 0 | some .illCmd => 1 | some .badAddr => 2)

/-- R184: a host write of a Block register word is read back, leaves every other word of every lane and everything else of
CORE, and the read has no effect. -/
def Obligations.XwinWriteThenRead : Prop :=
  ∀ (s : State) (t : LaneId) (w : Fin 32) (v : Word) (rest : List HostAction), s.ready →
    s.script = .hwr (xwinAddr t w) v :: .hrd (xwinAddr t w) :: rest →
    ∃ a, perform .host s = .next a ∧ a = { s with lanes := a.lanes, script := .hrd (xwinAddr t w) :: rest } ∧
      (∀ r, r ≠ t → a.lane r = s.lane r) ∧ a.lane t = { s.lane t with x := (s.lane t).x.set w (some v) } ∧
      perform .host a = .next { a with script := rest, reads := { addr := xwinAddr t w, value := v } :: a.reads }

/-- R33, R184: a host read of a Block register word that holds no value is answered and changes nothing of CORE; the answer is
any value (the model's free value, log 5). -/
def Obligations.UnwrittenWordReadAnswers : Prop :=
  ∀ (s : State) (t : LaneId) (w : Fin 32) (rest : List HostAction), s.ready → (s.lane t).x[w] = none →
    s.script = .hrd (xwinAddr t w) :: rest →
    ∃ v : Word, perform .host s =
      .next { s with
              script := rest
              reads := { addr := xwinAddr t w, value := v } :: s.reads
              hostDraws := s.hostDraws + 1 }

/-! ### Faults -/

/-- R202, R207: a taken host write of an illegal word to CMD latches ILLCMD; no lane state, CUR, BUSY or DONE changes. -/
def Obligations.IllegalCommandLatches : Prop :=
  ∀ (s : State) (w : Word) (e : DecodeError) (rest : List HostAction), s.ready → decode w = .error e →
    s.script = .hwr 0x000 w :: rest →
    perform .host s = .next { s with script := rest, status := { s.status with fault := some .illCmd } }

/-- R203, R207: a taken host access that is not in the map latches BADADDR; a write changes nothing else, a read returns any
value. -/
def Obligations.BadAddressLatches : Prop :=
  ∀ (s : State) (a : HostAddr) (rest : List HostAction), s.ready →
    (∀ v : Word, (a.toNat = 1 ∨ (2 ≤ a.toNat ∧ a.toNat ≤ 0xFF)) → s.script = .hwr a v :: rest →
      perform .host s = .next { s with script := rest, status := { s.status with fault := some .badAddr } }) ∧
    ((a.toNat = 0 ∨ (2 ≤ a.toNat ∧ a.toNat ≤ 0xFF)) → s.script = .hrd a :: rest →
      ∃ v : Word, perform .host s =
        .next { s with
                script := rest
                status := { s.status with fault := some .badAddr }
                reads := { addr := a, value := v } :: s.reads
                hostDraws := s.hostDraws + 1 })

/-- R208: in the faulted state the STATUS read works as always, every host write is discarded, every other read returns any
value and changes nothing of CORE (so no fault is raised or changed), no step of a lane, the TE or SEQ is enabled, and a run
has not ended well. -/
def Obligations.FaultedStateDiscards : Prop :=
  ∀ s : State, s.Inv → s.status.fault ≠ none →
    (∀ (a : HostAddr) (v : Word) (rest : List HostAction), s.script = .hwr a v :: rest →
      perform .host s = .next { s with script := rest }) ∧
    (∀ (a : HostAddr) (rest : List HostAction), a ≠ 0x001 → s.script = .hrd a :: rest →
      ∃ v : Word, perform .host s =
        .next { s with
                script := rest
                reads := { addr := a, value := v } :: s.reads
                hostDraws := s.hostDraws + 1 }) ∧
    (∀ rest : List HostAction, s.script = .hrd 0x001 :: rest →
      perform .host s =
        .next { s with script := rest, reads := { addr := 0x001, value := statusWord s.status } :: s.reads }) ∧
    (∀ a : Action, a.isCore = true → enabled a s = false) ∧ ¬ s.endedWell

/-- R204, R206, R208, R209: only a host step raises a fault, the first code stays, and only a RESET clears it. R218, R190, U16 of
93_implementation_defined.md: the record that a lane has read an unwritten word is made by a step of that lane that finds
one, no step takes it back, and a run with it has not ended well; that it outlives a RESET is the model's reading (log 1). -/
def Obligations.OnlyHostRaisesOnlyResetClears : Prop :=
  ∀ (a : Action) (s u : State), perform a s = .next u →
    (s.status.fault = none → u.status.fault ≠ none → a = .host) ∧
    (s.status.fault ≠ none → u.status.fault ≠ s.status.fault → a.isReset s = true ∧ u.status.fault = none) ∧
    ∀ t : LaneId,
      ((s.lane t).unwritten = true → (u.lane t).unwritten = true ∧ ¬ u.endedWell) ∧
      ((s.lane t).unwritten = false → (u.lane t).unwritten = true → a = .lane t ∧ ∃ w : Fin 32, (s.lane t).x[w] = none)

/-- R205, R189: a command once accepted runs to completion unless RESET occurs, and only the write of a legal word to CMD starts
one. -/
def Obligations.BusyStartsAndEnds : Prop :=
  ∀ (a : Action) (s u : State), perform a s = .next u →
    (s.status.busy = true → u.status.busy = false → a = .cDone ∨ a.isReset s = true) ∧
    (s.status.busy = false → u.status.busy = true →
      a = .host ∧ ∃ w rest i, s.script = .hwr 0x000 w :: rest ∧ decode w = .ok i)

/-! ### Reset -/

/-- R34: what the machine holds after reset, and that it then waits for its host. The values of the host's side and of the model's counters are the model's (logs 1,
3, 4, 5) and not stated. -/
def Obligations.StateAfterReset : Prop :=
  (∀ t : LaneId,
    (∀ w : Fin 32, (State.reset.lane t).x[w] = none) ∧ (State.reset.lane t).t = none ∧
    (∀ j : Slot, (State.reset.lane t).v.readSlot j = none) ∧ (∀ j : Slot, (State.reset.lane t).pw.find j = none) ∧
    (State.reset.lane t).pr = .empty ∧ (State.reset.lane t).seq = { ph := .idle, i := 0, u := 0 }) ∧
  State.reset.cur = { op := 0, s := 0, h := 0, lk := 0 } ∧
  State.reset.status = { busy := false, done := false, fault := none } ∧
  (∀ a : Action, a.isCore = true → enabled a State.reset = false) ∧ step State.reset = .next State.reset

/-- R230, R231, R34: a RESET event, from the script or beside it, is enabled in any state and puts every piece of CORE's state at
its reset value; the host's remaining actions stay, so that a held transaction is taken against the reset state. -/
def Obligations.ResetEventResetsAll : Prop :=
  ∀ (a : Action) (s : State), ((a = .host ∧ s.script.head? = some .reset) ∨ (a = .reset ∧ s.resets ≠ 0)) →
    enabled a s = true ∧
    ∃ u, perform a s = .next u ∧
      (∀ t : LaneId,
        (∀ w : Fin 32, (u.lane t).x[w] = none) ∧ (u.lane t).t = none ∧
        (∀ j : Slot, (u.lane t).v.readSlot j = none) ∧ (u.lane t).pw = [] ∧ (u.lane t).pr = .empty ∧
        (u.lane t).seq = { ph := .idle, i := 0, u := 0 }) ∧
      u.cur = { op := 0, s := 0, h := 0, lk := 0 } ∧ u.status = { busy := false, done := false, fault := none } ∧
      u.script = (if a = .host then s.script.tail else s.script) ∧ u.reads = s.reads

/-! ### The whole machine -/

/-- The invariant holds after reset (R34, R190). -/
def Obligations.InvariantAtReset : Prop := State.reset.Inv

/-- Every step of every agent keeps the invariant, in every state that meets it, and so does the machine's own step: scratchpad
banks and pending writes stay in canonical form; sequencer states stay legal; transfers agree with the phase; with BUSY = 0
all lanes are idle; BUSY is never together with DONE or FAULT (R28, R30, R71, R145, R146, R189). -/
def Obligations.EveryStepKeepsTheInvariant : Prop :=
  (∀ (a : Action) (s u : State), s.Inv → perform a s = .next u → u.Inv) ∧
  ∀ s u : State, s.Inv → step s = .next u → u.Inv

/-- R146: no read meets an unwritten slot. In every state that meets the invariant the machine's step answers a next state: the
model fault is unreachable, and nothing is refused. -/
def Obligations.NoStepFaultsOrRefuses : Prop :=
  ∀ s : State, s.Inv → ∃ u, step s = .next u

/-- R76, R190: a state with BUSY = 1 is never final: some step of a lane, the TE or SEQ is enabled, whatever the TE's depth. -/
def Obligations.BusyIsNeverStuck : Prop :=
  ∀ s : State, s.Inv → s.status.busy = true → ∃ a : Action, a.isCore = true ∧ enabled a s = true

/-- R77, R148: every enabled step of a lane, the TE or SEQ shortens the work left, in every state, so a command takes a bounded
number of them. -/
def Obligations.CoreStepsShortenTheWork : Prop :=
  ∀ (a : Action) (s u : State), a.isCore = true → enabled a s = true → perform a s = .next u → u.work < s.work

/-- R10, R163: the schedule chooses among all enabled steps and no others; the machine's step is the enabled step of some agent
that it chooses; where none is enabled the machine changes nothing. -/
def Obligations.StepIsAnEnabledAction : Prop :=
  ∀ s : State,
    (∀ a, a ∈ s.enabledActions ↔ enabled a s = true) ∧
    (((∀ a, enabled a s = false) ∧ s.chosen = none ∧ step s = .next s) ∨
    ∃ a, s.chosen = some a ∧ enabled a s = true ∧ (step s = perform a s ∨ step s = perform a { s with tick := s.tick + 1 }))
end

