-- ==== Sys2Proof/Laws/State.lean ====
section
/-! SUPPORT. The small lemmas of the state: one per field per update, and reading a lane after one was replaced. -/

namespace Sys2Proof.Machine

/-! ### Lanes -/

@[simp] theorem lane_setLane_same (s : State) (t : LaneId) (l : Lane) : (s.setLane t l).lane t = l := by
  simp [State.lane, State.setLane]

theorem lane_setLane_ne (s : State) {t r : LaneId} (h : r ≠ t) (l : Lane) : (s.setLane t l).lane r = s.lane r := by
  have : t.val ≠ r.val := fun e => h (Fin.ext e.symm)
  simp [State.lane, State.setLane, Vector.getElem_set_ne, this]

theorem lane_setLane (s : State) (t r : LaneId) (l : Lane) :
    (s.setLane t l).lane r = if r = t then l else s.lane r := by
  by_cases h : r = t
  · subst h; simp
  · simp [h, lane_setLane_ne]

@[simp] theorem setLane_cur (s : State) (t : LaneId) (l : Lane) : (s.setLane t l).cur = s.cur := rfl
@[simp] theorem setLane_status (s : State) (t : LaneId) (l : Lane) : (s.setLane t l).status = s.status := rfl
@[simp] theorem setLane_script (s : State) (t : LaneId) (l : Lane) : (s.setLane t l).script = s.script := rfl
@[simp] theorem setLane_resets (s : State) (t : LaneId) (l : Lane) : (s.setLane t l).resets = s.resets := rfl
@[simp] theorem setLane_reads (s : State) (t : LaneId) (l : Lane) : (s.setLane t l).reads = s.reads := rfl
@[simp] theorem setLane_hostDraws (s : State) (t : LaneId) (l : Lane) : (s.setLane t l).hostDraws = s.hostDraws := rfl
@[simp] theorem setLane_tick (s : State) (t : LaneId) (l : Lane) : (s.setLane t l).tick = s.tick := rfl

@[simp] theorem lane_with_script (s : State) (x : List HostAction) (t : LaneId) :
    ({ s with script := x } : State).lane t = s.lane t := rfl
@[simp] theorem lane_with_status (s : State) (x : Status) (t : LaneId) :
    ({ s with status := x } : State).lane t = s.lane t := rfl
@[simp] theorem lane_with_tick (s : State) (x : Nat) (t : LaneId) :
    ({ s with tick := x } : State).lane t = s.lane t := rfl
@[simp] theorem lane_with_resets (s : State) (x : Nat) (t : LaneId) :
    ({ s with resets := x } : State).lane t = s.lane t := rfl

/-- Two machines with the same lanes, lane by lane, have the same lanes. -/
theorem lanes_ext {s u : State} (h : ∀ t, s.lane t = u.lane t) : s.lanes = u.lanes := by
  apply Vector.ext
  intro i hi
  exact h ⟨i, hi⟩

/-- Replacing different lanes in either order gives the same machine. -/
theorem setLane_comm (s : State) {p q : LaneId} (h : p ≠ q) (l m : Lane) :
    (s.setLane p l).setLane q m = (s.setLane q m).setLane p l := by
  have : ((s.setLane p l).setLane q m).lanes = ((s.setLane q m).setLane p l).lanes := by
    apply lanes_ext
    intro t
    simp only [lane_setLane]
    split <;> split <;> simp_all
  simp only [State.setLane] at this ⊢
  rw [this]

@[simp] theorem lane_reset (t : LaneId) : State.reset.lane t = Lane.reset := by
  simp [State.lane, State.reset]

/-! ### `STATUS` -/

@[simp] theorem accept_busy (st : Status) : st.accept.busy = true := rfl
@[simp] theorem accept_done (st : Status) : st.accept.done = false := rfl
@[simp] theorem accept_fault (st : Status) : st.accept.fault = st.fault := rfl
@[simp] theorem complete_busy (st : Status) : st.complete.busy = false := rfl
@[simp] theorem complete_done (st : Status) : st.complete.done = true := rfl
@[simp] theorem complete_fault (st : Status) : st.complete.fault = st.fault := rfl
@[simp] theorem latch_busy (st : Status) (c : FaultCode) : (st.latch c).busy = st.busy := rfl
@[simp] theorem latch_done (st : Status) (c : FaultCode) : (st.latch c).done = st.done := rfl
@[simp] theorem latch_fault (st : Status) (c : FaultCode) : (st.latch c).fault = some c := rfl

/-! ### The books of a lane's reads (R218) -/

@[simp] theorem sawBlock_x (l : Lane) : l.sawBlock.x = l.x := rfl
@[simp] theorem sawBlock_t (l : Lane) : l.sawBlock.t = l.t := rfl
@[simp] theorem sawBlock_pr (l : Lane) : l.sawBlock.pr = l.pr := rfl
@[simp] theorem sawBlock_pw (l : Lane) : l.sawBlock.pw = l.pw := rfl
@[simp] theorem sawBlock_v (l : Lane) : l.sawBlock.v = l.v := rfl
@[simp] theorem sawBlock_seq (l : Lane) : l.sawBlock.seq = l.seq := rfl
@[simp] theorem sawBlock_draws (l : Lane) : l.sawBlock.draws = l.draws + 1 := rfl
@[simp] theorem sawBlock_unwritten (l : Lane) : l.sawBlock.unwritten = (l.unwritten || l.missing) := rfl
@[simp] theorem sawWord_x (l : Lane) (w : Fin 32) : (l.sawWord w).x = l.x := rfl
@[simp] theorem sawWord_t (l : Lane) (w : Fin 32) : (l.sawWord w).t = l.t := rfl
@[simp] theorem sawWord_pr (l : Lane) (w : Fin 32) : (l.sawWord w).pr = l.pr := rfl
@[simp] theorem sawWord_pw (l : Lane) (w : Fin 32) : (l.sawWord w).pw = l.pw := rfl
@[simp] theorem sawWord_v (l : Lane) (w : Fin 32) : (l.sawWord w).v = l.v := rfl
@[simp] theorem sawWord_seq (l : Lane) (w : Fin 32) : (l.sawWord w).seq = l.seq := rfl
@[simp] theorem sawWord_draws (l : Lane) (w : Fin 32) : (l.sawWord w).draws = l.draws + 1 := rfl
@[simp] theorem sawWord_unwritten (l : Lane) (w : Fin 32) :
    (l.sawWord w).unwritten = (l.unwritten || l.x[w].isNone) := rfl

theorem missing_iff (l : Lane) : l.missing = true ↔ ∃ w : Fin 32, l.x[w] = none := by
  simp [Lane.missing]

/-! ### What an SX evaluation leaves of its lane -/

@[simp] theorem mixLo_draws (s : LaneId) (l : Lane) : (l.mixLo s).draws = l.draws + 1 := by
  simp [Lane.mixLo, Lane.putLo]
@[simp] theorem mixHi_draws (s : LaneId) (l : Lane) : (l.mixHi s).draws = l.draws + 1 := by
  simp [Lane.mixHi, Lane.putHi]
@[simp] theorem mixLo_unwritten (s : LaneId) (l : Lane) : (l.mixLo s).unwritten = (l.unwritten || l.missing) := by
  simp [Lane.mixLo, Lane.putLo]
@[simp] theorem mixHi_unwritten (s : LaneId) (l : Lane) : (l.mixHi s).unwritten = (l.unwritten || l.missing) := by
  simp [Lane.mixHi, Lane.putHi]

@[simp] theorem mixLo_pr (s : LaneId) (l : Lane) : (l.mixLo s).pr = l.pr := by
  simp [Lane.mixLo, Lane.putLo]
@[simp] theorem mixLo_pw (s : LaneId) (l : Lane) : (l.mixLo s).pw = l.pw := by
  simp [Lane.mixLo, Lane.putLo]
@[simp] theorem mixLo_v (s : LaneId) (l : Lane) : (l.mixLo s).v = l.v := by
  simp [Lane.mixLo, Lane.putLo]
@[simp] theorem mixLo_seq (s : LaneId) (l : Lane) : (l.mixLo s).seq = l.seq := by
  simp [Lane.mixLo, Lane.putLo]
@[simp] theorem mixHi_pr (s : LaneId) (l : Lane) : (l.mixHi s).pr = l.pr := by
  simp [Lane.mixHi, Lane.putHi]
@[simp] theorem mixHi_pw (s : LaneId) (l : Lane) : (l.mixHi s).pw = l.pw := by
  simp [Lane.mixHi, Lane.putHi]
@[simp] theorem mixHi_v (s : LaneId) (l : Lane) : (l.mixHi s).v = l.v := by
  simp [Lane.mixHi, Lane.putHi]
@[simp] theorem mixHi_seq (s : LaneId) (l : Lane) : (l.mixHi s).seq = l.seq := by
  simp [Lane.mixHi, Lane.putHi]

/-! ### Halves and Blocks, word by word -/

@[simp] theorem lo_getElem (b : Block) (w : Nat) (h : w < 16) : (lo b)[w] = b[w] := by simp [lo]
@[simp] theorem hi_getElem (b : Block) (w : Nat) (h : w < 16) : (hi b)[w] = b[w + 16] := by simp [hi]

theorem ofHalves_getElem (l h : Half) (w : Nat) (hw : w < 32) :
    (ofHalves l h)[w] = if h' : w < 16 then l[w] else h[w - 16] := by simp [ofHalves]

@[simp] theorem lo_ofHalves (l h : Half) : lo (ofHalves l h) = l := by
  apply Vector.ext
  intro i hi
  simp [ofHalves_getElem, hi]

@[simp] theorem hi_ofHalves (l h : Half) : hi (ofHalves l h) = h := by
  apply Vector.ext
  intro i hi
  simp [ofHalves_getElem]

@[simp] theorem ofHalves_lo_hi (b : Block) : ofHalves (lo b) (hi b) = b := by
  apply Vector.ext
  intro i hi
  rw [ofHalves_getElem]
  split
  · simp
  · rename_i h
    simp only [hi_getElem]
    congr 1
    omega

@[simp] theorem held_getElem (b : Block) (w : Nat) (h : w < 32) : (held b)[w] = some b[w] := by simp [held]

@[simp] theorem blockXor_getElem (a b : Block) (w : Nat) (h : w < 32) : (blockXor a b)[w] = a[w] ^^^ b[w] := by
  simp [blockXor]

@[simp] theorem halfXor_getElem (a b : Half) (w : Nat) (h : w < 16) : (halfXor a b)[w] = a[w] ^^^ b[w] := by
  simp [halfXor]

@[simp] theorem halfAdd_getElem (a b : Half) (w : Nat) (h : w < 16) : (halfAdd a b)[w] = a[w] + b[w] := by
  simp [halfAdd]

@[simp] theorem readBlock_getElem (s : LaneId) (l : Lane) (w : Nat) (h : w < 32) :
    (readBlock s l)[w] = readWord s l ⟨w, h⟩ := by
  simp [readBlock]

/-- A Block register all of whose words are written misses none. -/
theorem missing_held {l : Lane} {b : Block} (h : l.x = held b) : l.missing = false := by
  rw [Bool.eq_false_iff, Ne, missing_iff]
  rintro ⟨w, hw⟩
  simp [h] at hw

/-- A Block register all of whose words are written is read as it is. -/
theorem readBlock_held {s : LaneId} {l : Lane} {b : Block} (h : l.x = held b) : readBlock s l = b := by
  apply Vector.ext
  intro i hi
  simp [readBlock, readWord, h]

theorem readWord_held {s : LaneId} {l : Lane} {b : Block} (h : l.x = held b) (w : Fin 32) :
    readWord s l w = b[w] := by
  simp [readWord, h]

/-- The low half takes SX of the halves, the high half stays. -/
theorem mixLo_x_lo (s : LaneId) (l : Lane) (w : Nat) (h : w < 16) :
    (l.mixLo s).x[w] = some (sx (lo (readBlock s l)) (hi (readBlock s l)))[w] := by
  simp [Lane.mixLo, Lane.putLo, h]

theorem mixLo_x_hi (s : LaneId) (l : Lane) (w : Nat) (h : w < 16) : (l.mixLo s).x[w + 16] = l.x[w + 16] := by
  simp [Lane.mixLo, Lane.putLo]

/-- The high half takes SX of the halves, the low half stays. -/
theorem mixHi_x_hi (s : LaneId) (l : Lane) (w : Nat) (h : w < 16) :
    (l.mixHi s).x[w + 16] = some (sx (hi (readBlock s l)) (lo (readBlock s l)))[w] := by
  simp [Lane.mixHi, Lane.putHi]

theorem mixHi_x_lo (s : LaneId) (l : Lane) (w : Nat) (h : w < 16) : (l.mixHi s).x[w] = l.x[w] := by
  simp [Lane.mixHi, Lane.putHi, h]

theorem mixLo_x_held {s : LaneId} {l : Lane} {b : Block} (h : l.x = held b) :
    (l.mixLo s).x = held (ofHalves (sx (lo b) (hi b)) (hi b)) := by
  apply Vector.ext
  intro i hi
  simp only [Lane.mixLo, Lane.putLo, readBlock_held h, sawBlock_x, Vector.getElem_ofFn, held_getElem, ofHalves_getElem, h]
  split
  · rfl
  · rename_i h16
    simp
    congr 1
    omega

theorem mixHi_x_held {s : LaneId} {l : Lane} {b : Block} (h : l.x = held b) :
    (l.mixHi s).x = held (ofHalves (lo b) (sx (hi b) (lo b))) := by
  apply Vector.ext
  intro i hi
  simp only [Lane.mixHi, Lane.putHi, readBlock_held h, sawBlock_x, Vector.getElem_ofFn, held_getElem, ofHalves_getElem, h]
  split
  · simp
  · rfl

end Sys2Proof.Machine
end

