-- ==== Sys2Proof/Laws/Memory.lean ====
section
/-! SUPPORT. The laws of a scratchpad bank and of the pending-write map: read after write, a write leaves every other place
alone, every operation keeps the canonical form; the byte view of a Block. -/

namespace Sys2Proof.Machine

/-! ### Bytes of a bank -/

theorem read_write_same (m : Memory) (a : Nat) (b : Byte) : (m.write a b).read a = some b := by
  induction m with
  | nil => simp [Memory.write, Memory.read]
  | cons c m ih =>
    simp only [Memory.write]
    split
    · simp [Memory.read]
    · split
      · simp [Memory.read]
      · have : c.1 ≠ a := by omega
        simp [Memory.read, this, ih]

theorem read_write_ne (m : Memory) {a a' : Nat} (h : a' ≠ a) (b : Byte) : (m.write a b).read a' = m.read a' := by
  induction m with
  | nil => simp [Memory.write, Memory.read, h.symm]
  | cons c m ih =>
    simp only [Memory.write]
    split
    · simp [Memory.read, h.symm]
    · split
      · rename_i e
        simp [Memory.read, h.symm, ← e]
      · simp [Memory.read, ih]

theorem mem_write {m : Memory} {a : Nat} {b : Byte} {c : Host.Cell} (h : c ∈ m.write a b) : c = (a, b) ∨ c ∈ m := by
  induction m with
  | nil => simpa [Memory.write] using h
  | cons d m ih =>
    simp only [Memory.write] at h
    split at h
    · simpa using h
    · split at h
      · simp only [List.mem_cons] at h ⊢
        tauto
      · simp only [List.mem_cons] at h ⊢
        rcases h with h | h
        · tauto
        · rcases ih h with h | h <;> tauto

/-- Storing a byte inside the bank keeps the canonical form. -/
theorem wf_write {m : Memory} (hm : m.wf) {a : Nat} (ha : a < Config.vBytes) (b : Byte) : (m.write a b).wf := by
  refine ⟨?_, fun c hc => ?_⟩
  · obtain ⟨hp, -⟩ := hm
    induction m with
    | nil => simp [Memory.write]
    | cons d m ih =>
      rw [List.pairwise_cons] at hp
      simp only [Memory.write]
      split
      · rename_i hlt
        rw [List.pairwise_cons]
        refine ⟨fun c hc => ?_, List.pairwise_cons.2 hp⟩
        rcases List.mem_cons.1 hc with rfl | hc
        · exact hlt
        · exact Nat.lt_trans hlt (hp.1 c hc)
      · split
        · rename_i e
          rw [List.pairwise_cons]
          exact ⟨fun c hc => by simpa [e] using hp.1 c hc, hp.2⟩
        · rw [List.pairwise_cons]
          refine ⟨fun c hc => ?_, ih hp.2⟩
          rcases mem_write hc with rfl | hc
          · dsimp only
            omega
          · exact hp.1 c hc
  · rcases mem_write hc with rfl | hc
    · exact ha
    · exact hm.2 c hc

theorem read_writeBytes_out (bs : List Byte) (m : Memory) (a a' : Nat) (h : ¬(a ≤ a' ∧ a' < a + bs.length)) :
    (m.writeBytes a bs).read a' = m.read a' := by
  induction bs generalizing m a with
  | nil => rfl
  | cons b bs ih =>
    simp only [Memory.writeBytes, List.length_cons] at h ⊢
    rw [ih _ _ (by omega), read_write_ne _ (by omega)]

theorem read_writeBytes_in (bs : List Byte) (m : Memory) (a n : Nat) (h : n < bs.length) :
    (m.writeBytes a bs).read (a + n) = some bs[n] := by
  induction bs generalizing m a n with
  | nil => simp at h
  | cons b bs ih =>
    simp only [Memory.writeBytes]
    cases n with
    | zero => rw [read_writeBytes_out _ _ _ _ (by omega)]; simp [read_write_same]
    | succ n =>
      have := ih (m.write a b) (a + 1) n (by simpa using h)
      rw [show a + (n + 1) = a + 1 + n by omega, this]
      simp

theorem wf_writeBytes (bs : List Byte) {m : Memory} (hm : m.wf) (a : Nat) (h : a + bs.length ≤ Config.vBytes) :
    (m.writeBytes a bs).wf := by
  induction bs generalizing m a with
  | nil => exact hm
  | cons b bs ih =>
    simp only [List.length_cons] at h
    exact ih (wf_write hm (by omega) b) _ (by omega)

/-! ### The byte view of a Block -/

theorem wordOfBytes_extract (w : Word) :
    wordOfBytes (w.extractLsb' 0 8) (w.extractLsb' 8 8) (w.extractLsb' 16 8) (w.extractLsb' 24 8) = w := by
  apply BitVec.eq_of_getLsbD_eq
  intro i hi
  simp only [wordOfBytes, BitVec.getLsbD_append, BitVec.getLsbD_extractLsb']
  by_cases h1 : i < 8
  · simp [h1]
  · by_cases h2 : i < 16
    · simp [h1, show i - 8 < 8 by omega, show 8 + (i - 8) = i by omega]
    · by_cases h3 : i < 24
      · simp [h1, show ¬ i - 8 < 8 by omega, show i - 8 - 8 < 8 by omega, show 16 + (i - 8 - 8) = i by omega]
      · simp [h1, show ¬ i - 8 < 8 by omega, show ¬ i - 8 - 8 < 8 by omega, show i - 8 - 8 - 8 < 8 by omega,
          show 24 + (i - 8 - 8 - 8) = i by omega]

@[simp] theorem blockBytes_length (b : Block) : (blockBytes b).length = 128 := by
  simp only [blockBytes, List.length_ofFn]

theorem blockBytes_getElem (b : Block) (n : Nat) (h : n < 128) :
    (blockBytes b)[n]'(by rwa [blockBytes_length]) = blockByte b ⟨n, h⟩ := by
  simp only [blockBytes, List.getElem_ofFn]

/-! ### Slots -/

theorem slotAddr_add_lt (j : Slot) : slotAddr j + 128 ≤ Config.vBytes := by
  have := j.isLt
  simp only [slotAddr, Config.vBytes]
  omega

/-- A slot write keeps the canonical form. -/
theorem wf_writeSlot {m : Memory} (hm : m.wf) (j : Slot) (d : Block) : (m.writeSlot j d).wf := by
  unfold Memory.writeSlot
  refine wf_writeBytes (blockBytes d) hm (slotAddr j) ?_
  rw [blockBytes_length]
  exact slotAddr_add_lt j

theorem read_writeSlot_in (m : Memory) (j : Slot) (d : Block) (n : Fin 128) :
    (m.writeSlot j d).read (slotAddr j + n.val) = some (blockByte d n) := by
  have h : n.val < (blockBytes d).length := by rw [blockBytes_length]; exact n.isLt
  rw [Memory.writeSlot, read_writeBytes_in (blockBytes d) m (slotAddr j) n.val h, blockBytes_getElem d n.val n.isLt]

theorem read_writeSlot_out (m : Memory) (j : Slot) (d : Block) {a : Nat}
    (h : ¬(slotAddr j ≤ a ∧ a < slotAddr j + 128)) : (m.writeSlot j d).read a = m.read a := by
  unfold Memory.writeSlot
  refine read_writeBytes_out (blockBytes d) m (slotAddr j) a ?_
  rwa [blockBytes_length]

/-- A slot holds a value exactly when every byte of it reads as one. -/
theorem holds_iff {m : Memory} {j : Slot} :
    m.holds j = true ↔ ∀ n : Fin 128, (m.read (slotAddr j + n.val)).isSome := by
  simp [Memory.holds]

theorem holds_iff_readSlot {m : Memory} {j : Slot} : m.holds j = true ↔ ∃ d, m.readSlot j = some d := by
  simp only [Memory.readSlot]
  split <;> simp_all

theorem holds_writeSlot_same (m : Memory) (j : Slot) (d : Block) : (m.writeSlot j d).holds j = true :=
  holds_iff.2 fun n => by simp [read_writeSlot_in]

theorem read_writeSlot_other (m : Memory) {j k : Slot} (h : k ≠ j) (d : Block) (n : Fin 128) :
    (m.writeSlot j d).read (slotAddr k + n.val) = m.read (slotAddr k + n.val) := by
  apply read_writeSlot_out
  have : k.val ≠ j.val := fun e => h (Fin.ext e)
  have := n.isLt
  simp only [slotAddr]
  omega

theorem holds_writeSlot_other (m : Memory) {j k : Slot} (h : k ≠ j) (d : Block) :
    (m.writeSlot j d).holds k = m.holds k := by
  simp only [Memory.holds, read_writeSlot_other m h]

theorem readSlot_writeSlot_other (m : Memory) {j k : Slot} (h : k ≠ j) (d : Block) :
    (m.writeSlot j d).readSlot k = m.readSlot k := by
  simp only [Memory.readSlot, holds_writeSlot_other m h, read_writeSlot_other m h]

/-- Byte 4 w + i of a Block is bits 8 i to 8 i + 7 of word w. -/
theorem blockByte_word (d : Block) (w i : Nat) (hw : w < 32) (hi : i < 4) (h : 4 * w + i < 128) :
    blockByte d ⟨4 * w + i, h⟩ = (d[w]).extractLsb' (8 * i) 8 := by
  have e : (4 * w + i) / 4 = w := by omega
  have e' : (4 * w + i) % 4 = i := by omega
  simp only [blockByte, e, e']

/-- The Block made of the bytes of a Block is that Block. -/
theorem blockOfBytes_blockByte (d : Block) (v : Vector Byte 128)
    (h : ∀ (n : Nat) (hn : n < 128), v[n] = blockByte d ⟨n, hn⟩) : blockOfBytes v = d := by
  apply Vector.ext
  intro w hw
  simp only [blockOfBytes, Vector.getElem_ofFn, h]
  have b0 := blockByte_word d w 0 hw (by omega) (by omega)
  simp only [Nat.add_zero, Nat.mul_zero] at b0
  simp only [b0, blockByte_word d w 1 hw (by omega) (by omega), blockByte_word d w 2 hw (by omega) (by omega),
    blockByte_word d w 3 hw (by omega) (by omega), Nat.reduceMul]
  exact wordOfBytes_extract d[w]

/-- A slot read after the write of that slot gives the Block written. -/
theorem readSlot_writeSlot_same (m : Memory) (j : Slot) (d : Block) : (m.writeSlot j d).readSlot j = some d := by
  simp only [Memory.readSlot, holds_writeSlot_same, if_true, Option.some.injEq]
  apply blockOfBytes_blockByte
  intro n hn
  simp only [Vector.getElem_ofFn, read_writeSlot_in m j d ⟨n, hn⟩, Option.getD_some]

/-- The bank after reset is in canonical form. -/
theorem wf_reset : Lane.reset.v.wf := by simp [Lane.reset, Memory.wf]

/-! ### The pending-write map -/

theorem find_insert_same (p : PendingWrites) (j : Slot) (d : Block) : (p.insert j d).find j = some d := by
  induction p with
  | nil => simp [PendingWrites.insert, PendingWrites.find]
  | cons e p ih =>
    simp only [PendingWrites.insert]
    split
    · simp [PendingWrites.find]
    · split
      · simp [PendingWrites.find]
      · rename_i h
        simp [PendingWrites.find, Ne.symm h, ih]

theorem find_insert_ne (p : PendingWrites) {j k : Slot} (h : k ≠ j) (d : Block) :
    (p.insert j d).find k = p.find k := by
  induction p with
  | nil => simp [PendingWrites.insert, PendingWrites.find, h.symm]
  | cons e p ih =>
    simp only [PendingWrites.insert]
    split
    · simp [PendingWrites.find, h.symm]
    · split
      · rename_i q
        simp [PendingWrites.find, h.symm, ← q]
      · simp [PendingWrites.find, ih]

@[simp] theorem remove_nil (j : Slot) : PendingWrites.remove [] j = [] := rfl

theorem remove_cons (e : Slot × Block) (p : PendingWrites) (j : Slot) :
    PendingWrites.remove (e :: p) j = if e.1 = j then p.remove j else e :: p.remove j := by
  by_cases h : e.1 = j <;> simp [PendingWrites.remove, h]

theorem find_remove_same (p : PendingWrites) (j : Slot) : (p.remove j).find j = none := by
  induction p with
  | nil => rfl
  | cons e p ih =>
    rw [remove_cons]
    split
    · exact ih
    · rename_i h
      simp [PendingWrites.find, h, ih]

theorem find_remove_ne (p : PendingWrites) {j k : Slot} (h : k ≠ j) : (p.remove j).find k = p.find k := by
  induction p with
  | nil => rfl
  | cons e p ih =>
    rw [remove_cons]
    split
    · rename_i q
      simp [PendingWrites.find, q, h.symm, ih]
    · simp [PendingWrites.find, ih]

theorem length_remove_lt {p : PendingWrites} {j : Slot} {d : Block} (h : p.find j = some d) :
    (p.remove j).length < p.length := by
  induction p with
  | nil => simp [PendingWrites.find] at h
  | cons e p ih =>
    rw [remove_cons]
    split
    · have : (PendingWrites.remove p j).length ≤ p.length := List.length_filter_le _ _
      simp only [List.length_cons]
      omega
    · rename_i q
      simp only [PendingWrites.find, q, if_false] at h
      have := ih h
      simp only [List.length_cons]
      omega

theorem length_insert_le (p : PendingWrites) (j : Slot) (d : Block) : (p.insert j d).length ≤ p.length + 1 := by
  induction p with
  | nil => simp [PendingWrites.insert]
  | cons e p ih =>
    simp only [PendingWrites.insert]
    split
    · simp
    · split
      · simp
      · simpa using ih

theorem mem_insert {p : PendingWrites} {j : Slot} {d : Block} {e : Slot × Block} (h : e ∈ p.insert j d) :
    e = (j, d) ∨ e ∈ p := by
  induction p with
  | nil => simpa [PendingWrites.insert] using h
  | cons f p ih =>
    simp only [PendingWrites.insert] at h
    split at h
    · simpa using h
    · split at h
      · simp only [List.mem_cons] at h ⊢
        tauto
      · simp only [List.mem_cons] at h ⊢
        rcases h with h | h
        · tauto
        · rcases ih h with h | h <;> tauto

/-- Issuing a write keeps the canonical form of the map. -/
theorem wf_insert {p : PendingWrites} (hp : p.wf) (j : Slot) (d : Block) : (p.insert j d).wf := by
  induction p with
  | nil => simp [PendingWrites.insert]
  | cons e p ih =>
    rw [PendingWrites.wf, List.pairwise_cons] at hp
    simp only [PendingWrites.insert, PendingWrites.wf]
    split
    · rename_i hlt
      rw [List.pairwise_cons]
      refine ⟨fun c hc => ?_, List.pairwise_cons.2 hp⟩
      rcases List.mem_cons.1 hc with rfl | hc
      · exact hlt
      · exact lt_trans hlt (hp.1 c hc)
    · split
      · rename_i q
        rw [List.pairwise_cons]
        exact ⟨fun c hc => by simpa [q] using hp.1 c hc, hp.2⟩
      · rename_i h1 h2
        rw [List.pairwise_cons]
        refine ⟨fun c hc => ?_, ih hp.2⟩
        rcases mem_insert hc with rfl | hc
        · exact lt_of_le_of_ne (not_lt.1 h1) (Ne.symm h2)
        · exact hp.1 c hc

/-- Performing a write keeps the canonical form of the map. -/
theorem wf_remove {p : PendingWrites} (hp : p.wf) (j : Slot) : (p.remove j).wf := List.Pairwise.filter _ hp

/-- A map that is not empty has an entry to perform. -/
theorem find_head (e : Slot × Block) (p : PendingWrites) : PendingWrites.find (e :: p) e.1 = some e.2 := by
  simp [PendingWrites.find]

end Sys2Proof.Machine
end

