-- ==== Sys2Proof/Laws/PerInstr.lean ====
section
/-! SUPPORT. Statements for all commands, one lemma per constructor of `Instr`. -/

namespace Sys2Proof.Laws.Opcode

/-- The word of a command selects the command's own row of the opcode table, by that row's mask and match (R83); a term that is
no command has no word (R87). -/
def Statement (i : Instr) : Prop :=
  (encode i).map (fun w => w &&& i.maskWord) = if i.wf then some i.matchWord else none

theorem salsa8x : ∀ (s : LaneId) (h : Fin 2), Statement (.salsa8x s h) := by
  unfold Statement; decide

theorem bmix : ∀ s : LaneId, Statement (.bmix s) := by
  unfold Statement; decide

theorem romix : ∀ s : LaneId, Statement (.romix s) := by
  unfold Statement; decide

theorem romixb (k : Nat) : Statement (.romixb k) := by
  cases h : (Instr.romixb k).wf with
  | false => simp [Statement, encode, h]
  | true =>
    have hk : k = 1 ∨ k = 2 ∨ k = 4 ∨ k = 8 := by
      simpa [Instr.wf, legalWidth, or_assoc] using h
    unfold Statement
    rcases hk with rfl | rfl | rfl | rfl <;> decide +kernel

end Sys2Proof.Laws.Opcode
end

