-- ==== Sys2Proof/Laws/Step.lean ====
section
/-! SUPPORT. What each shared operation and each step can do, said once: the laws later proofs cite instead of unfolding. -/

namespace Sys2Proof.Machine

/-! ### Command accept -/

theorem lane_accept (s : State) (f : Fields) (ph : Phase) (on : LaneId → Bool) (t : LaneId) :
    (s.accept f ph on).lane t =
      if on t then { s.lane t with seq := { ph := ph, i := 0, u := 0 } } else s.lane t := by
  simp [State.accept, State.lane]

theorem submit_busy {s : State} (h : s.status.busy = true) (f : Fields) (ph : Phase) (on : LaneId → Bool) :
    s.submit f ph on = s := by
  simp [State.submit, h]

theorem submit_faulted {s : State} (h : s.status.fault ≠ none) (f : Fields) (ph : Phase) (on : LaneId → Bool) :
    s.submit f ph on = s := by
  obtain ⟨c, hc⟩ := Option.ne_none_iff_exists'.1 h
  simp [State.submit, hc]

theorem submit_ready {s : State} (h : s.ready) (f : Fields) (ph : Phase) (on : LaneId → Bool) :
    s.submit f ph on = s.accept f ph on := by
  simp [State.submit, h.1, h.2]

/-- A command either starts nothing, in a state that is not ready, or is accepted in a ready one. -/
theorem submit_cases (s : State) (f : Fields) (ph : Phase) (on : LaneId → Bool) :
    (¬ s.ready ∧ s.submit f ph on = s) ∨ (s.ready ∧ s.submit f ph on = s.accept f ph on) := by
  by_cases hb : s.status.busy = true
  · exact .inl ⟨fun h => by simp [h.1] at hb, submit_busy hb ..⟩
  · by_cases hf : s.status.fault = none
    · have h : s.ready := ⟨by simpa using hb, hf⟩
      exact .inr ⟨h, submit_ready h ..⟩
    · exact .inl ⟨fun h => hf h.2, submit_faulted hf ..⟩

/-- The phase a command starts its lanes in (R185). -/
def startPhase : Instr → Phase
  | .salsa8x _ _ => .sal
  | .bmix _ => .bmx
  | .romix _ => .fill
  | .romixb _ => .fill

/-- The lanes a command starts (R185). -/
def starts (i : Instr) (t : LaneId) : Bool :=
  match i with
  | .salsa8x s _ => t == s
  | .bmix s => t == s
  | .romix s => t == s
  | .romixb k => inBatch k t

/-- Every command is one submission of its fields, its phase and its lanes. -/
theorem exec_wf {i : Instr} (h : i.wf = true) (s : State) :
    exec i s = .next (s.submit i.fields (startPhase i) (starts i)) := by
  cases i with
  | salsa8x t k => rfl
  | bmix t => rfl
  | romix t => rfl
  | romixb k =>
    have : legalWidth k = true := h
    simp [exec, execRomixb, this, startPhase]
    rfl

/-- What `exec` answers: a next state that is a submission, or the refusal of a term that is no command. -/
theorem exec_cases (i : Instr) (s : State) :
    (i.wf = true ∧ exec i s = .next (s.submit i.fields (startPhase i) (starts i))) ∨
    (i.wf = false ∧ exec i s = .refused (.illFormed "ROMIXB")) := by
  by_cases h : i.wf = true
  · exact .inl ⟨h, exec_wf h s⟩
  · cases i with
    | salsa8x t k => exact absurd rfl h
    | bmix t => exact absurd rfl h
    | romix t => exact absurd rfl h
    | romixb k =>
      have : legalWidth k = false := by simpa [Instr.wf] using h
      exact .inr ⟨this, by simp [exec, execRomixb, this]⟩

/-- A phase a command starts in is none of the two a lane rests or waits in. -/
theorem startPhase_cases (i : Instr) : startPhase i = .sal ∨ startPhase i = .bmx ∨ startPhase i = .fill := by
  cases i <;> simp [startPhase]

/-! ### The reset event -/

theorem lane_resetEvent (s : State) (t : LaneId) :
    s.resetEvent.lane t = { Lane.reset with draws := (s.lane t).draws, unwritten := (s.lane t).unwritten } := by
  simp [State.resetEvent, State.lane]

/-! ### The guards of the micro-steps -/

theorem fStore_some {room : Bool} {s : LaneId} {l l' : Lane} :
    microFStore room s l = some l' ↔ room = true ∧
      l' = { l.sawBlock.issueWrite l.seq.i (readBlock s l) with
             seq := { ph := .fill, i := l.seq.i, u := 1 } } := by
  cases room <;> simp [microFStore, eq_comm]

theorem issueRead_some {l l' : Lane} {j : Slot} :
    l.issueRead j = some l' ↔ l.pr = .empty ∧ l.pw.find j = none ∧ l' = { l with pr := .issued j } := by
  simp only [Lane.issueRead, Lane.written, Option.isNone_iff_eq_none]
  split
  · rename_i h; simp [h.1, h.2, eq_comm]
  · rename_i h
    simp only [reduceCtorEq, false_iff]
    exact fun q => h ⟨q.1, q.2.1⟩

theorem mFetch_some {room : Bool} {s : LaneId} {l l' : Lane} :
    microMFetch room s l = some l' ↔ room = true ∧ l.pr = .empty ∧ l.pw.find (integerify (readWord s l 16)) = none ∧
      l' = { l.sawWord 16 with
             pr := .issued (integerify (readWord s l 16))
             seq := { ph := .mix, i := l.seq.i, u := 1 } } := by
  cases room
  · simp [microMFetch]
  · simp only [microMFetch, if_true, true_and]
    cases h : (l.sawWord 16).issueRead (integerify (readWord s l 16)) with
    | some m =>
      obtain ⟨h1, h2, rfl⟩ := issueRead_some.1 h
      simp only [sawWord_pr, sawWord_pw] at h1 h2
      simp [h1, h2, eq_comm]
    | none =>
      simp only [reduceCtorEq, false_iff]
      rintro ⟨h1, h2, -⟩
      have := (issueRead_some (l := l.sawWord 16)).2 ⟨h1, h2, rfl⟩
      simp [h] at this

theorem mXor_some {s : LaneId} {l l' : Lane} :
    microMXor s l = some l' ↔ ∃ j d, l.pr = .performed j d ∧
      l' = { l.sawBlock with
             pr := .empty
             x := held (blockXor (readBlock s l) d)
             seq := { ph := .mix, i := l.seq.i, u := 2 } } := by
  simp only [microMXor, Lane.awaitRead, sawBlock_pr]
  cases h : l.pr with
  | empty => simp
  | issued j => simp
  | performed j d => simp [eq_comm]

theorem lDrain_some {l l' : Lane} :
    microLDrain l = some l' ↔ l.pw = [] ∧ l.pr = .empty ∧ l' = { l with seq := Seq.idle } := by
  simp only [microLDrain]
  split
  · rename_i h; simp [h.1, h.2, eq_comm]
  · rename_i h
    simp only [reduceCtorEq, false_iff]
    exact fun q => h ⟨q.1, q.2.1⟩

theorem laneNext_some {room : Bool} {h : BitVec 1} {s : LaneId} {l l' : Lane} :
    laneNext room h s l = some l' ↔ ∃ m, selected l.seq = some m ∧ runMicro m room h s l = some l' := by
  simp only [laneNext]
  cases selected l.seq <;> simp

theorem lastIter_iff (i : Slot) : lastIter i = true ↔ i.val = 1023 := by
  simp only [lastIter, Config.n, beq_iff_eq]
  omega

theorem nextIter_val {i : Slot} (h : i.val < 1023) : (nextIter i).val = i.val + 1 := by
  simp only [nextIter, Config.n]
  omega

/-! ### The transfer engine -/

theorem performWrite_some {l l' : Lane} {j : Slot} :
    l.performWrite j = some l' ↔
      ∃ d, l.pw.find j = some d ∧ l' = { l with v := l.v.writeSlot j d, pw := l.pw.remove j } := by
  simp only [Lane.performWrite]
  cases l.pw.find j <;> simp [eq_comm]

theorem readToPerform_some {l : Lane} {j : Slot} : l.readToPerform = some j ↔ l.pr = .issued j := by
  simp only [Lane.readToPerform]
  cases l.pr <;> simp

theorem performRead_ok {s : LaneId} {l l' : Lane} {j : Slot} :
    Lane.performRead s l j = .ok l' ↔ ∃ d, l.v.readSlot j = some d ∧ l' = { l with pr := .performed j d } := by
  simp only [Lane.performRead]
  cases l.v.readSlot j <;> simp [eq_comm]

/-! ### The host -/

theorem hostLoc_xwinAddr : ∀ (t : LaneId) (w : Fin 32), hostLoc (xwinAddr t w) = .xwin t w := by
  decide +kernel

theorem hostLoc_status : hostLoc statusAddr = .status := by decide

theorem hostLoc_cmd : hostLoc cmdAddr = .cmd := by decide

/-- What a host read can do: return a value, and before it, in a state that is not faulted, latch BADADDR. -/
theorem hostRead_cases (a : HostAddr) (s : State) :
    (∃ v, hostRead a s = s.answer a v) ∨ hostRead a s = s.answerAny a ∨
      (s.status.fault = none ∧ a ≠ statusAddr ∧ hostRead a s = (s.raise .badAddr).answerAny a) := by
  simp only [hostRead]
  cases h : hostLoc a with
  | status => exact .inl ⟨_, rfl⟩
  | cmd =>
    cases hf : s.status.fault with
    | some c => exact .inr (.inl (by simp))
    | none => exact .inr (.inr ⟨rfl, (fun e => by rw [e, hostLoc_status] at h; cases h), by simp⟩)
  | unmapped =>
    cases hf : s.status.fault with
    | some c => exact .inr (.inl (by simp))
    | none => exact .inr (.inr ⟨rfl, (fun e => by rw [e, hostLoc_status] at h; cases h), by simp⟩)
  | xwin t w =>
    cases hf : s.status.fault with
    | some c => exact .inr (.inl (by simp))
    | none =>
      cases hx : (s.lane t).x[w] with
      | some v => exact .inl ⟨v, by simp only [Option.isSome_none, Bool.false_eq_true, if_false]; simp at hx; simp [hx]⟩
      | none => exact .inr (.inl (by simp only [Option.isSome_none, Bool.false_eq_true, if_false]; simp at hx; simp [hx]))

theorem hostRead_status (s : State) : hostRead statusAddr s = s.answer statusAddr (statusWord s.status) := by
  simp [hostRead, hostLoc_status]

/-- What a host write that answers a next state can do. -/
theorem hostWrite_cases {a : HostAddr} {v : Word} {s u : State} (h : hostWrite a v s = .next u) :
    (s.status.fault ≠ none ∧ u = s) ∨
    (s.status.fault = none ∧
      ((∃ c, u = s.raise c) ∨ (∃ t w, u = s.putWord t w v) ∨
        (a = cmdAddr ∧ ∃ i, decode v = .ok i ∧ i.wf = true ∧ u = s.submit i.fields (startPhase i) (starts i)))) := by
  simp only [hostWrite] at h
  cases hf : s.status.fault with
  | some c =>
    simp only [hf, Option.isSome_some, if_true, Host.Outcome.next.injEq] at h
    exact .inl ⟨by simp, h.symm⟩
  | none =>
    simp only [hf, Option.isSome_none, Bool.false_eq_true, if_false] at h
    refine .inr ⟨rfl, ?_⟩
    cases hl : hostLoc a with
    | cmd =>
      have ha : a = cmdAddr := by
        simp only [hostLoc] at hl
        split at hl
        · assumption
        · split at hl
          · cases hl
          · split at hl <;> cases hl
      simp only [hl] at h
      cases hd : decode v with
      | error e => simp only [hd, Host.Outcome.next.injEq] at h; exact .inl ⟨_, h.symm⟩
      | ok i =>
        simp only [hd] at h
        rcases exec_cases i s with ⟨hw, he⟩ | ⟨-, he⟩
        · rw [he] at h
          simp only [Host.Outcome.next.injEq] at h
          exact .inr (.inr ⟨ha, i, rfl, hw, h.symm⟩)
        · rw [he] at h; cases h
    | status => simp only [hl, Host.Outcome.next.injEq] at h; exact .inl ⟨_, h.symm⟩
    | unmapped => simp only [hl, Host.Outcome.next.injEq] at h; exact .inl ⟨_, h.symm⟩
    | xwin t w => simp only [hl, Host.Outcome.next.injEq] at h; exact .inr (.inl ⟨t, w, h.symm⟩)

/-! ### One step of one agent -/

/-- What a step that answers a next state has done, agent by agent; a step that is not enabled has done nothing. -/
theorem perform_cases {a : Action} {s u : State} (h : perform a s = .next u) :
    (enabled a s = false ∧ u = s) ∨
    (enabled a s = true ∧
      ((∃ t l, a = .lane t ∧ laneNext s.teRoom s.cur.h t (s.lane t) = some l ∧ u = s.setLane t l) ∨
       (∃ t j d, a = .teWrite t j ∧ (s.lane t).pw.find j = some d ∧
          u = s.setLane t { s.lane t with v := (s.lane t).v.writeSlot j d, pw := (s.lane t).pw.remove j }) ∨
       (∃ t j d, a = .teRead t ∧ (s.lane t).pr = .issued j ∧ (s.lane t).v.readSlot j = some d ∧
          u = s.setLane t { s.lane t with pr := .performed j d }) ∨
       (a = .cDone ∧ s.canComplete = true ∧ u = s.complete) ∨
       (a = .reset ∧ ∃ n, s.resets = n + 1 ∧ u = { s.resetEvent with resets := n }) ∨
       (a = .host ∧ ∃ x rest, s.script = x :: rest ∧ x.isHeld s.status.busy = false ∧
          takeHost x { s with script := rest } = .next u))) := by
  cases a with
  | host =>
    simp only [perform, hostStep] at h
    cases hs : s.script with
    | nil =>
      simp only [hs, Host.Outcome.next.injEq] at h
      exact .inl ⟨by simp [enabled, State.hostReady, hs], h.symm⟩
    | cons x rest =>
      simp only [hs] at h
      cases hx : x.isHeld s.status.busy with
      | true =>
        simp only [hx, if_true, Host.Outcome.next.injEq] at h
        exact .inl ⟨by simp [enabled, State.hostReady, hs, hx], h.symm⟩
      | false =>
        simp only [hx, Bool.false_eq_true, if_false] at h
        refine .inr ⟨by simp [enabled, State.hostReady, hs, hx], ?_⟩
        exact .inr (.inr (.inr (.inr (.inr ⟨rfl, x, rest, rfl, hx, h⟩))))
  | reset =>
    simp only [perform, resetStep, Host.Outcome.next.injEq] at h
    cases hr : s.resets with
    | succ n =>
      refine .inr ⟨by simp [enabled, hr], ?_⟩
      simp only [hr] at h
      exact .inr (.inr (.inr (.inr (.inl ⟨rfl, n, rfl, h.symm⟩))))
    | zero =>
      simp only [hr] at h
      exact .inl ⟨by simp [enabled, hr], h.symm⟩
  | lane t =>
    simp only [perform, Host.Outcome.next.injEq, State.laneOr] at h
    cases hl : laneNext s.teRoom s.cur.h t (s.lane t) with
    | some l =>
      simp only [hl] at h
      exact .inr ⟨by simp [enabled, hl], .inl ⟨t, l, rfl, hl, h.symm⟩⟩
    | none =>
      simp only [hl] at h
      exact .inl ⟨by simp [enabled, hl], h.symm⟩
  | teWrite t j =>
    simp only [perform, Host.Outcome.next.injEq, State.laneOr] at h
    cases hl : (s.lane t).performWrite j with
    | some l =>
      simp only [hl] at h
      obtain ⟨d, hd, rfl⟩ := performWrite_some.1 hl
      exact .inr ⟨by simp [enabled, hl], .inr (.inl ⟨t, j, d, rfl, hd, h.symm⟩)⟩
    | none =>
      simp only [hl] at h
      exact .inl ⟨by simp [enabled, hl], h.symm⟩
  | teRead t =>
    simp only [perform, State.teReadStep] at h
    cases hr : (s.lane t).readToPerform with
    | some j =>
      simp only [hr] at h
      cases hp : Lane.performRead t (s.lane t) j with
      | ok l =>
        simp only [hp, Host.Outcome.next.injEq] at h
        obtain ⟨d, hd, rfl⟩ := performRead_ok.1 hp
        exact .inr ⟨by simp [enabled, hr], .inr (.inr (.inl ⟨t, j, d, rfl, readToPerform_some.1 hr, hd, h.symm⟩))⟩
      | error f => simp [hp] at h
    | none =>
      simp only [hr, Host.Outcome.next.injEq] at h
      exact .inl ⟨by simp [enabled, hr], h.symm⟩
  | cDone =>
    simp only [perform, Host.Outcome.next.injEq] at h
    cases hc : s.canComplete with
    | true =>
      simp only [hc, if_true] at h
      exact .inr ⟨by simp [enabled, hc], .inr (.inr (.inr (.inl ⟨rfl, rfl, h.symm⟩)))⟩
    | false =>
      simp only [hc, Bool.false_eq_true, if_false] at h
      exact .inl ⟨by simp [enabled, hc], h.symm⟩

/-! ### The count of schedule choices is read by no step -/

theorem enabled_tick (a : Action) (s : State) (k : Nat) : enabled a { s with tick := k } = enabled a s := by
  cases a <;> rfl

theorem hostRead_tick (a : HostAddr) (s : State) (k : Nat) :
    hostRead a { s with tick := k } = { hostRead a s with tick := k } := by
  simp only [hostRead]
  cases hostLoc a with
  | status => rfl
  | cmd => cases s.status.fault <;> rfl
  | unmapped => cases s.status.fault <;> rfl
  | xwin t w =>
    cases s.status.fault with
    | some c => rfl
    | none =>
      simp only [Option.isSome_none, Bool.false_eq_true, if_false, lane_with_tick]
      cases (s.lane t).x[w] <;> rfl

theorem submit_tick (s : State) (f : Fields) (ph : Phase) (on : LaneId → Bool) (k : Nat) :
    State.submit { s with tick := k } f ph on = { s.submit f ph on with tick := k } := by
  simp only [State.submit]
  split
  · rfl
  · split <;> rfl

theorem hostWrite_tick {a : HostAddr} {v : Word} {s u : State} (k : Nat) (h : hostWrite a v s = .next u) :
    hostWrite a v { s with tick := k } = .next { u with tick := k } := by
  simp only [hostWrite] at h ⊢
  cases hf : s.status.fault with
  | some c => simp only [hf] at h ⊢; cases h; cases s; simp_all
  | none =>
    simp only [hf, Option.isSome_none, Bool.false_eq_true, if_false] at h ⊢
    cases hl : hostLoc a with
    | cmd =>
      simp only [hl] at h ⊢
      cases hd : decode v with
      | error e => simp only [hd] at h ⊢; cases h; rfl
      | ok i =>
        simp only [hd] at h ⊢
        rcases exec_cases i s with ⟨hw, he⟩ | ⟨-, he⟩
        · rw [he] at h; cases h
          rw [exec_wf hw, submit_tick]
        · rw [he] at h; cases h
    | status => simp only [hl] at h ⊢; cases h; rfl
    | unmapped => simp only [hl] at h ⊢; cases h; rfl
    | xwin t w => simp only [hl] at h ⊢; cases h; rfl

/-- What a step does, it does whatever the count of schedule choices. -/
theorem perform_tick {a : Action} {s u : State} (k : Nat) (h : perform a s = .next u) :
    perform a { s with tick := k } = .next { u with tick := k } := by
  cases a with
  | host =>
    simp only [perform, hostStep] at h ⊢
    cases hs : s.script with
    | nil => simp only [hs] at h ⊢; cases h; cases s; simp_all
    | cons x rest =>
      simp only [hs] at h ⊢
      cases hx : x.isHeld s.status.busy with
      | true => simp only [hx] at h ⊢; cases h; cases s; simp_all
      | false =>
        simp only [hx, Bool.false_eq_true, if_false] at h ⊢
        cases x with
        | hrd a =>
          simp only [takeHost] at h ⊢; cases h
          exact congrArg _ (hostRead_tick a { s with script := rest } k)
        | hwr a v => exact hostWrite_tick (s := { s with script := rest }) k h
        | reset => simp only [takeHost] at h ⊢; cases h; rfl
        | wait =>
          simp only [takeHost, hostRead_status] at h ⊢; cases h; rfl
  | reset =>
    simp only [perform, resetStep] at h ⊢
    cases hr : s.resets with
    | zero => simp only [hr] at h ⊢; cases h; cases s; simp_all
    | succ n => simp only [hr] at h ⊢; cases h; rfl
  | lane t =>
    simp only [perform] at h ⊢; cases h
    show Host.Outcome.next (State.laneOr _ t (laneNext s.teRoom s.cur.h t (s.lane t))) = _
    cases laneNext s.teRoom s.cur.h t (s.lane t) <;> rfl
  | teWrite t j =>
    simp only [perform, lane_with_tick] at h ⊢; cases h
    cases (s.lane t).performWrite j <;> rfl
  | teRead t =>
    simp only [perform, State.teReadStep, lane_with_tick] at h ⊢
    cases hr : (s.lane t).readToPerform with
    | none => simp only [hr] at h ⊢; cases h; rfl
    | some j =>
      simp only [hr] at h ⊢
      cases hp : Lane.performRead t (s.lane t) j with
      | ok l => simp only [hp] at h ⊢; cases h; rfl
      | error f => simp [hp] at h
  | cDone =>
    simp only [perform] at h ⊢; cases h
    show Host.Outcome.next (if s.canComplete then _ else _) = _
    cases s.canComplete <;> rfl
/-! ### The transfer engine's room -/

/-- The transfer engine has room exactly where its depth is unbounded or the records in flight over all lanes, every pending
write and every pending read that is not `none`, are fewer (R76). -/
theorem teRoom_iff (s : State) :
    s.teRoom = true ↔ ∀ d, Config.teDepth = some d →
      ((List.finRange 8).map fun t => (s.lane t).pw.length + if (s.lane t).pr = .empty then 0 else 1).sum < d.val := by
  unfold State.teRoom State.records Lane.records
  cases Config.teDepth <;> simp

end Sys2Proof.Machine
end

