-- ==== Sys2Proof/Tests/Slice0.lean ====
section
/-! SUPPORT. Tests: expected results are spec/95_test_vectors.md's or a rule's own example, named at each; and for each
statement with hypotheses a state and operands that meet them (`test_hyp_...`). -/

namespace Sys2Proof.Tests

open Sys2Proof Sys2Proof.Machine

-- One test at a time: each kernel evaluation that waits for another would hold a thread, and its stack, of its own.
set_option Elab.async false

/-! ### Commands: well-formedness, text, words -/

/-- A batch width outside 1, 2, 4, 8 is no command; the lane and half of the others are in range by their type (R87). -/
theorem test_wf_refuses : Instr.wf (.romixb 0) = false ∧ Instr.wf (.romixb 3) = false ∧ Instr.wf (.romixb 16) = false := by
  decide

/-- The text form of R87's examples. -/
theorem test_text : Instr.text (.salsa8x 5 1) = "SALSA8X 5, 1" ∧ Instr.text (.romixb 8) = "ROMIXB 8" := by
  decide +kernel

/-- `SALSA8X 5, 1`, from the pattern of R83: hsss 0001 with h = 1, sss = 101. -/
theorem test_decode_salsa8x : decode 0b00000000000000000000000011010001 = .ok (.salsa8x 5 1) := by decide

/-- `BMIX 3`, from the pattern of R83: 0sss 0010 with sss = 011. -/
theorem test_decode_bmix : decode 0b00000000000000000000000000110010 = .ok (.bmix 3) := by decide

/-- `ROMIX 7`, from the pattern of R83: 0sss 0011 with sss = 111. -/
theorem test_decode_romix : decode 0b00000000000000000000000001110011 = .ok (.romix 7) := by decide

/-- `ROMIXB 4`, from the pattern of R83: 00ll 0000 0100 with ll = 10. -/
theorem test_decode_romixb : decode 0b00000000000000000000001000000100 = .ok (.romixb 4) := by decide

/-- Illegal words of 95 section 6.1. -/
theorem test_decode_illegal :
    [0x00000000, 0x0000000F, 0x000000F5, 0x000000F2, 0x00000083, 0x00000101, 0x00000203, 0x00000074, 0x00000084,
      0x00000401, 0x80000001, 0xFFFFFFFF].all fun c => decodeTableWord 32 c == none := by
  decide +kernel

/-- The words of R87's examples. -/
theorem test_encode :
    encode (.salsa8x 5 1) = some 0x000000D1 ∧ encode (.bmix 3) = some 0x00000032 ∧ encode (.romix 7) = some 0x00000073 ∧
      encode (.romixb 8) = some 0x00000304 := by
  decide

/-- "An operand outside its range is an error of the text and encodes nothing" (R87): no word, and no host write. -/
theorem test_encode_nothing :
    encode (.romixb 3) = none ∧ encode (.romixb 0) = none ∧ encode (.romixb 16) = none ∧ scriptCmd (.romixb 3) = [] ∧
      scriptCmd (.romixb 2) = [.hwr 0x000 0x00000104] := by
  decide

/-! ### The core, against 95 section 3 -/

/-- ARX rows of 95 section 3.1: the ordinary case, and bit 14 wrapping to bit 0 under a left rotation by 18. -/
theorem test_arx :
    (arx ((Vector.replicate 16 0).set 0 0xDEADBEEF |>.set 1 0x01234567 |>.set 2 0x89ABCDEF) 0 1 2 7)[0] = 0xB92415AA ∧
    (arx ((Vector.replicate 16 0).set 1 0x00003FFF |>.set 2 0x00000001) 0 1 2 18)[0] = 0x00000001 := by
  decide +kernel

/-- The second row of 95 section 3.2. -/
theorem test_qr :
    qr ((Vector.replicate 16 0).set 0 1) 0 1 2 3 =
      ((Vector.replicate 16 0).set 0 0x08008145 |>.set 1 0x00000080 |>.set 2 0x00010200 |>.set 3 0x20500000) := by
  decide +kernel

/-- The 16 words 0, 1, ..., 15 (95, `w`). -/
def halfW : Half := Vector.ofFn fun w => BitVec.ofNat 32 w.val

/-- COLROUND(w) of 95 section 3.3. -/
theorem test_colRound :
    colRound halfW =
      #v[0x20560736, 0xC3E2C001, 0x00103002, 0x00000D03, 0x00000604, 0x703B0FA6, 0x07020004, 0x001A2407,
         0x000C0808, 0x00000309, 0xC0181C42, 0x46214008, 0x81C1800D, 0x00061C0D, 0x0000080E, 0x903D18E2] := by
  decide +kernel

/-- ROWROUND(w) of 95 section 3.3. -/
theorem test_rowRound :
    rowRound halfW =
      #v[0x881581CD, 0x00000181, 0x00030202, 0x60706003, 0x2351A005, 0xD8308D6F, 0x00000486, 0x00091607,
         0x00132A08, 0x6672600B, 0x284D9A1C, 0x0000098B, 0x00000E8C, 0x001D360D, 0xA893200D, 0x586AA2CE] := by
  decide +kernel

/-- SX(w, 0) of 95 section 3.3: it tells the feed-forward of the pre-permutation value. -/
theorem test_sx :
    sx halfW (Vector.replicate 16 0) =
      #v[0x4FDD18F5, 0xE08388B9, 0xC05479A8, 0x7086AB5C, 0x0888BB83, 0x75102855, 0x58A08522, 0x166CF522,
         0x0F2A4A9D, 0x232514D2, 0x0BC658D7, 0x681B4136, 0x0586532D, 0xD271B814, 0x2A045976, 0x5D47FA5A] := by
  decide +kernel

/-- The Block with word w equal to w + 32 s (95 section 4); for s = 0 it is `W`. -/
def blockW (s : LaneId) : Block := Vector.ofFn fun w => BitVec.ofNat 32 (w.val + 32 * s.val)

/-- BM(W) of 95 section 3.4. -/
theorem test_bm :
    bm (blockW 0) =
      #v[0xDB987384, 0x6E6DF192, 0xE835B110, 0xA98124F2, 0xA98124F2, 0xDB987384, 0x6E6DF192, 0xE835B110,
         0xE835B110, 0xA98124F2, 0xDB987384, 0x6E6DF192, 0x6E6DF192, 0xE835B110, 0xA98124F2, 0xDB987384,
         0xF3D25A54, 0xACF59143, 0x1BF81F10, 0x0A12FEC4, 0xD497DDCE, 0x4F815F0A, 0x53AFB712, 0x19B5C87A,
         0x5F8CC79D, 0xFCE4F0EF, 0x0B40C61C, 0xB2BF9039, 0xD84C0A7B, 0xE86E7C74, 0x6F1BD2AA, 0x56BCEB7C] := by
  decide +kernel

/-- j_0 and j_1 of ROMIX on W: words 0x27765044 and 0x8EF485E4 give 68 and 484 (95 section 3.4). -/
theorem test_integerify : (integerify 0x27765044).val = 68 ∧ (integerify 0x8EF485E4).val = 484 := by decide

/-- Word 0 of the RFC's Salsa20/8 input is the bytes 7e 87 9a 21 (95 section 2.1). -/
theorem test_byte_order : wordOfBytes 0x7E 0x87 0x9A 0x21 = 0x219A877E := by decide

/-! ### States -/

/-- After reset, with every lane's Block register written: lane s holds `blockW s`. -/
def loaded : State :=
  { State.reset with lanes := Vector.ofFn fun t => { Lane.reset with x := held (blockW t) } }

theorem lane_loaded (t : LaneId) : loaded.lane t = { Lane.reset with x := held (blockW t) } := by
  simp [State.lane, loaded]

/-- A lane with nothing stored and nothing in flight, idle, meets the invariant. -/
theorem inv_resting (x : Vector (Option Word) 32) : Lane.Inv { Lane.reset with x := x } := by
  simp [Lane.Inv, Lane.reset, Memory.wf, PendingWrites.wf, Seq.legal, Lane.transfersInv]

theorem inv_loaded : loaded.Inv := by
  refine ⟨fun t => ?_, fun _ => ?_, ?_, ?_⟩
  · rw [lane_loaded]; exact inv_resting _
  · simp [State.allIdle, lane_loaded, Lane.reset]
  · simp [loaded, State.reset]
  · simp [loaded, State.reset]

/-- A lane at a given sequencer state. -/
def laneAt (q : Seq) : Lane := { Lane.reset with x := held (blockW 0), seq := q }

/-- The machine with lane 0 given, running a command. -/
def busyWith (l : Lane) : State :=
  { (loaded.setLane 0 l) with status := { busy := true, done := false, fault := none } }

/-- The lane mid-fill: slots 0 and 1 are being written (R136). -/
def filling : Lane :=
  { laneAt { ph := .fill, i := 2, u := 0 } with pw := [((0 : Slot), blockW 0), ((1 : Slot), blockW 1)] }

theorem inv_filling : filling.Inv := by
  refine ⟨by simp [filling, laneAt, Lane.reset, Memory.wf], by simp [filling, PendingWrites.wf], by decide, rfl, ?_, ?_⟩
  · unfold fillIssued; decide +kernel
  · unfold fillIssued Lane.stored; decide +kernel

theorem inv_busyWith {l : Lane} (h : l.Inv) : (busyWith l).Inv := by
  refine ⟨fun t => ?_, by simp [busyWith], by simp [busyWith], by simp [busyWith]⟩
  have : (busyWith l).lane t = (loaded.setLane 0 l).lane t := rfl
  rw [this, lane_setLane]
  split
  · exact h
  · rw [lane_loaded]; exact inv_resting _

/-! ### Single steps -/

/-- Word `c` is the first command after reset: step accepts it (R185, R232). -/
def accepts (c : Nat) (cur : Fields) (t : LaneId) (q : Seq) : Bool :=
  match step (State.reset.withFetchWord 32 c) with
  | .next s => s.cur = cur && s.status.busy && !s.status.done && (s.lane t).seq = q && s.script.isEmpty
  | .fault _ => false
  | .refused _ => false

/-- R185 for each of the four commands, through the step. -/
theorem test_step_accepts :
    accepts 0xD1 { op := 1, s := 5, h := 1, lk := 0 } 5 { ph := .sal, i := 0, u := 0 } ∧
    accepts 0x32 { op := 2, s := 3, h := 0, lk := 0 } 3 { ph := .bmx, i := 0, u := 0 } ∧
    accepts 0x73 { op := 3, s := 7, h := 0, lk := 0 } 7 { ph := .fill, i := 0, u := 0 } ∧
    accepts 0x304 { op := 4, s := 0, h := 0, lk := 3 } 7 { ph := .fill, i := 0, u := 0 } ∧
    accepts 0x204 { op := 4, s := 0, h := 0, lk := 2 } 4 { ph := .idle, i := 0, u := 0 } := by
  decide +kernel

/-- An illegal word latches code 1, which the STATUS read shows in bits 3:2 as 4 (95 section 6.3). -/
theorem test_step_illegal :
    (match step (State.reset.withFetchWord 32 0x82) with
      | .next s => statusWord s.status
      | .fault _ => 0
      | .refused _ => 0) = 0x4 := by
  decide +kernel

/-- `X[3][16]` is at host address 0x170 (R53, R184). -/
theorem test_xwin_write :
    (match hostWrite 0x170 1 State.reset with
      | .next s => (s.lane 3).x[16] == some 1 && (s.lane 3).x[15] == none
      | .fault _ => false
      | .refused _ => false) = true := by
  decide +kernel

/-- SALSA8X 0, 0 on W: the low half becomes SX(w, 16+w), the high half stays (R110's example). -/
theorem test_sExec :
    (microSExec 0 0 (laneAt { ph := .sal, i := 0, u := 0 })).x =
      held (ofHalves
        #v[0xDB987384, 0x6E6DF192, 0xE835B110, 0xA98124F2, 0xA98124F2, 0xDB987384, 0x6E6DF192, 0xE835B110,
           0xE835B110, 0xA98124F2, 0xDB987384, 0x6E6DF192, 0x6E6DF192, 0xE835B110, 0xA98124F2, 0xDB987384]
        (hi (blockW 0))) := by
  decide +kernel

/-- Program P6 of 95: B-MIX0 of a lane with 31 of its 32 words written meets an unwritten word, and that is on record; with all
written nothing is (R218). -/
theorem test_unwritten_record :
    (microBMix0 0 { Lane.reset with x := (held (blockW 0)).set 31 none }).unwritten = true ∧
      (microBMix0 0 (laneAt { ph := .bmx, i := 0, u := 0 })).unwritten = false := by
  decide +kernel

/-- M-FETCH reads word 16 only: a lane that misses another word is not on record for it (R218). -/
theorem test_mFetch_record :
    ((microMFetch true 0 { Lane.reset with x := (held (blockW 0)).set 31 none }).map fun l => l.unwritten) = some false ∧
      ((microMFetch true 0 { Lane.reset with x := (held (blockW 0)).set 16 none }).map fun l => l.unwritten) = some true := by
  decide +kernel

/-- Two RESETs beside a script whose head is held: after the first, CORE is busy again, and the second is taken as well (R230,
R231). -/
theorem test_two_resets :
    let s := { busyWith filling with script := [HostAction.hwr 0x000 0x32, .hrd 0x100], resets := 2 }
    (match perform .reset s with
      | .next a => match perform .host a with
        | .next b => b.status.busy && !(enabled .host b) && enabled .reset b &&
          (match perform .reset b with
            | .next c => !c.status.busy && c.resets == 0 && c.script == [.hrd 0x100]
            | .fault _ => false
            | .refused _ => false)
        | .fault _ => false
        | .refused _ => false
      | .fault _ => false
      | .refused _ => false) = true := by
  decide +kernel

/-- F-STORE carries the Block as it is, to slot i (R60, R136). -/
theorem test_fStore :
    ((microFStore true 0 (laneAt { ph := .fill, i := 1023, u := 0 })).map fun l => l.pw) = some [(1023, blockW 0)] := by
  decide +kernel

/-- F-MIX1 at i = N-1 is the one way from the fill to the mix phase (R138). -/
theorem test_fMix1_last :
    (microFMix1 0 (laneAt { ph := .fill, i := 1023, u := 2 })).seq = { ph := .mix, i := 0, u := 0 } ∧
    (microFMix1 0 (laneAt { ph := .fill, i := 1022, u := 2 })).seq = { ph := .fill, i := 1023, u := 0 } := by
  decide +kernel

/-- M-FETCH of W reads slot 16, W's word 16; it is held while that slot's write is in flight (R66, R139). -/
theorem test_mFetch :
    ((microMFetch true 0 (laneAt { ph := .mix, i := 0, u := 0 })).map fun l => l.pr) = some (.issued 16) ∧
    microMFetch true 0 { laneAt { ph := .mix, i := 0, u := 0 } with pw := [((16 : Slot), blockW 0)] } = none := by
  decide +kernel

/-- M-XOR with the lane's own Block gives zero words and consumes the read (R140). -/
theorem test_mXor :
    ((microMXor 0 { laneAt { ph := .mix, i := 0, u := 1 } with pr := .performed 16 (blockW 0) }).map
      fun l => (l.x, l.pr)) = some (Vector.replicate 32 (some 0), .empty) := by
  decide +kernel

/-- Byte 4 of slot 1 is at address 132 of its bank, the low byte of word 1; the bytes beside the slot stay (R26, R56). -/
theorem test_slot_bytes : (Memory.writeSlot [] 1 (blockW 0)).read 132 = some 1 ∧
    (Memory.writeSlot [] 1 (blockW 0)).read 127 = none ∧ (Memory.writeSlot [] 1 (blockW 0)).read 256 = none := by
  decide +kernel

/-! ### The statements' hypotheses can be met

One theorem for each statement that has hypotheses: a state and operands that meet all of them together, with the boundary
values of each clause. -/

/-- DecodeEncodeRoundTrip, CommandTurnedAway, MachineRunsACommandToCompletion: `i.wf`, for each command, at the ends of its
range. -/
theorem test_hyp_wf :
    Instr.wf (.salsa8x 0 0) ∧ Instr.wf (.salsa8x 7 1) ∧ Instr.wf (.bmix 7) ∧ Instr.wf (.romix 7) ∧ Instr.wf (.romixb 1) ∧
      Instr.wf (.romixb 8) := by
  decide

/-- DecodedWordIsTheEncoding. -/
theorem test_hyp_decoded : decode 0x00000304 = .ok (.romixb 8) ∧ decode 0x00000001 = .ok (.salsa8x 0 0) := by decide

/-- LegalWordsAndIllegalOnes: a legal word of each row, an illegal word, and a state that would accept a command. -/
theorem test_hyp_legal :
    (decode 0xD1 = .ok (.salsa8x 5 1) ∧ (0xD1 : Word).extractLsb' 0 4 = 1) ∧
      (decode 0x32 = .ok (.bmix 3) ∧ (0x32 : Word).extractLsb' 0 4 = 2) ∧
      (decode 0x73 = .ok (.romix 7) ∧ (0x73 : Word).extractLsb' 0 4 = 3) ∧
      (decode 0x304 = .ok (.romixb 8) ∧ (0x304 : Word).extractLsb' 0 4 = 4) := by
  decide

theorem test_hyp_illegal : (¬∃ i, decode 0x00000473 = .ok i) ∧ State.reset.ready := by
  refine ⟨fun ⟨i, h⟩ => ?_, by simp [State.ready, State.reset]⟩
  have : decode 0x00000473 = .error .nonzeroZ := by decide
  rw [this] at h
  cases h

/-- RotlRotatesLeft at both ends. -/
theorem test_hyp_rotl : rotl 0x80000001 1 = 0x00000003 ∧ rotl 0x80000001 31 = 0xC0000000 := by decide

/-- ArxWritesItsTargetOnly: a word that is not the target. -/
theorem test_hyp_arx : (15 : Fin 16) ≠ 0 ∧ (arx (Vector.replicate 16 1) 0 1 2 7)[15] = 1 := by decide +kernel

/-- QuarterRoundsOfARoundCommute. -/
theorem test_hyp_groups : 0 < 4 ∧ 3 < 4 ∧ 0 ≠ 3 := by decide

/-- SxAndItsLaws: two pairs of operands with one xor (95 section 3.3). -/
theorem test_hyp_sx : halfXor (lo (blockW 0)) (hi (blockW 0)) = halfXor (hi (blockW 0)) (lo (blockW 0)) := by
  decide +kernel

/-- BlockMixFormsAgree: a Block with equal halves. -/
theorem test_hyp_equalHalves : lo (Vector.replicate 32 7) = hi (Vector.replicate 32 7) := by decide +kernel

/-- IntegerifyIsLowTenBits: the Block after the fill of `W` has that word 16 (95 section 3.4). -/
theorem test_hyp_integerify : ((blockW 0).set 16 0x27765044)[16] = 0x27765044 := by decide +kernel

/-- RomixIsIteratedMix: the all-zero Block has indices. -/
theorem test_hyp_indices : ∃ j, j ∈ rmIndices (Vector.replicate 32 0) := by
  unfold rmIndices
  exact ⟨_, List.mem_cons_self ..⟩

/-- CommandAcceptNextState: ready; a lane not named; a batch of one lane and of eight. -/
theorem test_hyp_accept :
    loaded.ready ∧ (1 : LaneId) ≠ 0 ∧ (0 : LaneId).val < 2 ^ (0 : BitVec 2).toNat ∧
      ¬(1 : LaneId).val < 2 ^ (0 : BitVec 2).toNat ∧ (7 : LaneId).val < 2 ^ (3 : BitVec 2).toNat := by
  refine ⟨by simp [State.ready, loaded, State.reset], by decide⟩

/-- CommandAcceptFrame. -/
theorem test_hyp_exec : ∃ t, exec (.romixb 8) loaded = .next t := ⟨_, rfl⟩

/-- CommandTurnedAway: busy; faulted; widths at the edges of the legal ones. -/
theorem test_hyp_turned :
    (busyWith filling).status.busy = true ∧ (State.reset.raise .illCmd).status.fault ≠ none ∧
      (3 ≠ 1 ∧ 3 ≠ 2 ∧ 3 ≠ 4 ∧ 3 ≠ 8) ∧ (0 ≠ 1 ∧ 0 ≠ 2 ∧ 0 ≠ 4 ∧ 0 ≠ 8) := by
  refine ⟨rfl, by simp [State.raise, Status.latch], by decide, by decide⟩

/-- StepRunsTheDecodedCommand. -/
theorem test_hyp_step :
    let s := { loaded with script := [HostAction.hwr 0x000 0x00000304], resets := 0 }
    s.Inv ∧ s.ready ∧ s.resets = 0 ∧ s.script = .hwr 0x000 0x00000304 :: [] ∧ decode 0x00000304 = .ok (.romixb 8) :=
  ⟨inv_loaded, by simp [State.ready, loaded, State.reset], rfl, rfl, by decide⟩

/-- Salsa8xResult, BmixResult, RomixResultForEverySchedule, RomixStepCounts, RomixReadTrace, for every lane; and
RomixbResultForEverySchedule at the widths 1 and 8, with a lane outside the batch. -/
theorem test_hyp_result :
    loaded.Inv ∧ loaded.ready ∧ (∀ s, (loaded.lane s).x = held (blockW s)) ∧
      (∀ r : LaneId, r.val < 1 → (loaded.lane r).x = held (blockW r)) ∧
      (∀ r : LaneId, r.val < 8 → (loaded.lane r).x = held (blockW r)) ∧ ¬(1 : LaneId).val < 1 := by
  refine ⟨inv_loaded, by simp [State.ready, loaded, State.reset], ?_, ?_, ?_, by decide⟩ <;>
    simp [lane_loaded]

/-- MachineRunsACommandToCompletion. -/
theorem test_hyp_run : loaded.Inv ∧ loaded.ready ∧ loaded.hostDone ∧ Instr.wf (.romixb 8) = true :=
  ⟨inv_loaded, by simp [State.ready, loaded, State.reset], by simp [State.hostDone, loaded, State.reset], by decide⟩

/-! A weakly fair run beside a polling host: every lane is idle and BUSY = 1; the host polls, C-DONE is taken, the host's next
poll reads BUSY = 0, and nothing is left to do. -/

/-- The machine at moment n of that run. -/
def pollAt (busy : Bool) (script : List HostAction) (reads : List HostRead) : State :=
  { loaded with status := { busy := busy, done := !busy, fault := none }, script := script, reads := reads }

def pollRun : Nat → State
  | 0 => pollAt true [.wait] []
  | 1 => pollAt true [.wait] [⟨0x001, 1⟩]
  | 2 => pollAt false [.wait] [⟨0x001, 1⟩]
  | _ + 3 => pollAt false [] [⟨0x001, 2⟩, ⟨0x001, 1⟩]

def pollActs : Nat → Option Action
  | 0 => some .host
  | 1 => some .cDone
  | 2 => some .host
  | _ + 3 => none

/-- With nothing to do, whoever is asked has no step. -/
theorem nothing_enabled (s : State) (hl : s.lanes = loaded.lanes) (hs : s.script = []) (hr : s.resets = 0)
    (hb : s.status.busy = false) (a : Action) : enabled a s = false := by
  have lane : ∀ t, s.lane t = { Lane.reset with x := held (blockW t) } := fun t => by
    rw [← lane_loaded]; simp only [State.lane, hl]
  cases a with
  | host => simp [enabled, State.hostReady, hs]
  | reset => simp [enabled, hr]
  | lane t => simp [enabled, laneNext, lane, Lane.reset, selected]
  | teWrite t j => simp [enabled, lane, Lane.reset, Lane.performWrite, PendingWrites.find]
  | teRead t => simp [enabled, lane, Lane.reset, Lane.readToPerform]
  | cDone => simp [enabled, State.canComplete, hb]

theorem allIdle_poll (b : Bool) (c : List HostAction) (r : List HostRead) : (pollAt b c r).allIdle = true := by
  have lane : ∀ t, (pollAt b c r).lane t = loaded.lane t := fun _ => rfl
  simp [State.allIdle, lane, lane_loaded, Lane.reset]

/-- MachineRunsACommandToCompletion, second clause: a fair run, beside a host that polls. -/
theorem test_hyp_fairRun :
    IsRun pollRun pollActs ∧ WeaklyFair pollRun pollActs ∧ (pollRun 0).Inv ∧ (pollRun 0).status.busy = true := by
  refine ⟨fun n => ?_, fun a n h => ?_, ?_, rfl⟩
  · match n with
    | 0 => exact ⟨rfl, 0, rfl⟩
    | 1 =>
      refine ⟨by simp [enabled, State.canComplete, pollRun, allIdle_poll]; rfl, 0, ?_⟩
      have : (pollAt true [.wait] [⟨0x001, 1⟩]).canComplete = true := by
        simp only [State.canComplete, allIdle_poll]; rfl
      show Host.Outcome.next (if (pollAt true [.wait] [⟨0x001, 1⟩]).canComplete then _ else _) = _
      rw [this]; rfl
    | 2 => exact ⟨rfl, 0, rfl⟩
    | _ + 3 => exact rfl
  · have := h (n + 3) (by omega)
    rw [nothing_enabled (pollRun (n + 3)) rfl rfl rfl rfl a] at this
    cases this
  · refine ⟨inv_loaded.1, ?_, ?_, ?_⟩ <;> simp [pollRun, pollAt]

/-- MachineRunsACommandToCompletion, third clause: the machine's own steps are fair where C-DONE is all that is left. -/
theorem test_hyp_fairSchedule :
    (busyWith (loaded.lane 0)).Inv ∧ (busyWith (loaded.lane 0)).status.busy = true ∧ (busyWith (loaded.lane 0)).fair := by
  have inv : (busyWith (loaded.lane 0)).Inv := inv_busyWith (by rw [lane_loaded]; exact inv_resting _)
  refine ⟨inv, rfl, fun a n h => ?_⟩
  have first : step (busyWith (loaded.lane 0)) = .next (busyWith (loaded.lane 0)).complete := by
    have only : (busyWith (loaded.lane 0)).enabledActions = [.cDone] := by decide +kernel
    have can : (busyWith (loaded.lane 0)).canComplete = true := by decide +kernel
    simp [step, advance, State.chosen, State.asked, only, perform, can]
  have lanes : (busyWith (loaded.lane 0)).complete.lanes = loaded.lanes := by decide +kernel
  have rest : ∀ k, (busyWith (loaded.lane 0)).after (k + 1) = (busyWith (loaded.lane 0)).complete := by
    intro k
    induction k with
    | zero => simp only [State.after, first]
    | succ k ih =>
      have none : ∀ b, enabled b (busyWith (loaded.lane 0)).complete = false :=
        nothing_enabled _ lanes rfl rfl rfl
      have : step (busyWith (loaded.lane 0)).complete = .next (busyWith (loaded.lane 0)).complete := by
        simp [step, advance, State.chosen, State.enabledActions, none]
      rw [State.after, ih, this]
  have := h (n + 1) (by omega)
  rw [rest, nothing_enabled _ lanes rfl rfl rfl a] at this
  cases this

/-- A lane takes micro-step m. -/
def takes (m : Micro) (l : Lane) : Bool := selected l.seq = some m && (runMicro m true 0 0 l).isSome

/-- MicroStepTransitions: every micro-step is taken by some lane, the iterating ones in the last iteration and before it. -/
theorem test_hyp_micro :
    takes .sExec (laneAt { ph := .sal, i := 0, u := 0 }) ∧ takes .bMix0 (laneAt { ph := .bmx, i := 0, u := 0 }) ∧
      takes .bMix1 (laneAt { ph := .bmx, i := 0, u := 1 }) ∧ takes .fStore (laneAt { ph := .fill, i := 1023, u := 0 }) ∧
      takes .fMix0 (laneAt { ph := .fill, i := 0, u := 1 }) ∧ takes .fMix1 (laneAt { ph := .fill, i := 1022, u := 2 }) ∧
      takes .fMix1 (laneAt { ph := .fill, i := 1023, u := 2 }) ∧ takes .mFetch (laneAt { ph := .mix, i := 0, u := 0 }) ∧
      takes .mXor { laneAt { ph := .mix, i := 0, u := 1 } with pr := .performed 16 (blockW 0) } ∧
      takes .mMix0 (laneAt { ph := .mix, i := 0, u := 2 }) ∧ takes .mMix1 (laneAt { ph := .mix, i := 1022, u := 3 }) ∧
      takes .mMix1 (laneAt { ph := .mix, i := 1023, u := 3 }) ∧ takes .lDrain (laneAt { ph := .drain, i := 0, u := 0 }) := by
  decide +kernel

/-- LowHalfMicroSteps, HighHalfMicroSteps: a written register, and both halves. -/
theorem test_hyp_halves (q : Seq) : (laneAt q).x = held (blockW 0) ∧ (0 : BitVec 1) = 0 ∧ (1 : BitVec 1) = 1 := by
  simp [laneAt]

/-- FStoreIssuesASnapshot, MFetchWaitsForTheSlotsWrite: a machine whose lane 0 is at F-STORE with two records in flight, and
one whose lane 0 is at M-FETCH. -/
theorem test_hyp_room :
    selected ((busyWith filling).lane 0).seq = some .fStore ∧ (busyWith filling).records = 2 ∧
      selected ((busyWith (laneAt { ph := .mix, i := 0, u := 0 })).lane 0).seq = some .mFetch := by
  decide +kernel

/-- FStoreIssuesASnapshot: no room; room, with another slot in flight. -/
theorem test_hyp_fStore :
    runMicro .fStore false 0 0 filling = none ∧ (∃ l', runMicro .fStore true 0 0 filling = some l') ∧
      filling.x = held (blockW 0) ∧ (1 : Slot) ≠ filling.seq.i := by
  refine ⟨rfl, ⟨_, rfl⟩, rfl, by decide⟩

/-- MFetchWaitsForTheSlotsWrite: slot 16 of `W`, its write complete. -/
theorem test_hyp_mFetch :
    (16 : Slot) = integerify (readWord 0 (laneAt { ph := .mix, i := 0, u := 0 }) 16) ∧
      (laneAt { ph := .mix, i := 0, u := 0 }).x = held (blockW 0) ∧
      ∃ l', runMicro .mFetch true 0 0 (laneAt { ph := .mix, i := 0, u := 0 }) = some l' := by
  refine ⟨by decide +kernel, rfl, ?_⟩
  rw [← Option.isSome_iff_exists]
  decide +kernel

/-- MXorWaitsForTheData: a performed read. -/
theorem test_hyp_mXor :
    let l := { laneAt { ph := .mix, i := 0, u := 1 } with pr := .performed 1023 (blockW 1) }
    l.pr = .performed 1023 (blockW 1) ∧ l.x = held (blockW 0) ∧ ∃ l', runMicro .mXor true 0 0 l = some l' :=
  ⟨rfl, rfl, _, rfl⟩

/-- LDrainWaitsForAllTransfers. -/
theorem test_hyp_lDrain : ∃ l', runMicro .lDrain true 0 0 (laneAt { ph := .drain, i := 0, u := 0 }) = some l' := ⟨_, rfl⟩

/-- TeWritePerform: a pending write of slot 1, addresses just outside it, another slot. -/
theorem test_hyp_teWrite :
    ((busyWith filling).lane 0).pw.find 1 = some (blockW 1) ∧ ¬(slotAddr 1 ≤ 127 ∧ 127 < slotAddr 1 + 128) ∧
      ¬(slotAddr 1 ≤ 256 ∧ 256 < slotAddr 1 + 128) ∧ (1 : LaneId) ≠ 0 ∧ (0 : Slot) ≠ 1 := by
  refine ⟨by decide +kernel, by decide, by decide, by decide, by decide⟩

/-- A lane with a read of slot 1023 in flight, over a given bank. -/
def reading (m : Memory) : Lane := { laneAt { ph := .mix, i := 0, u := 1 } with pr := .issued 1023, v := m }

/-- TeReadPerform: the last slot, with a value and without one. -/
theorem test_hyp_teRead :
    (reading []).pr = .issued 1023 ∧ (reading []).v.readSlot 1023 = none ∧
      (reading (Memory.writeSlot [] 1023 (blockW 0))).pr = .issued 1023 ∧
      (reading (Memory.writeSlot [] 1023 (blockW 0))).v.readSlot 1023 = some (blockW 0) := by
  refine ⟨rfl, by decide +kernel, rfl, ?_⟩
  exact readSlot_writeSlot_same _ _ _

theorem find_map_mem (l : List (Fin 1023)) {k : Fin 1023} (h : k ∈ l) :
    (PendingWrites.find (l.map fun k => (k.castSucc, blockW 0)) k.castSucc).isSome := by
  induction l with
  | nil => cases h
  | cons a l ih =>
    simp only [List.map_cons, PendingWrites.find]
    split
    · rfl
    · rename_i hne
      rcases List.mem_cons.1 h with e | e
      · exact absurd (by rw [e]) hne
      · exact ih e

theorem find_map_last (l : List (Fin 1023)) : PendingWrites.find (l.map fun k => (k.castSucc, blockW 0)) 1023 = none := by
  induction l with
  | nil => rfl
  | cons a l ih =>
    simp only [List.map_cons, PendingWrites.find]
    split
    · rename_i h
      have := congrArg Fin.val h
      have := a.isLt
      simp at *
      omega
    · exact ih

/-- A pending write of every slot but the last. -/
@[irreducible] def allButLast : PendingWrites := (List.finRange 1023).map fun k => (k.castSucc, blockW 0)

theorem allButLast_wf : allButLast.wf := by
  unfold allButLast
  exact (List.pairwise_lt_finRange 1023).map _ fun a b h => h

theorem allButLast_last : allButLast.find 1023 = none := by
  unfold allButLast
  exact find_map_last _

theorem allButLast_find (k : Fin 1023) : (allButLast.find k.castSucc).isSome := by
  unfold allButLast
  exact find_map_mem _ (List.mem_finRange k)

/-- A lane mid-mix: the read of slot 1023 is in flight, and every other slot's write still is. -/
def fetching : Lane := { reading (Memory.writeSlot [] 1023 (blockW 0)) with pw := allButLast }

theorem inv_fetching : fetching.Inv := by
  refine ⟨wf_writeSlot wf_reset _ _, allButLast_wf, rfl, by simp [fetching, reading, laneAt], allButLast_last, fun k => ?_⟩
  by_cases h : k.val < 1023
  · exact .inl (allButLast_find ⟨k.val, h⟩)
  · have hk : k = 1023 := Fin.ext (by have := k.isLt; simp; omega)
    subst hk
    exact .inr (holds_writeSlot_same _ _ _)

/-- TeReadPerform, last clause: a machine in the invariant with a read in flight. -/
theorem test_hyp_teReadInv : (busyWith fetching).Inv ∧ ((busyWith fetching).lane 0).pr = .issued 1023 := by
  refine ⟨inv_busyWith inv_fetching, ?_⟩
  have : (busyWith fetching).lane 0 = fetching := lane_setLane_same _ _ _
  rw [this]
  rfl

/-- PendingWritesPerformInAnyOrder: two pending writes, performed in both orders. -/
theorem test_hyp_anyOrder :
    (busyWith filling).Inv ∧ (0 : Slot) ≠ 1 ∧
      (∃ a b, perform (.teWrite 0 0) (busyWith filling) = .next a ∧ perform (.teWrite 0 1) a = .next b) ∧
      ∃ a' b', perform (.teWrite 0 1) (busyWith filling) = .next a' ∧ perform (.teWrite 0 0) a' = .next b' :=
  ⟨inv_busyWith inv_filling, by decide, ⟨_, _, rfl, rfl⟩, ⟨_, _, rfl, rfl⟩⟩

/-- CompletionStep: BUSY with every lane idle. -/
theorem test_hyp_cDone : enabled .cDone (busyWith (loaded.lane 0)) = true ∧ (busyWith (loaded.lane 0)).Inv := by
  refine ⟨by decide +kernel, inv_busyWith ?_⟩
  rw [lane_loaded]; exact inv_resting _

/-- A step, no RESET, after which f of the machine is another. -/
def moved {α : Type} [DecidableEq α] (a : Action) (s : State) (f : State → α) : Bool :=
  match perform a s with
  | .next u => f u ≠ f s && !(a.isReset s)
  | .fault _ => false
  | .refused _ => false

/-- The loaded machine, its host wanting one thing. -/
def hosted (c : HostAction) : State := { loaded with script := [c] }

/-- OwnershipOfState: each clause has a step that changes its piece of state. -/
theorem test_hyp_ownership :
    moved .host (hosted (.hwr 0x100 5)) (fun u => (u.lane 0).x) ∧
      moved (.lane 0) (busyWith (laneAt { ph := .bmx, i := 0, u := 0 })) (fun u => (u.lane 0).t.isSome) ∧
      moved (.teWrite 0 1) (busyWith filling) (fun u => (u.lane 0).pw.length) ∧
      moved (.teRead 0) (busyWith (reading (Memory.writeSlot [] 1023 (blockW 0)))) (fun u => (u.lane 0).readToPerform) ∧
      moved (.teWrite 0 1) (busyWith filling) (fun u => (u.lane 0).v.length) ∧
      moved .host (hosted (.hwr 0x000 0x02)) (fun u => (u.lane 0).seq) ∧
      moved .host (hosted (.hwr 0x000 0x02)) (fun u => u.cur) ∧
      moved .host (hosted (.hwr 0x000 0x02)) (fun u => u.status) := by
  decide +kernel

/-- LaneStepReadsItsLaneOnly: two machines with one lane 0, and different lanes 7. -/
theorem test_hyp_laneOnly :
    let s1 := busyWith (laneAt { ph := .bmx, i := 0, u := 0 })
    let s2 := s1.setLane 7 Lane.reset
    s1.lane 0 = s2.lane 0 ∧ s1.cur.h = s2.cur.h ∧ s1.teRoom = s2.teRoom ∧
      (∃ u1, perform (.lane 0) s1 = .next u1) ∧ ∃ u2, perform (.lane 0) s2 = .next u2 := by
  refine ⟨(lane_setLane_ne _ (by decide) _).symm, rfl, ?_, ⟨_, rfl⟩, ⟨_, rfl⟩⟩
  have h1 : (busyWith (laneAt { ph := .bmx, i := 0, u := 0 })).records = 0 := by decide +kernel
  have h2 : ((busyWith (laneAt { ph := .bmx, i := 0, u := 0 })).setLane 7 Lane.reset).records = 0 := by decide +kernel
  unfold State.teRoom
  rw [h1, h2]

/-- LaneStepsCommute: lanes 0 and 7, each with a step that needs nothing of the transfer engine, in both orders. -/
theorem test_hyp_commute :
    let s := (busyWith (laneAt { ph := .bmx, i := 0, u := 0 })).setLane 7 (laneAt { ph := .bmx, i := 0, u := 1 })
    (0 : LaneId) ≠ 7 ∧ enabled (.lane 0) s = true ∧ enabled (.lane 7) s = true ∧
      (∃ a b, perform (.lane 0) s = .next a ∧ enabled (.lane 7) a = true ∧ perform (.lane 7) a = .next b) ∧
      ∃ a b, perform (.lane 7) s = .next a ∧ enabled (.lane 0) a = true ∧ perform (.lane 0) a = .next b := by
  refine ⟨by decide, rfl, rfl, ⟨_, _, rfl, rfl, rfl⟩, ⟨_, _, rfl, rfl, rfl⟩⟩

/-- StatusReadAnswers. -/
theorem test_hyp_status : (hosted (.hrd 0x001)).Inv ∧ (hosted (.hrd 0x001)).script = .hrd 0x001 :: [] :=
  ⟨inv_loaded, rfl⟩

/-- HostHeldWhileBusy, its first two clauses: RESETs beside the script, and a step that is none. -/
theorem test_hyp_resets :
    ({ busyWith filling with resets := 2 } : State).resets = 1 + 1 ∧ Action.host ≠ .reset ∧
      ∃ u, perform .host (hosted (.hrd 0x001)) = .next u :=
  ⟨rfl, by decide, _, rfl⟩

/-- HostHeldWhileBusy: a machine that is busy and one that is not, with any of the host's actions next. -/
theorem test_hyp_held (c : HostAction) :
    let s := { busyWith filling with script := [c] }
    (s.status.busy = true ∧ s.script = c :: [] ∧ (0x000 : HostAddr) ≠ 0x001) ∧
      (hosted c).status.busy = false ∧ (hosted c).script = c :: [] :=
  ⟨⟨rfl, rfl, by decide⟩, rfl, rfl⟩

/-- HostMap: the first and the last word of XWIN. -/
theorem test_hyp_map : hostLoc 0x100 = .xwin 0 0 ∧ hostLoc 0x1FF = .xwin 7 31 ∧ hostLoc 0x170 = .xwin 3 16 := by decide

/-- WaitPollsStatus. -/
theorem test_hyp_wait : (hosted .wait).script = .wait :: [] := rfl

/-- XwinWriteThenRead, at the last word of the last lane. -/
theorem test_hyp_xwin :
    let s := { loaded with script := [HostAction.hwr (xwinAddr 7 31) 1, .hrd (xwinAddr 7 31)] }
    s.ready ∧ s.script = .hwr (xwinAddr 7 31) 1 :: .hrd (xwinAddr 7 31) :: [] ∧ (0 : LaneId) ≠ 7 :=
  ⟨by simp [State.ready, loaded, State.reset], rfl, by decide⟩

/-- UnwrittenWordReadAnswers. -/
theorem test_hyp_unwritten :
    let s := { State.reset with script := [HostAction.hrd (xwinAddr 0 0)] }
    s.ready ∧ (s.lane 0).x[(0 : Fin 32)] = none ∧ s.script = .hrd (xwinAddr 0 0) :: [] :=
  ⟨by simp [State.ready, State.reset], by decide +kernel, rfl⟩

/-- IllegalCommandLatches. -/
theorem test_hyp_illegalWrite :
    (hosted (.hwr 0x000 0)).ready ∧ decode 0 = .error .reservedOp ∧ (hosted (.hwr 0x000 0)).script = .hwr 0x000 0 :: [] :=
  ⟨by simp [State.ready, hosted, loaded, State.reset], by decide, rfl⟩

/-- BadAddressLatches: writes at 0x001, 0x002 and 0x0FF, reads at 0x000, 0x002 and 0x0FF. -/
theorem test_hyp_badAddr :
    (hosted (.hwr 0x001 0)).ready ∧ (hosted (.hrd 0x000)).ready ∧ (0x001 : HostAddr).toNat = 1 ∧
      (0x000 : HostAddr).toNat = 0 ∧ (2 ≤ (0x002 : HostAddr).toNat ∧ (0x002 : HostAddr).toNat ≤ 0xFF) ∧
      (2 ≤ (0x0FF : HostAddr).toNat ∧ (0x0FF : HostAddr).toNat ≤ 0xFF) := by
  refine ⟨by simp [State.ready, hosted, loaded, State.reset], by simp [State.ready, hosted, loaded, State.reset], ?_⟩
  decide

/-- A faulted machine meets the invariant. -/
theorem inv_faulted (c : HostAction) : ((hosted c).raise .badAddr).Inv := by
  refine ⟨inv_loaded.1, fun _ => ?_, ?_, ?_⟩
  · exact inv_loaded.2.1 rfl
  · simp [State.raise, Status.latch, hosted, loaded, State.reset]
  · simp [State.raise, Status.latch, hosted, loaded, State.reset]

/-- FaultedStateDiscards: a write, a read, and a step of CORE. -/
theorem test_hyp_faulted (c : HostAction) :
    ((hosted c).raise .badAddr).Inv ∧ ((hosted c).raise .badAddr).status.fault ≠ none ∧
      ((hosted c).raise .badAddr).script = c :: [] ∧ (0x000 : HostAddr) ≠ 0x001 ∧ Action.isCore .cDone = true :=
  ⟨inv_faulted c, by simp [State.raise, Status.latch], rfl, by decide, rfl⟩

/-- OnlyHostRaisesOnlyResetClears: a step that raises a fault, and one that clears it. -/
theorem test_hyp_raises :
    (∃ u, perform .host (hosted (.hwr 0x000 0)) = .next u ∧ u.status.fault ≠ none) ∧
      ∃ u, perform .host ((hosted .reset).raise .badAddr) = .next u ∧ u.status.fault ≠ some .badAddr :=
  ⟨⟨_, rfl, by decide +kernel⟩, ⟨_, rfl, by decide +kernel⟩⟩

/-- OnlyHostRaisesOnlyResetClears: a step that puts an unwritten read on record, and one of a lane that has one. -/
theorem test_hyp_record :
    let l := { laneAt { ph := .bmx, i := 0, u := 0 } with x := (held (blockW 0)).set 31 none }
    (∃ u, perform (.lane 0) (busyWith l) = .next u ∧ (u.lane 0).unwritten = true) ∧
      ((busyWith l).lane 0).unwritten = false ∧
      ∃ u, perform .cDone (busyWith { loaded.lane 0 with unwritten := true }) = .next u :=
  ⟨⟨_, rfl, by decide +kernel⟩, by decide +kernel, _, rfl⟩

/-- BusyStartsAndEnds: a step that starts a command, and one that ends one. -/
theorem test_hyp_busy :
    (∃ u, perform .host (hosted (.hwr 0x000 0x02)) = .next u ∧ u.status.busy = true) ∧
      ∃ u, perform .cDone (busyWith (loaded.lane 0)) = .next u ∧ u.status.busy = false :=
  ⟨⟨_, rfl, by decide +kernel⟩, ⟨_, rfl, by decide +kernel⟩⟩

/-- ResetEventResetsAll: a RESET of the script, and one beside it, while a command runs. -/
theorem test_hyp_reset :
    ({ busyWith filling with script := [.reset] } : State).script.head? = some .reset ∧
      ({ busyWith filling with resets := 2 } : State).resets ≠ 0 :=
  ⟨rfl, by decide⟩

/-- EveryStepKeepsTheInvariant, NoStepFaultsOrRefuses, BusyIsNeverStuck, CoreStepsShortenTheWork: a busy machine in the
invariant, and an enabled step of CORE in it. -/
theorem test_hyp_invariant :
    (busyWith filling).Inv ∧ (busyWith filling).status.busy = true ∧ Action.isCore (.teWrite 0 1) = true ∧
      enabled (.teWrite 0 1) (busyWith filling) = true ∧ ∃ u, perform (.teWrite 0 1) (busyWith filling) = .next u :=
  ⟨inv_busyWith inv_filling, rfl, rfl, by decide +kernel, _, rfl⟩

/-- EveryStepKeepsTheInvariant, second half: the machine's own step answers a next state. -/
theorem test_hyp_invariantStep : loaded.Inv ∧ ∃ u, step loaded = .next u := ⟨inv_loaded, _, rfl⟩

end Sys2Proof.Tests
end

/-! The steps the schedule chooses among, and rotation of a word: the statements of spec/00_scope.md. -/

namespace Sys2Proof.Machine

/-! ### The enabled steps -/

/-- A slot the pending-write map has a Block for is listed in it. -/
theorem mem_of_find {p : PendingWrites} {j : Slot} {d : Block} (h : p.find j = some d) : (j, d) ∈ p := by
  induction p with
  | nil => simp [PendingWrites.find] at h
  | cons e p ih =>
    by_cases he : e.1 = j
    · subst he
      rw [find_head, Option.some.injEq] at h
      subst h
      exact List.mem_cons_self
    · simp only [PendingWrites.find, he, if_false] at h
      exact List.mem_cons_of_mem e (ih h)

/-- The list of wanted steps misses no enabled one. A write the TE can perform is in the pending-write map of its lane, which
is where the list takes the TE's writes from. -/
theorem mem_wanted_of_enabled {a : Action} {s : State} (h : enabled a s = true) : a ∈ s.wanted := by
  cases a with
  | host => simp [State.wanted]
  | reset => simp [State.wanted]
  | lane t => simp [State.wanted]
  | teRead t => simp [State.wanted]
  | cDone => simp [State.wanted]
  | teWrite t j =>
    obtain ⟨l, hl⟩ := Option.isSome_iff_exists.1 h
    obtain ⟨d, hd, -⟩ := performWrite_some.1 hl
    simpa [State.wanted] using ⟨d, mem_of_find hd⟩

theorem mem_enabledActions {a : Action} {s : State} : a ∈ s.enabledActions ↔ enabled a s = true := by
  rw [State.enabledActions, List.mem_filter]
  exact ⟨And.right, fun h => ⟨mem_wanted_of_enabled h, h⟩⟩

/-! ### The schedule's choice -/

/-- What the schedule can answer: nothing, where no step is enabled; else an enabled step, and it has been asked at most once. -/
theorem chosen_cases (s : State) :
    (s.enabledActions = [] ∧ s.chosen = none) ∨
    ∃ a ∈ s.enabledActions, s.chosen = some a ∧ (s.asked = s ∨ s.asked = { s with tick := s.tick + 1 }) := by
  simp only [State.chosen, State.asked]
  match s.enabledActions with
  | [] => exact .inl ⟨rfl, rfl⟩
  | [a] => exact .inr ⟨a, List.mem_singleton_self a, rfl, .inl rfl⟩
  | a :: b :: rest =>
    have hlt : Config.schedule s.tick % (rest.length + 2) < (a :: b :: rest).length := Nat.mod_lt _ (by omega)
    refine .inr ⟨_, ?_, rfl, .inr rfl⟩
    rw [List.getD_eq_getElem _ _ hlt]
    exact List.getElem_mem hlt

theorem step_of_chosen_none {s : State} (h : s.chosen = none) : step s = .next s := by
  simp [step, advance, h]

theorem step_of_chosen {s : State} {a : Action} (h : s.chosen = some a) : step s = perform a s.asked := by
  simp [step, advance, h]

/-- Settles O60: an enabled step is in the list of wanted ones, and the schedule answers a member of the enabled ones. -/
theorem stepIsAnEnabledAction : Obligations.StepIsAnEnabledAction := by
  refine fun s => ⟨fun a => mem_enabledActions, ?_⟩
  rcases chosen_cases s with ⟨hnil, hnone⟩ | ⟨a, hmem, hsome, hasked⟩
  · have hdis (a : Action) : enabled a s = false := by
      rw [Bool.eq_false_iff, Ne, ← mem_enabledActions, hnil]
      exact List.not_mem_nil
    exact .inl ⟨hdis, hnone, step_of_chosen_none hnone⟩
  · refine .inr ⟨a, hsome, mem_enabledActions.1 hmem, ?_⟩
    rw [step_of_chosen hsome]
    exact hasked.imp (congrArg (perform a)) (congrArg (perform a))

/-! ### Rotation of a word -/

/-- R13, on numbers. -/
theorem toNat_rotl (a : Word) (r : Nat) :
    (rotl a r).toNat = ((a.toNat <<< r) % 2 ^ 32 ||| a.toNat >>> (32 - r)) := by
  rw [rotl, BitVec.toNat_or, BitVec.toNat_shiftLeft, BitVec.toNat_ushiftRight]

/-- A rotation by less than the width of a word needs no reduction of its amount. -/
theorem rotl_eq_rotateLeft (a : Word) {r : Nat} (h : r < 32) : rotl a r = a.rotateLeft r := by
  rw [rotl, BitVec.rotateLeft_def, Nat.mod_eq_of_lt h]

/-- Settles O6, by the two shifts that rotation left is. -/
theorem rotlRotatesLeft : Obligations.RotlRotatesLeft :=
  fun a r _ h => ⟨toNat_rotl a r, rotl_eq_rotateLeft a h⟩

end Sys2Proof.Machine

/-! The state of CORE: its reset values, who writes which piece of it, and the invariant every step keeps
(spec/10_state.md). -/

namespace Sys2Proof.Machine

/-! ### What a micro-step makes of its lane -/

/-- The sequencer state that micro-step m leaves behind (R136 to R143, R187, R188). -/
def Seq.after (q : Seq) : Micro → Seq
  | .sExec => Seq.idle
  | .bMix0 => { ph := .bmx, i := 0, u := 1 }
  | .bMix1 => Seq.idle
  | .fStore => { ph := .fill, i := q.i, u := 1 }
  | .fMix0 => { ph := .fill, i := q.i, u := 2 }
  | .fMix1 => if lastIter q.i then { ph := .mix, i := 0, u := 0 } else { ph := .fill, i := nextIter q.i, u := 0 }
  | .mFetch => { ph := .mix, i := q.i, u := 1 }
  | .mXor => { ph := .mix, i := q.i, u := 2 }
  | .mMix0 => { ph := .mix, i := q.i, u := 3 }
  | .mMix1 => if lastIter q.i then { ph := .drain, i := 0, u := 0 } else { ph := .mix, i := nextIter q.i, u := 0 }
  | .lDrain => Seq.idle

/-- The phase in which `seq` selects micro-step m. -/
def Micro.phase : Micro → Phase
  | .sExec => .sal
  | .bMix0 | .bMix1 => .bmx
  | .fStore | .fMix0 | .fMix1 => .fill
  | .mFetch | .mXor | .mMix0 | .mMix1 => .mix
  | .lDrain => .drain

/-- The value of `u` at which a legal `seq` selects micro-step m. -/
def Micro.index : Micro → Fin 4
  | .sExec | .bMix0 | .fStore | .mFetch | .lDrain => 0
  | .bMix1 | .fMix0 | .mXor => 1
  | .fMix1 | .mMix0 => 2
  | .mMix1 => 3

/-- The micro-steps that issue or take a transfer (R136, R139, R140). -/
def Micro.transfers : Micro → Bool
  | .fStore | .mFetch | .mXor => true
  | .sExec | .bMix0 | .bMix1 | .fMix0 | .fMix1 | .mMix0 | .mMix1 | .lDrain => false

/-- A legal sequencer state that selects a micro-step is in its phase and at its index. -/
theorem selected_some {q : Seq} {m : Micro} (hq : q.legal = true) (h : selected q = some m) :
    q.ph = m.phase ∧ q.u = m.index := by
  obtain ⟨ph, i, u⟩ := q
  cases ph with
  | idle => simp [selected] at h
  | sal | drain => cases h; simp_all [Seq.legal, Micro.phase, Micro.index]
  | bmx =>
    simp only [selected] at h
    split at h
    · cases h; simp_all [Micro.phase, Micro.index]
    · split at h <;> cases h; simp_all [Micro.phase, Micro.index]
  | fill | mix =>
    simp only [selected] at h
    fin_cases u <;> simp at h <;> subst h <;> exact ⟨rfl, rfl⟩

/-- A lane at rest has no step. -/
theorem laneNext_idle {room : Bool} {h : BitVec 1} {s : LaneId} {l : Lane} (hi : l.seq.ph = .idle) :
    laneNext room h s l = none := by
  simp [laneNext, selected, hi]

/-- What every micro-step does to its lane beside its Block register: it leaves the bank, moves the sequencer on, and touches
the transfers only where it issues or takes one (R36, R136 to R143, R187, R188). -/
theorem runMicro_frame {m : Micro} {room : Bool} {h : BitVec 1} {s : LaneId} {l l' : Lane}
    (hr : runMicro m room h s l = some l') :
    l'.v = l.v ∧ l'.seq = l.seq.after m ∧ (m.transfers = false → l'.pw = l.pw ∧ l'.pr = l.pr) := by
  cases m with
  | sExec => cases hr; simp only [microSExec]; split <;> simp [Seq.after]
  | bMix0 | fMix0 | mMix0 => cases hr; exact ⟨mixLo_v s l, rfl, fun _ => ⟨mixLo_pw s l, mixLo_pr s l⟩⟩
  | bMix1 | fMix1 | mMix1 => cases hr; exact ⟨mixHi_v s l, rfl, fun _ => ⟨mixHi_pw s l, mixHi_pr s l⟩⟩
  | fStore => obtain ⟨-, rfl⟩ := fStore_some.1 hr; exact ⟨rfl, rfl, nofun⟩
  | mFetch => obtain ⟨-, -, -, rfl⟩ := mFetch_some.1 hr; exact ⟨rfl, rfl, nofun⟩
  | mXor => obtain ⟨j, d, -, rfl⟩ := mXor_some.1 hr; exact ⟨rfl, rfl, nofun⟩
  | lDrain => obtain ⟨-, -, rfl⟩ := lDrain_some.1 hr; exact ⟨rfl, rfl, fun _ => ⟨rfl, rfl⟩⟩

/-- A micro-step leaves a legal sequencer state. -/
theorem legal_after (q : Seq) (m : Micro) : (q.after m).legal = true := by
  cases m with
  | fMix1 | mMix1 => simp only [Seq.after]; split <;> rfl
  | sExec | bMix0 | bMix1 | fStore | fMix0 | mFetch | mXor | mMix0 | lDrain => rfl

/-- A micro-step keeps the canonical form of the pending-write set: only F-STORE adds to it, by `issue_write`. -/
theorem runMicro_pw_wf {m : Micro} {room : Bool} {h : BitVec 1} {s : LaneId} {l l' : Lane} (hw : l.pw.wf)
    (hr : runMicro m room h s l = some l') : l'.pw.wf := by
  obtain ⟨-, -, hkeep⟩ := runMicro_frame hr
  cases m with
  | fStore => obtain ⟨-, rfl⟩ := fStore_some.1 hr; exact wf_insert hw _ _
  | mFetch => obtain ⟨-, -, -, rfl⟩ := mFetch_some.1 hr; exact hw
  | mXor => obtain ⟨j, d, -, rfl⟩ := mXor_some.1 hr; exact hw
  | sExec | bMix0 | bMix1 | fMix0 | fMix1 | mMix0 | mMix1 | lDrain => rw [(hkeep rfl).1]; exact hw

/-! ### The transfers of a lane, phase by phase -/

/-- The number of slots whose writes the fill phase at `seq` has issued: 0 to this number less one (R136, R138). -/
def Seq.issuedCount (q : Seq) : Nat := if q.u = 0 then q.i.val else q.i.val + 1

theorem fillIssued_iff (q : Seq) (k : Slot) : fillIssued q k ↔ k.val < q.issuedCount := by
  simp only [fillIssued, Seq.issuedCount, Fin.ext_iff]
  split <;> simp_all
  omega

/-- The pending writes are of the slots below n, and these are all stored: what the fill phase keeps. -/
def Lane.filledTo (l : Lane) (n : Nat) : Prop :=
  (∀ k, (l.pw.find k).isSome → k.val < n) ∧ ∀ k : Slot, k.val < n → l.stored k

/-- The phases in which a lane has no transfer. -/
def Phase.quiet : Phase → Bool
  | .idle | .sal | .bmx => true
  | .fill | .mix | .drain => false

theorem transfersInv_quiet {l : Lane} (h : l.seq.ph.quiet = true) :
    l.transfersInv ↔ l.pw = [] ∧ l.pr = .empty := by
  cases hph : l.seq.ph with
  | idle | sal | bmx => simp only [Lane.transfersInv, hph]
  | fill | mix | drain => rw [hph] at h; cases h

theorem transfersInv_fill {l : Lane} (h : l.seq.ph = .fill) :
    l.transfersInv ↔ l.pr = .empty ∧ l.filledTo l.seq.issuedCount := by
  simp only [Lane.transfersInv, h, fillIssued_iff, Lane.filledTo]

theorem transfersInv_mix {l : Lane} (h : l.seq.ph = .mix) :
    l.transfersInv ↔ (l.pr = .empty ↔ l.seq.u ≠ 1) ∧ l.readSafe ∧ ∀ k, l.stored k := by
  simp only [Lane.transfersInv, h]

theorem transfersInv_drain {l : Lane} (h : l.seq.ph = .drain) : l.transfersInv ↔ l.pr = .empty := by
  simp only [Lane.transfersInv, h]

/-- With no read in flight there is none of an unfinished write. -/
theorem readSafe_empty {l : Lane} (h : l.pr = .empty) : l.readSafe := by
  simp [Lane.readSafe, h]

theorem readSafe_congr {l l' : Lane} (hpw : l'.pw = l.pw) (hpr : l'.pr = l.pr) : l'.readSafe ↔ l.readSafe := by
  simp only [Lane.readSafe, hpw, hpr]

theorem stored_congr {l l' : Lane} (hv : l'.v = l.v) (hpw : l'.pw = l.pw) (k : Slot) : l'.stored k ↔ l.stored k := by
  simp only [Lane.stored, hv, hpw]

theorem filledTo_congr {l l' : Lane} (hv : l'.v = l.v) (hpw : l'.pw = l.pw) (n : Nat) :
    l'.filledTo n ↔ l.filledTo n := by
  simp only [Lane.filledTo, stored_congr hv hpw, hpw]

/-- Where every slot has been filled, every slot is stored. -/
theorem stored_of_filledTo {l : Lane} (h : l.filledTo 1024) (k : Slot) : l.stored k := h.2 k k.isLt

/-- F-STORE issues the write of the next slot. -/
theorem filledTo_issueWrite {l : Lane} {i : Slot} (h : l.filledTo i.val) (d : Block) :
    (l.issueWrite i d).filledTo (i.val + 1) := by
  refine ⟨fun k hk => ?_, fun k hk => ?_⟩
  · by_cases hki : k = i
    · subst hki; omega
    · rw [Lane.issueWrite, find_insert_ne _ hki] at hk
      exact Nat.lt_succ_of_lt (h.1 k hk)
  · by_cases hki : k = i
    · subst hki; exact .inl (by simp [Lane.issueWrite, find_insert_same])
    · have : k.val ≠ i.val := fun e => hki (Fin.ext e)
      have hs := h.2 k (by omega)
      rwa [Lane.stored, Lane.issueWrite, find_insert_ne _ hki]

/-! ### The micro-steps keep the invariant of their lane -/

/-- F-MIX1 moves on to the next slot, and from the last one to the mix phase. -/
theorem transfersInv_fMix1 {l : Lane} {q : Seq} (hl : l.seq = q.after .fMix1) (hu : q.u = 2) (hpr : l.pr = .empty)
    (hf : l.filledTo q.issuedCount) : l.transfersInv := by
  have hn : q.issuedCount = q.i.val + 1 := by simp [Seq.issuedCount, hu]
  rw [hn] at hf
  by_cases hi : lastIter q.i = true
  · have hq : l.seq = { ph := .mix, i := 0, u := 0 } := by simp [hl, Seq.after, hi]
    rw [lastIter_iff] at hi
    rw [hi] at hf
    exact (transfersInv_mix (by rw [hq])).2 ⟨by simp [hpr, hq], readSafe_empty hpr, stored_of_filledTo hf⟩
  · have hq : l.seq = { ph := .fill, i := nextIter q.i, u := 0 } := by simp [hl, Seq.after, hi]
    rw [lastIter_iff] at hi
    have hc : l.seq.issuedCount = q.i.val + 1 := by
      rw [hq]; exact nextIter_val (by omega)
    exact (transfersInv_fill (by rw [hq])).2 ⟨hpr, by rwa [hc]⟩

/-- M-MIX1 moves on to the next iteration, and from the last one to the drain, with no read in flight. -/
theorem transfersInv_mMix1 {l : Lane} {q : Seq} (hl : l.seq = q.after .mMix1) (hpr : l.pr = .empty)
    (hs : ∀ k, l.stored k) : l.transfersInv := by
  by_cases hi : lastIter q.i = true
  · have hq : l.seq = { ph := .drain, i := 0, u := 0 } := by simp [hl, Seq.after, hi]
    exact (transfersInv_drain (by rw [hq])).2 hpr
  · have hq : l.seq = { ph := .mix, i := nextIter q.i, u := 0 } := by simp [hl, Seq.after, hi]
    exact (transfersInv_mix (by rw [hq])).2 ⟨by simp [hpr, hq], readSafe_empty hpr, hs⟩

/-- A micro-step leaves transfers that agree with the phase it leads to. -/
theorem transfersInv_runMicro {m : Micro} {room : Bool} {h : BitVec 1} {s : LaneId} {l l' : Lane}
    (ht : l.transfersInv) (hph : l.seq.ph = m.phase) (hu : l.seq.u = m.index)
    (hr : runMicro m room h s l = some l') : l'.transfersInv := by
  obtain ⟨hv, hq, hkeep⟩ := runMicro_frame hr
  have hquiet (hm : m.transfers = false) (hp : m.phase.quiet = true) (hp' : (l.seq.after m).ph.quiet = true) :
      l'.transfersInv := by
    obtain ⟨hpw, hpr⟩ := hkeep hm
    rw [transfersInv_quiet (by rwa [hq]), hpw, hpr]
    exact (transfersInv_quiet (by rwa [hph])).1 ht
  cases m with
  | sExec | bMix0 | bMix1 => exact hquiet rfl rfl rfl
  | fStore =>
    rw [transfersInv_fill hph] at ht
    obtain ⟨hpr, hf⟩ := ht
    have hn : l.seq.issuedCount = l.seq.i.val := by rw [Seq.issuedCount, hu]; rfl
    rw [hn] at hf
    rw [transfersInv_fill (by rw [hq]; rfl), hq]
    obtain ⟨-, rfl⟩ := fStore_some.1 hr
    exact ⟨hpr, filledTo_issueWrite hf (readBlock s l)⟩
  | fMix0 =>
    obtain ⟨hpw, hpr⟩ := hkeep rfl
    rw [transfersInv_fill hph] at ht
    have hn : l.seq.issuedCount = l.seq.i.val + 1 := by rw [Seq.issuedCount, hu]; rfl
    rw [hn] at ht
    rw [transfersInv_fill (by rw [hq]; rfl), hq, hpr, filledTo_congr hv hpw]
    exact ht
  | fMix1 =>
    obtain ⟨hpw, hpr⟩ := hkeep rfl
    obtain ⟨he, hf⟩ := (transfersInv_fill hph).1 ht
    exact transfersInv_fMix1 hq hu (hpr.trans he) ((filledTo_congr hv hpw _).2 hf)
  | mFetch =>
    obtain ⟨-, -, hs⟩ := (transfersInv_mix hph).1 ht
    rw [transfersInv_mix (by rw [hq]; rfl), hq]
    obtain ⟨-, -, hfree, rfl⟩ := mFetch_some.1 hr
    exact ⟨by simp [Seq.after], hfree, hs⟩
  | mXor =>
    obtain ⟨-, -, hs⟩ := (transfersInv_mix hph).1 ht
    rw [transfersInv_mix (by rw [hq]; rfl), hq]
    obtain ⟨j, d, -, rfl⟩ := mXor_some.1 hr
    exact ⟨by simp [Seq.after], trivial, hs⟩
  | mMix0 =>
    obtain ⟨hpw, hpr⟩ := hkeep rfl
    rw [transfersInv_mix hph, hu] at ht
    rw [transfersInv_mix (by rw [hq]; rfl), hq, hpr, readSafe_congr hpw hpr]
    simpa [stored_congr hv hpw, Seq.after, Micro.index] using ht
  | mMix1 =>
    obtain ⟨hpw, hpr⟩ := hkeep rfl
    obtain ⟨he, -, hs⟩ := (transfersInv_mix hph).1 ht
    refine transfersInv_mMix1 hq (hpr.trans (he.2 (by rw [hu]; decide))) fun k => ?_
    exact (stored_congr hv hpw k).2 (hs k)
  | lDrain =>
    obtain ⟨hpw, hpr, rfl⟩ := lDrain_some.1 hr
    exact (transfersInv_quiet rfl).2 ⟨hpw, hpr⟩

/-- The step of a lane keeps the invariant of the lane. -/
theorem inv_laneNext {room : Bool} {h : BitVec 1} {s : LaneId} {l l' : Lane} (hl : l.Inv)
    (hn : laneNext room h s l = some l') : l'.Inv := by
  obtain ⟨hv, hpw, hq, ht⟩ := hl
  obtain ⟨m, hsel, hr⟩ := laneNext_some.1 hn
  obtain ⟨hph, hu⟩ := selected_some hq hsel
  obtain ⟨hv', hq', -⟩ := runMicro_frame hr
  exact ⟨by rwa [hv'], runMicro_pw_wf hpw hr, by rw [hq']; exact legal_after l.seq m, transfersInv_runMicro ht hph hu hr⟩

/-! ### The transfer engine keeps the invariant of the lane it serves -/

/-- A lane with the write of slot j performed. -/
def Lane.wrote (l : Lane) (j : Slot) (d : Block) : Lane := { l with v := l.v.writeSlot j d, pw := l.pw.remove j }

theorem find_remove_none {p : PendingWrites} (j : Slot) {k : Slot} (h : p.find k = none) :
    (p.remove j).find k = none := by
  by_cases hk : k = j
  · rw [hk]; exact find_remove_same p j
  · rwa [find_remove_ne p hk]

/-- What is pending after a write was performed was pending before it. -/
theorem isSome_of_find_remove {p : PendingWrites} {j k : Slot} (h : ((p.remove j).find k).isSome) :
    (p.find k).isSome := by
  rw [Option.isSome_iff_ne_none] at h ⊢
  exact mt (find_remove_none j) h

/-- A stored slot stays stored: the slot performed now stands in the bank, the others are as they were. -/
theorem stored_wrote {l : Lane} {k : Slot} (h : l.stored k) (j : Slot) (d : Block) : (l.wrote j d).stored k := by
  by_cases hk : k = j
  · subst hk; exact .inr (holds_writeSlot_same l.v k d)
  · rwa [Lane.stored, Lane.wrote, find_remove_ne l.pw hk, holds_writeSlot_other l.v hk]

theorem readSafe_wrote {l : Lane} (h : l.readSafe) (j : Slot) (d : Block) : (l.wrote j d).readSafe := by
  simp only [Lane.readSafe, Lane.wrote] at h ⊢
  cases hpr : l.pr with
  | empty => trivial
  | issued k => simp only [hpr] at h; exact find_remove_none j h
  | performed k _ => simp only [hpr] at h; exact find_remove_none j h

theorem transfersInv_wrote {l : Lane} (h : l.transfersInv) (j : Slot) (d : Block) : (l.wrote j d).transfersInv := by
  have hseq : (l.wrote j d).seq = l.seq := rfl
  cases hph : l.seq.ph with
  | idle | sal | bmx =>
    obtain ⟨hpw, hpr⟩ := (transfersInv_quiet (by rw [hph]; rfl)).1 h
    rw [transfersInv_quiet (by rw [hseq, hph]; rfl)]
    exact ⟨by simp [Lane.wrote, hpw], hpr⟩
  | fill =>
    obtain ⟨hpr, hlt, hs⟩ := (transfersInv_fill hph).1 h
    rw [transfersInv_fill (by rwa [hseq])]
    exact ⟨hpr, fun k hk => hlt k (isSome_of_find_remove hk), fun k hk => stored_wrote (hs k hk) j d⟩
  | mix =>
    obtain ⟨hpr, hsafe, hs⟩ := (transfersInv_mix hph).1 h
    rw [transfersInv_mix (by rwa [hseq])]
    exact ⟨hpr, readSafe_wrote hsafe j d, fun k => stored_wrote (hs k) j d⟩
  | drain =>
    rw [transfersInv_drain (by rwa [hseq])]
    exact (transfersInv_drain hph).1 h

/-- TE write-perform keeps the invariant of the lane. -/
theorem inv_performWrite {l l' : Lane} {j : Slot} (h : l.Inv) (hp : l.performWrite j = some l') : l'.Inv := by
  obtain ⟨hv, hpw, hq, ht⟩ := h
  obtain ⟨d, -, rfl⟩ := performWrite_some.1 hp
  exact ⟨wf_writeSlot hv j d, wf_remove hpw j, hq, transfersInv_wrote ht j d⟩

/-- A read is in flight in the mix phase only. -/
theorem phase_of_pr {l : Lane} (h : l.transfersInv) (hpr : l.pr ≠ .empty) : l.seq.ph = .mix := by
  cases hph : l.seq.ph with
  | mix => rfl
  | idle | sal | bmx => exact absurd ((transfersInv_quiet (by rw [hph]; rfl)).1 h).2 hpr
  | fill => exact absurd ((transfersInv_fill hph).1 h).1 hpr
  | drain => exact absurd ((transfersInv_drain hph).1 h) hpr

/-- TE read-perform keeps the invariant of the lane: the read stays in flight, of the same slot. -/
theorem inv_performRead {l : Lane} (h : l.Inv) {j : Slot} (hpr : l.pr = .issued j) (d : Block) :
    Lane.Inv { l with pr := .performed j d } := by
  obtain ⟨hv, hpw, hq, ht⟩ := h
  have hph : l.seq.ph = .mix := phase_of_pr ht (by simp [hpr])
  obtain ⟨hu, hsafe, hs⟩ := (transfersInv_mix hph).1 ht
  have hfree : l.pw.find j = none := by simpa [Lane.readSafe, hpr] using hsafe
  refine ⟨hv, hpw, hq, ?_⟩
  rw [transfersInv_mix (l := { l with pr := .performed j d }) hph]
  exact ⟨by simpa [hpr] using hu, hfree, hs⟩

/-! ### Lanes the host writes, starts or resets -/

/-- The invariant of a lane does not look at its Block register. -/
theorem inv_with_x {l : Lane} (h : l.Inv) (x : Vector (Option Word) 32) : Lane.Inv { l with x := x } := h

/-- A lane at rest that a command starts meets the invariant: nothing is in flight, and no slot has been filled yet. -/
theorem inv_started {l : Lane} (h : l.Inv) (hidle : l.seq.ph = .idle) (i : Instr) :
    Lane.Inv { l with seq := { ph := startPhase i, i := 0, u := 0 } } := by
  obtain ⟨hv, hpw, -, ht⟩ := h
  obtain ⟨hnil, hpr⟩ := (transfersInv_quiet (by rw [hidle]; rfl)).1 ht
  rcases startPhase_cases i with hp | hp | hp
  · rw [hp]; exact ⟨hv, hpw, rfl, (transfersInv_quiet rfl).2 ⟨hnil, hpr⟩⟩
  · rw [hp]; exact ⟨hv, hpw, rfl, (transfersInv_quiet rfl).2 ⟨hnil, hpr⟩⟩
  · rw [hp]
    refine ⟨hv, hpw, rfl, (transfersInv_fill rfl).2 ⟨hpr, fun k hk => ?_, fun k hk => ?_⟩⟩
    · simp [hnil, PendingWrites.find] at hk
    · exact absurd hk (Nat.not_lt_zero k.val)

/-- A lane after reset meets the invariant, whatever its counters. -/
theorem inv_laneReset (n : Nat) (b : Bool) : Lane.Inv { Lane.reset with draws := n, unwritten := b } :=
  ⟨wf_reset, List.Pairwise.nil, rfl, (transfersInv_quiet rfl).2 ⟨rfl, rfl⟩⟩

/-! ### What the host's step does to CORE -/

/-- The two machines hold the same in all of CORE: the lanes, `CUR` and `STATUS`. -/
structure SameCore (s u : State) : Prop where
  lanes : u.lanes = s.lanes
  cur : u.cur = s.cur
  status : u.status = s.status

theorem SameCore.lane {s u : State} (h : SameCore s u) (t : LaneId) : u.lane t = s.lane t := by
  rw [State.lane, h.lanes, State.lane]

/-- A host read changes nothing of CORE, but that it may latch BADADDR, at an address other than that of `STATUS`. -/
theorem hostRead_core (a : HostAddr) (s : State) :
    SameCore s (hostRead a s) ∨ (a ≠ statusAddr ∧ SameCore (s.raise .badAddr) (hostRead a s)) := by
  rcases hostRead_cases a s with ⟨v, he⟩ | he | ⟨-, ha, he⟩
  · rw [he]; exact .inl ⟨rfl, rfl, rfl⟩
  · rw [he]; exact .inl ⟨rfl, rfl, rfl⟩
  · rw [he]; exact .inr ⟨ha, rfl, rfl, rfl⟩

/-- What the host's step does to CORE: nothing; a reset; or, while BUSY = 0, one of a fault latched, a Block register word
written and a command accepted (R180 to R186). -/
theorem perform_host_core {s u : State} (h : perform .host s = .next u) :
    SameCore s u ∨ (s.script.head? = some .reset ∧ SameCore s.resetEvent u) ∨
    (s.status.busy = false ∧
      ((∃ c, SameCore (s.raise c) u) ∨ (∃ t w v, SameCore (s.putWord t w v) u) ∨
        (s.ready ∧ ∃ i : Instr, SameCore (s.accept i.fields (startPhase i) (starts i)) u))) := by
  rcases perform_cases h with ⟨-, rfl⟩ | ⟨-, hc⟩
  · exact .inl ⟨rfl, rfl, rfl⟩
  obtain ⟨x, rest, hs, hheld, ht⟩ : ∃ x rest, s.script = x :: rest ∧ x.isHeld s.status.busy = false ∧
      takeHost x { s with script := rest } = .next u := by simpa using hc
  cases x with
  | hrd a =>
    cases ht
    rcases hostRead_core a { s with script := rest } with hk | ⟨ha, hk⟩
    · exact .inl ⟨hk.lanes, hk.cur, hk.status⟩
    · have hb : s.status.busy = false := by simpa [HostAction.isHeld, ha] using hheld
      exact .inr (.inr ⟨hb, .inl ⟨.badAddr, hk.lanes, hk.cur, hk.status⟩⟩)
  | hwr a v =>
    have hb : s.status.busy = false := hheld
    rcases hostWrite_cases ht with ⟨-, rfl⟩ | ⟨-, ⟨c, rfl⟩ | ⟨t, w, rfl⟩ | ⟨-, i, -, -, rfl⟩⟩
    · exact .inl ⟨rfl, rfl, rfl⟩
    · exact .inr (.inr ⟨hb, .inl ⟨c, rfl, rfl, rfl⟩⟩)
    · exact .inr (.inr ⟨hb, .inr (.inl ⟨t, w, v, rfl, rfl, rfl⟩)⟩)
    · rcases submit_cases { s with script := rest } i.fields (startPhase i) (starts i) with ⟨-, he⟩ | ⟨hr, he⟩
      · rw [he]; exact .inl ⟨rfl, rfl, rfl⟩
      · rw [he]; exact .inr (.inr ⟨hb, .inr (.inr ⟨hr, i, rfl, rfl, rfl⟩)⟩)
  | reset =>
    cases ht
    exact .inr (.inl ⟨by simp [hs], rfl, rfl, rfl⟩)
  | wait =>
    simp only [takeHost, hostRead_status, Host.Outcome.next.injEq] at ht
    subst ht
    exact .inl ⟨rfl, rfl, rfl⟩

/-! ### The invariant of the machine -/

theorem allIdle_iff (s : State) : s.allIdle = true ↔ ∀ t, (s.lane t).seq.ph = .idle := by
  simp [State.allIdle]

theorem inv_lane {s : State} (h : s.Inv) (t : LaneId) : (s.lane t).Inv := h.1 t

/-- While BUSY = 0 every lane is at rest (R189). -/
theorem idle_of_inv {s : State} (h : s.Inv) (hb : s.status.busy = false) (t : LaneId) : (s.lane t).seq.ph = .idle := by
  obtain ⟨-, hidle, -, -⟩ := h
  exact (allIdle_iff s).1 (hidle hb) t

/-- The invariant speaks of CORE only. -/
theorem SameCore.inv {s u : State} (h : SameCore s u) (hs : s.Inv) : u.Inv := by
  obtain ⟨hlane, hidle, hdone, hfault⟩ := hs
  rw [allIdle_iff] at hidle
  have hst := h.status
  refine ⟨fun t => ?_, fun hb => (allIdle_iff u).2 fun t => ?_, by rwa [hst], by rwa [hst]⟩
  · rw [h.lane t]; exact hlane t
  · rw [h.lane t]; exact hidle (by rwa [← hst]) t

/-- A machine whose lanes are all at rest, and which is not BUSY, meets the invariant where its lanes do. -/
theorem inv_of_idle {s : State} (hl : ∀ t, (s.lane t).Inv) (hidle : ∀ t, (s.lane t).seq.ph = .idle)
    (hb : s.status.busy = false) : s.Inv :=
  ⟨hl, fun _ => (allIdle_iff s).2 hidle, by simp [hb], by simp [hb]⟩

/-- A lane may be replaced by one that meets the invariant, and that rests where the machine is not BUSY. -/
theorem inv_setLane {s : State} {t : LaneId} {l : Lane} (h : s.Inv) (hl : l.Inv)
    (hidle : s.status.busy = false → l.seq.ph = .idle) : (s.setLane t l).Inv := by
  have hrest := idle_of_inv h
  obtain ⟨hlane, -, hst⟩ := h
  refine ⟨fun r => ?_, fun hb => (allIdle_iff _).2 fun r => ?_, hst⟩
  · rw [lane_setLane]; split
    · exact hl
    · exact hlane r
  · rw [lane_setLane]; split
    · exact hidle hb
    · exact hrest hb r

theorem inv_resetEvent (s : State) : s.resetEvent.Inv := by
  refine inv_of_idle (fun t => ?_) (fun t => ?_) rfl
  · rw [lane_resetEvent]; exact inv_laneReset _ _
  · rw [lane_resetEvent]; rfl

/-- A fault is latched in a machine that is not BUSY (R206). -/
theorem inv_raise {s : State} (h : s.Inv) (hb : s.status.busy = false) (c : FaultCode) : (s.raise c).Inv :=
  inv_of_idle (inv_lane (s := s) h) (idle_of_inv (s := s) h hb) hb

theorem inv_putWord {s : State} (h : s.Inv) (t : LaneId) (w : Fin 32) (v : Word) : (s.putWord t w v).Inv :=
  inv_setLane h (inv_with_x (inv_lane h t) _) fun hb => idle_of_inv h hb t

/-- Command accept, in a state that is ready for it (R185). -/
theorem inv_accept {s : State} (h : s.Inv) (hr : s.ready) (f : Fields) (i : Instr) :
    (s.accept f (startPhase i) (starts i)).Inv := by
  obtain ⟨hb, hf⟩ := hr
  refine ⟨fun t => ?_, ?_, ?_, fun _ => hf⟩
  · rw [lane_accept]; split
    · exact inv_started (inv_lane h t) (idle_of_inv h hb t) i
    · exact inv_lane h t
  · simp [State.accept]
  · simp [State.accept]

/-- Command completion: every lane is at rest (R189). -/
theorem inv_complete {s : State} (h : s.Inv) (hc : s.canComplete = true) : s.complete.Inv := by
  have hidle : s.allIdle = true := by
    rw [State.canComplete, Bool.and_eq_true] at hc
    exact hc.2
  exact inv_of_idle (inv_lane (s := s) h) ((allIdle_iff s).1 hidle) rfl

/-- The host's step keeps the invariant. -/
theorem inv_perform_host {s u : State} (hs : s.Inv) (h : perform .host s = .next u) : u.Inv := by
  rcases perform_host_core h with hk | ⟨-, hk⟩ | ⟨hb, ⟨c, hk⟩ | ⟨t, w, v, hk⟩ | ⟨hr, i, hk⟩⟩
  · exact hk.inv hs
  · exact hk.inv (inv_resetEvent s)
  · exact hk.inv (inv_raise hs hb c)
  · exact hk.inv (inv_putWord hs t w v)
  · exact hk.inv (inv_accept hs hr i.fields i)

/-- Every step of every agent keeps the invariant. -/
theorem inv_perform {a : Action} {s u : State} (hs : s.Inv) (h : perform a s = .next u) : u.Inv := by
  rcases perform_cases h with ⟨-, rfl⟩ | ⟨-, hc⟩
  · exact hs
  rcases hc with ⟨t, l, -, hl, rfl⟩ | ⟨t, j, d, -, hd, rfl⟩ | ⟨t, j, d, -, hpr, -, rfl⟩ | ⟨-, hcan, rfl⟩ |
    ⟨-, n, -, rfl⟩ | ⟨rfl, -⟩
  · refine inv_setLane hs (inv_laneNext (inv_lane hs t) hl) fun hb => ?_
    rw [laneNext_idle (idle_of_inv hs hb t)] at hl
    cases hl
  · exact inv_setLane hs (inv_performWrite (inv_lane hs t) (performWrite_some.2 ⟨d, hd, rfl⟩)) fun hb => idle_of_inv hs hb t
  · exact inv_setLane hs (inv_performRead (inv_lane hs t) hpr d) fun hb => idle_of_inv hs hb t
  · exact inv_complete hs hcan
  · exact SameCore.inv ⟨rfl, rfl, rfl⟩ (inv_resetEvent s)
  · exact inv_perform_host hs h

/-- The count of schedule choices is no part of CORE. -/
theorem sameCore_tick (s : State) (n : Nat) : SameCore s { s with tick := n } := ⟨rfl, rfl, rfl⟩

/-- The machine's own step is the step of some agent, or none. -/
theorem inv_step {s u : State} (hs : s.Inv) (h : step s = .next u) : u.Inv := by
  obtain ⟨-, ⟨-, -, hstay⟩ | ⟨a, -, -, ha | ha⟩⟩ := stepIsAnEnabledAction s
  · rw [hstay] at h; cases h; exact hs
  · exact inv_perform hs (ha ▸ h)
  · exact inv_perform ((sameCore_tick s _).inv hs) (ha ▸ h)

/-- Settles O56: each agent's step keeps the invariant of the lane it touches, and `STATUS` agrees with the lanes. -/
theorem everyStepKeepsTheInvariant : Obligations.EveryStepKeepsTheInvariant :=
  ⟨fun _ _ _ hs h => inv_perform hs h, fun _ _ hs h => inv_step hs h⟩

/-! ### Who writes what -/

/-- A step that replaces a lane changes a piece of that lane only, and only where the piece is another. -/
theorem changed_setLane {α : Type} {s : State} {t r : LaneId} {l : Lane} {f : Lane → α}
    (h : f ((s.setLane t l).lane r) ≠ f (s.lane r)) : r = t ∧ f l ≠ f (s.lane t) := by
  by_cases hr : r = t
  · subst hr; exact ⟨rfl, by rwa [lane_setLane_same] at h⟩
  · exact absurd (by rw [lane_setLane_ne s hr]) h

/-- No micro-step writes the bank of its lane. -/
theorem laneNext_v {room : Bool} {h : BitVec 1} {s : LaneId} {l l' : Lane} (hn : laneNext room h s l = some l') :
    l'.v = l.v := by
  obtain ⟨m, -, hr⟩ := laneNext_some.1 hn
  exact (runMicro_frame hr).1

/-- The pieces of a lane that the host never writes but by a RESET: T, PW, PR and V (R36). -/
structure SameInside (l l' : Lane) : Prop where
  t : l'.t = l.t
  pw : l'.pw = l.pw
  pr : l'.pr = l.pr
  v : l'.v = l.v

theorem SameInside.refl (l : Lane) : SameInside l l := ⟨rfl, rfl, rfl, rfl⟩

/-- The host's steps, RESET apart, leave T, PW, PR and V of every lane. -/
theorem sameInside_perform_host {s u : State} (h : perform .host s = .next u) (hreset : s.script.head? ≠ some .reset)
    (t : LaneId) : SameInside (s.lane t) (u.lane t) := by
  rcases perform_host_core h with hk | ⟨hx, -⟩ | ⟨-, ⟨c, hk⟩ | ⟨r, w, v, hk⟩ | ⟨-, i, hk⟩⟩
  · rw [hk.lane]; exact .refl _
  · exact absurd hx hreset
  · rw [hk.lane]; exact .refl _
  · rw [hk.lane, State.putWord, lane_setLane]
    split
    · next e => subst e; exact ⟨rfl, rfl, rfl, rfl⟩
    · exact .refl _
  · rw [hk.lane, lane_accept]
    split
    · exact ⟨rfl, rfl, rfl, rfl⟩
    · exact .refl _

/-- The host's steps, RESET apart, change something of CORE only while BUSY = 0 (R181). -/
theorem busy_of_perform_host {s u : State} (h : perform .host s = .next u) (hreset : s.script.head? ≠ some .reset)
    (hne : ¬ SameCore s u) : s.status.busy = false := by
  rcases perform_host_core h with hk | ⟨hx, -⟩ | ⟨hb, -⟩
  · exact absurd hk hne
  · exact absurd hx hreset
  · exact hb

/-- Settles O39: what each agent's step replaces is listed in `perform_cases`; everything else is as it was. -/
theorem ownershipOfState : Obligations.OwnershipOfState := by
  intro a s u h hreset
  rcases perform_cases h with ⟨-, rfl⟩ | ⟨-, hc⟩
  · simp
  rcases hc with ⟨t, l, rfl, hl, rfl⟩ | ⟨t, j, d, rfl, -, rfl⟩ | ⟨t, j, d, rfl, -, -, rfl⟩ | ⟨rfl, -, rfl⟩ |
    ⟨rfl, -⟩ | ⟨rfl, -⟩
  · have hown {r : LaneId} (hr : r = t) : Action.lane t = .lane r := by rw [hr]
    refine ⟨fun r hx => .inl (hown (changed_setLane hx).1), fun r ht => hown (changed_setLane ht).1,
      fun r hp => .inl (hown (changed_setLane hp).1), fun r hp => .inl (hown (changed_setLane hp).1),
      fun r hv => absurd (laneNext_v hl) (changed_setLane hv).2, fun r hq => .inl (hown (changed_setLane hq).1),
      absurd rfl, absurd rfl⟩
  · have hown {r : LaneId} (hr : r = t) : ∃ k, Action.teWrite t j = .teWrite r k := ⟨j, by rw [hr]⟩
    exact ⟨fun r hx => absurd rfl (changed_setLane hx).2, fun r ht => absurd rfl (changed_setLane ht).2,
      fun r hp => .inr (hown (changed_setLane hp).1), fun r hp => absurd rfl (changed_setLane hp).2,
      fun r hv => hown (changed_setLane hv).1, fun r hq => absurd rfl (changed_setLane hq).2, absurd rfl, absurd rfl⟩
  · have hown {r : LaneId} (hr : r = t) : Action.teRead t = .teRead r := by rw [hr]
    exact ⟨fun r hx => absurd rfl (changed_setLane hx).2, fun r ht => absurd rfl (changed_setLane ht).2,
      fun r hp => absurd rfl (changed_setLane hp).2, fun r hp => .inr (hown (changed_setLane hp).1),
      fun r hv => absurd rfl (changed_setLane hv).2, fun r hq => absurd rfl (changed_setLane hq).2,
      absurd rfl, absurd rfl⟩
  · exact ⟨fun _ => absurd rfl, fun _ => absurd rfl, fun _ => absurd rfl, fun _ => absurd rfl, fun _ => absurd rfl,
      fun _ => absurd rfl, absurd rfl, fun _ => .inl rfl⟩
  · cases hreset
  · have hr : s.script.head? ≠ some .reset := by simpa [Action.isReset] using hreset
    have hin := sameInside_perform_host h hr
    have hb := busy_of_perform_host h hr
    exact ⟨fun r hx => .inr ⟨rfl, hb fun hk => hx (by rw [hk.lane])⟩, fun r ht => absurd (hin r).t ht,
      fun r hp => absurd (hin r).pw hp, fun r hp => absurd (hin r).pr hp, fun r hv => absurd (hin r).v hv,
      fun r hq => .inr ⟨rfl, hb fun hk => hq (by rw [hk.lane])⟩, fun hc => ⟨rfl, hb fun hk => hc hk.cur⟩,
      fun hs => .inr ⟨rfl, hb fun hk => hs hk.status⟩⟩

/-! ### What a lane's step depends on -/

theorem lane_laneOr (s : State) (t : LaneId) (o : Option Lane) : (s.laneOr t o).lane t = o.getD (s.lane t) := by
  cases o with
  | none => rfl
  | some l => exact lane_setLane_same s t l

/-- What LANE(t) makes of its lane is a function of the lane, of `CUR.H` and of the TE's room. -/
theorem lane_perform_lane {s u : State} {t : LaneId} (h : perform (.lane t) s = .next u) :
    u.lane t = (laneNext s.teRoom s.cur.h t (s.lane t)).getD (s.lane t) := by
  cases h
  exact lane_laneOr s t _

/-- Settles O40: both lanes become the same function of the same operands. -/
theorem laneStepReadsItsLaneOnly : Obligations.LaneStepReadsItsLaneOnly := by
  intro s1 s2 u1 u2 t hlane hh hroom h1 h2
  rw [lane_perform_lane h1, lane_perform_lane h2, hlane, hh, hroom]

/-! ### A host read of a word that holds no value -/

theorem hostRead_unwritten {s : State} {t : LaneId} {w : Fin 32} (hf : s.status.fault = none)
    (hx : (s.lane t).x[w] = none) : hostRead (xwinAddr t w) s = s.answerAny (xwinAddr t w) := by
  have hx' : (s.lane t).x[w.val] = none := hx
  simp [hostRead, hostLoc_xwinAddr, hf, hx']

/-- A host action that is not held is taken. -/
theorem perform_host_taken {s : State} {x : HostAction} {rest : List HostAction} (hs : s.script = x :: rest)
    (hheld : x.isHeld s.status.busy = false) : perform .host s = takeHost x { s with script := rest } := by
  simp [perform, hostStep, hs, hheld]

/-- Settles O47: the read is not held, and its answer is the free value. -/
theorem unwrittenWordReadAnswers : Obligations.UnwrittenWordReadAnswers := by
  rintro s t w rest ⟨hb, hf⟩ hx hs
  refine ⟨Config.freeHostWord s.hostDraws, ?_⟩
  rw [perform_host_taken hs (by simp [HostAction.isHeld, hb]), takeHost,
    hostRead_unwritten (s := { s with script := rest }) hf hx]
  rfl

/-! ### The machine after reset -/

/-- No slot of a bank without a byte holds a value. -/
theorem readSlot_nil (j : Slot) : Memory.readSlot [] j = none := by
  have hno : Memory.holds [] j ≠ true := fun h => absurd (holds_iff.1 h 0) (by simp [Memory.read])
  rw [Memory.readSlot, if_neg hno]

/-- After reset no agent has a step. -/
theorem enabled_reset (a : Action) : enabled a State.reset = false := by
  cases a with
  | host => rfl
  | reset => rfl
  | cDone => rfl
  | lane t => rw [enabled, laneNext_idle (by rw [lane_reset]; rfl)]; rfl
  | teWrite t j => rw [enabled, lane_reset]; rfl
  | teRead t => rw [enabled, lane_reset]; rfl

/-- A machine in which no step is enabled waits for its host. -/
theorem step_of_none_enabled {s : State} (h : ∀ a, enabled a s = false) : step s = .next s := by
  obtain ⟨-, ⟨-, -, hstay⟩ | ⟨a, -, ha, -⟩⟩ := stepIsAnEnabledAction s
  · exact hstay
  · rw [h a] at ha; cases ha

/-- Settles O53: the reset values, and that no step is enabled. -/
theorem stateAfterReset : Obligations.StateAfterReset := by
  refine ⟨fun t => ?_, rfl, rfl, fun a _ => enabled_reset a, step_of_none_enabled enabled_reset⟩
  rw [lane_reset]
  exact ⟨fun w => by simp [Lane.reset], rfl, readSlot_nil, fun _ => rfl, rfl, rfl⟩

/-- Settles O55: every lane is at rest and meets the invariant, and the machine is not BUSY. -/
theorem invariantAtReset : Obligations.InvariantAtReset := by
  refine inv_of_idle (fun t => ?_) (fun t => ?_) rfl
  · rw [lane_reset]; exact inv_laneReset 0 false
  · rw [lane_reset]; rfl

end Sys2Proof.Machine

/-! The memory of CORE: the host map, the byte view of a Block, the steps of the transfer engine, and that a running command
comes to its end (spec/20_memory.md). -/

namespace Sys2Proof.Machine

/-! ### The host map -/

theorem toNat_xwinAddr (s : LaneId) (w : Fin 32) : (xwinAddr s w).toNat = 0x100 + 32 * s.val + w.val := by
  rw [xwinAddr, BitVec.toNat_ofNat]
  omega

/-- The fields of an address of XWIN give the address back (R53). -/
theorem xwinAddr_fields {a : HostAddr} (h : 0x100 ≤ a.toNat) :
    xwinAddr (laneOf (a.extractLsb' 5 3)) ⟨(a.extractLsb' 0 5).toNat, (a.extractLsb' 0 5).isLt⟩ = a := by
  apply BitVec.eq_of_toNat_eq
  rw [toNat_xwinAddr]
  simp only [laneOf, BitVec.extractLsb'_toNat, Nat.shiftRight_eq_div_pow]
  omega

/-- Which location stands at an address, by its number (R51). -/
theorem hostLoc_cases (a : HostAddr) :
    (a.toNat = 0 ∧ hostLoc a = .cmd) ∨ (a.toNat = 1 ∧ hostLoc a = .status) ∨
    (2 ≤ a.toNat ∧ a.toNat ≤ 0xFF ∧ hostLoc a = .unmapped) ∨ ∃ s w, a = xwinAddr s w ∧ hostLoc a = .xwin s w := by
  by_cases h : 0x100 ≤ a.toNat
  · have ha := xwinAddr_fields h
    exact .inr (.inr (.inr ⟨_, _, ha.symm, by rw [← ha, hostLoc_xwinAddr, ha]⟩))
  by_cases h0 : a = 0x000
  · subst h0; exact .inl ⟨rfl, rfl⟩
  by_cases h1 : a = 0x001
  · subst h1; exact .inr (.inl ⟨rfl, rfl⟩)
  have h2 : 2 ≤ a.toNat := by bv_omega
  have hlt : a.toNat < 0x100 := by omega
  exact .inr (.inr (.inl ⟨h2, by omega, by simp only [hostLoc, h0, h1, hlt, if_true, if_false]⟩))

theorem hostLoc_xwin_iff {a : HostAddr} {s : LaneId} {w : Fin 32} : hostLoc a = .xwin s w ↔ a = xwinAddr s w := by
  refine ⟨fun h => ?_, fun h => h ▸ hostLoc_xwinAddr s w⟩
  rcases hostLoc_cases a with ⟨-, hl⟩ | ⟨-, hl⟩ | ⟨-, -, hl⟩ | ⟨s', w', ha, hl⟩ <;> rw [hl] at h <;> cases h
  exact ha

/-- Lane and word are the address's bits 7:5 and 4:0 (R53). -/
theorem xwinAddr_lane_word (s : LaneId) (w : Fin 32) :
    s.val = ((xwinAddr s w).extractLsb' 5 3).toNat ∧ w.val = ((xwinAddr s w).extractLsb' 0 5).toNat := by
  simp only [BitVec.extractLsb'_toNat, toNat_xwinAddr, Nat.shiftRight_eq_div_pow]
  omega

theorem hostLoc_below_xwin (a : HostAddr) :
    (hostLoc a = .cmd ↔ a.toNat = 0) ∧ (hostLoc a = .status ↔ a.toNat = 1) ∧
    (hostLoc a = .unmapped ↔ 2 ≤ a.toNat ∧ a.toNat ≤ 0xFF) := by
  rcases hostLoc_cases a with ⟨ha, hl⟩ | ⟨ha, hl⟩ | ⟨ha, ha', hl⟩ | ⟨s, w, rfl, hl⟩
  · simp [hl, ha]
  · simp [hl, ha]
  · simp only [hl, reduceCtorEq, false_iff, true_iff]; omega
  · simp only [hl, toNat_xwinAddr, reduceCtorEq, false_iff]; omega

/-- Settles O42: the location at each number, and XWIN as the addresses `xwinAddr` gives. -/
theorem hostMap : Obligations.HostMap := by
  intro a
  obtain ⟨hcmd, hstatus, hunmapped⟩ := hostLoc_below_xwin a
  refine ⟨hcmd, hstatus, hunmapped, fun s w => ?_, fun s w h => ?_⟩
  · rw [hostLoc_xwin_iff, ← toNat_xwinAddr, BitVec.toNat_inj]
  · obtain rfl := hostLoc_xwin_iff.1 h
    obtain ⟨hs, hw⟩ := xwinAddr_lane_word s w
    exact ⟨hs, hw, rfl⟩

/-! ### The byte view of a Block -/

theorem toNat_append_add {m n : Nat} (x : BitVec m) (y : BitVec n) : (x ++ y).toNat = 2 ^ n * x.toNat + y.toNat := by
  rw [BitVec.toNat_append, ← Nat.shiftLeft_add_eq_or_of_lt y.isLt, Nat.shiftLeft_eq, Nat.mul_comm]

/-- R56: the first byte is the least significant. -/
theorem toNat_wordOfBytes (b0 b1 b2 b3 : Byte) :
    (wordOfBytes b0 b1 b2 b3).toNat = b0.toNat + 2 ^ 8 * b1.toNat + 2 ^ 16 * b2.toNat + 2 ^ 24 * b3.toNat := by
  simp only [wordOfBytes, toNat_append_add]
  omega

theorem extract_wordOfBytes (b0 b1 b2 b3 : Byte) :
    (wordOfBytes b0 b1 b2 b3).extractLsb' 0 8 = b0 ∧ (wordOfBytes b0 b1 b2 b3).extractLsb' 8 8 = b1 ∧
    (wordOfBytes b0 b1 b2 b3).extractLsb' 16 8 = b2 ∧ (wordOfBytes b0 b1 b2 b3).extractLsb' 24 8 = b3 := by
  have h0 := b0.isLt
  have h1 := b1.isLt
  have h2 := b2.isLt
  have h3 := b3.isLt
  simp only [← BitVec.toNat_inj, BitVec.extractLsb'_toNat, toNat_wordOfBytes, Nat.shiftRight_eq_div_pow]
  omega

theorem blockOfBytes_getElem (b : Vector Byte 128) (w : Nat) (h : w < 32) :
    (blockOfBytes b)[w] = wordOfBytes b[4 * w] b[4 * w + 1] b[4 * w + 2] b[4 * w + 3] := by
  simp only [blockOfBytes, Vector.getElem_ofFn]

/-- The bytes of the Block made of 128 bytes are these. -/
theorem blockByte_blockOfBytes (b : Vector Byte 128) (n : Fin 128) : blockByte (blockOfBytes b) n = b[n] := by
  obtain ⟨n, hlt⟩ := n
  obtain ⟨w, i, hw, hi, rfl⟩ : ∃ w i, w < 32 ∧ i < 4 ∧ n = 4 * w + i := ⟨n / 4, n % 4, by omega, by omega, by omega⟩
  rw [blockByte_word _ w i hw hi, blockOfBytes_getElem b w hw]
  obtain ⟨e0, e1, e2, e3⟩ := extract_wordOfBytes b[4 * w] b[4 * w + 1] b[4 * w + 2] b[4 * w + 3]
  obtain rfl | rfl | rfl | rfl : i = 0 ∨ i = 1 ∨ i = 2 ∨ i = 3 := by omega
  · exact e0
  · exact e1
  · exact e2
  · exact e3

/-- Settles O16: a word as the number of its bytes, and each conversion the inverse of the other. -/
theorem blockBytesAreLittleEndian : Obligations.BlockBytesAreLittleEndian := by
  refine ⟨fun b w => ?_, fun b => ?_, blockByte_blockOfBytes⟩
  · exact (congrArg BitVec.toNat (blockOfBytes_getElem b w.val w.isLt)).trans (toNat_wordOfBytes ..)
  · exact blockOfBytes_blockByte b _ fun n hn => Vector.getElem_ofFn hn

/-! ### The steps of the transfer engine -/

/-- Where lane t has a write of slot j pending the TE may perform it. -/
theorem perform_teWrite {s : State} {t : LaneId} {j : Slot} {d : Block} (h : (s.lane t).pw.find j = some d) :
    enabled (.teWrite t j) s = true ∧ perform (.teWrite t j) s = .next (s.setLane t ((s.lane t).wrote j d)) := by
  have hp : (s.lane t).performWrite j = some ((s.lane t).wrote j d) := performWrite_some.2 ⟨d, h, rfl⟩
  simp [enabled, perform, State.laneOr, hp]

/-- Settles O35, by the laws of a slot write and of the pending-write map. -/
theorem teWritePerform : Obligations.TeWritePerform := by
  intro s t j d h
  obtain ⟨hen, hperf⟩ := perform_teWrite h
  refine ⟨hen, _, hperf, rfl, fun r hr => lane_setLane_ne s hr _, ?_⟩
  rw [lane_setLane_same]
  exact ⟨rfl, readSlot_writeSlot_same _ j d, fun a ha => read_writeSlot_out _ j d ha, find_remove_same _ j,
    fun k hk => find_remove_ne _ hk⟩

/-- Where lane t has a read of slot j to perform, the TE answers it with the Block of the slot, or with the model fault. -/
theorem perform_teRead {s : State} {t : LaneId} {j : Slot} (h : (s.lane t).pr = .issued j) :
    enabled (.teRead t) s = true ∧
    (∀ d, (s.lane t).v.readSlot j = some d →
      perform (.teRead t) s = .next (s.setLane t { s.lane t with pr := .performed j d })) ∧
    ((s.lane t).v.readSlot j = none → perform (.teRead t) s = .fault (.unwritten t j)) := by
  have hj : (s.lane t).readToPerform = some j := readToPerform_some.2 h
  refine ⟨by simp [enabled, hj], fun d hd => ?_, fun hd => ?_⟩ <;>
    simp only [perform, State.teReadStep, Lane.performRead, hj, hd]

/-- R146: a read to perform is of a slot that stands in the bank. It has been stored, and its write is complete. -/
theorem readSlot_of_inv {l : Lane} (h : l.Inv) {j : Slot} (hpr : l.pr = .issued j) : ∃ d, l.v.readSlot j = some d := by
  obtain ⟨-, -, -, ht⟩ := h
  have hph : l.seq.ph = .mix := phase_of_pr ht (by simp [hpr])
  obtain ⟨-, hsafe, hs⟩ := (transfersInv_mix hph).1 ht
  have hfree : l.pw.find j = none := by simpa [Lane.readSafe, hpr] using hsafe
  have hstored : l.stored j := hs j
  rw [Lane.stored, hfree] at hstored
  exact holds_iff_readSlot.1 (by simpa using hstored)

/-- Settles O36; that the slot holds a value is `readSlot_of_inv`. -/
theorem teReadPerform : Obligations.TeReadPerform := by
  intro s t j h
  obtain ⟨hen, hnext, hfault⟩ := perform_teRead h
  refine ⟨hen, fun d hd => ⟨_, hnext d hd, rfl, lane_setLane_same s t _, fun r hr => lane_setLane_ne s hr _⟩, hfault,
    fun hs => readSlot_of_inv (inv_lane hs t) h⟩

/-! ### Writes of different places commute -/

/-- Stores at different addresses commute, in a list in canonical form or not: both orders compare the addresses with the same
head, and past it with the same tail. -/
theorem write_comm (m : Memory) {a a' : Nat} (h : a ≠ a') (b b' : Byte) :
    (m.write a b).write a' b' = (m.write a' b').write a b := by
  induction m with
  | nil => grind [Memory.write]
  | cons c m ih => grind [Memory.write]

/-- A byte written outside a range of bytes may be written before or after them. -/
theorem writeBytes_write_comm (bs : List Byte) (m : Memory) (a : Nat) {a' : Nat} (h : ¬(a ≤ a' ∧ a' < a + bs.length))
    (b' : Byte) : (m.writeBytes a bs).write a' b' = (m.write a' b').writeBytes a bs := by
  induction bs generalizing m a with
  | nil => rfl
  | cons b bs ih =>
    rw [List.length_cons] at h
    rw [Memory.writeBytes, ih _ _ (by omega), write_comm _ (by omega), Memory.writeBytes]

theorem writeBytes_comm (bs bs' : List Byte) (m : Memory) (a a' : Nat)
    (h : a + bs.length ≤ a' ∨ a' + bs'.length ≤ a) :
    (m.writeBytes a bs).writeBytes a' bs' = (m.writeBytes a' bs').writeBytes a bs := by
  induction bs' generalizing m a' with
  | nil => rfl
  | cons b' bs' ih =>
    rw [List.length_cons] at h
    rw [Memory.writeBytes, writeBytes_write_comm _ _ _ (by omega), ih _ _ (by omega), Memory.writeBytes]

theorem writeSlot_comm (m : Memory) {i j : Slot} (h : i ≠ j) (d e : Block) :
    (m.writeSlot i d).writeSlot j e = (m.writeSlot j e).writeSlot i d := by
  have hv : i.val ≠ j.val := fun q => h (Fin.ext q)
  simp only [Memory.writeSlot]
  refine writeBytes_comm _ _ m _ _ ?_
  simp only [blockBytes_length, slotAddr]
  omega

theorem remove_comm (p : PendingWrites) (i j : Slot) : (p.remove i).remove j = (p.remove j).remove i :=
  List.filter_comm ..

/-- What TE write-perform of slot j makes of a lane: the write performed, or the lane as it is where none is pending. -/
def Lane.tryWrite (l : Lane) (j : Slot) : Lane := (l.performWrite j).getD l

theorem tryWrite_some {l : Lane} {j : Slot} {d : Block} (h : l.pw.find j = some d) : l.tryWrite j = l.wrote j d := by
  rw [Lane.tryWrite, performWrite_some.2 ⟨d, h, rfl⟩]; rfl

theorem tryWrite_none {l : Lane} {j : Slot} (h : l.pw.find j = none) : l.tryWrite j = l := by
  simp [Lane.tryWrite, Lane.performWrite, h]

theorem tryWrite_comm (l : Lane) {i j : Slot} (h : i ≠ j) : (l.tryWrite i).tryWrite j = (l.tryWrite j).tryWrite i := by
  have hfind {k r : Slot} (hkr : r ≠ k) (d : Block) : (l.wrote k d).pw.find r = l.pw.find r := find_remove_ne l.pw hkr
  cases hi : l.pw.find i with
  | none =>
    rw [tryWrite_none hi]
    cases hj : l.pw.find j with
    | none => rw [tryWrite_none hj, tryWrite_none hi]
    | some e => rw [tryWrite_some hj, tryWrite_none ((hfind h e).trans hi)]
  | some d =>
    rw [tryWrite_some hi]
    cases hj : l.pw.find j with
    | none => rw [tryWrite_none hj, tryWrite_none ((hfind h.symm d).trans hj), tryWrite_some hi]
    | some e =>
      rw [tryWrite_some hj, tryWrite_some ((hfind h.symm d).trans hj), tryWrite_some ((hfind h e).trans hi)]
      simp only [Lane.wrote, writeSlot_comm l.v h, remove_comm l.pw i j]

theorem setLane_lane (s : State) (t : LaneId) : s.setLane t (s.lane t) = s := by
  simp [State.setLane, State.lane]

theorem setLane_setLane (s : State) (t : LaneId) (l m : Lane) : (s.setLane t l).setLane t m = s.setLane t m := by
  simp [State.setLane]

theorem perform_teWrite_eq (s : State) (t : LaneId) (j : Slot) :
    perform (.teWrite t j) s = .next (s.setLane t ((s.lane t).tryWrite j)) := by
  cases h : (s.lane t).pw.find j with
  | some d => rw [(perform_teWrite h).2, tryWrite_some h]
  | none => rw [tryWrite_none h, setLane_lane, perform, Lane.performWrite, h]; rfl

/-- Settles O37: the writes are of different bytes of the bank and of different entries of the map. The canonical forms the
invariant gives are not needed. -/
theorem pendingWritesPerformInAnyOrder : Obligations.PendingWritesPerformInAnyOrder := by
  intro s a a' b b' t i j _ hij h1 h2 h1' h2'
  rw [perform_teWrite_eq] at h1 h2 h1' h2'
  cases h1; cases h2; cases h1'; cases h2'
  simp only [lane_setLane_same, setLane_setLane, tryWrite_comm (s.lane t) hij]

/-! ### Every step of CORE shortens the work left -/

theorem microsLeft_fill (i : Slot) (u : Fin 4) :
    microsLeft { ph := .fill, i := i, u := u } = 3 * (1024 - i.val) - u.val + 4097 := rfl

theorem microsLeft_mix (i : Slot) (u : Fin 4) :
    microsLeft { ph := .mix, i := i, u := u } = 4 * (1024 - i.val) - u.val + 1 := rfl

/-- The last micro-step of a fill iteration leaves the iterations after it, and the mix phase. -/
theorem microsLeft_after_fMix1 (q : Seq) : microsLeft (q.after .fMix1) = 3 * (1024 - q.i.val) - 3 + 4097 := by
  have hi := q.i.isLt
  simp only [Seq.after]
  split
  · next hl =>
    rw [lastIter_iff] at hl
    rw [microsLeft_mix, hl]; rfl
  · next hl =>
    rw [lastIter_iff] at hl
    rw [microsLeft_fill, nextIter_val (by omega), Fin.val_zero]
    omega

/-- The last micro-step of a mix iteration leaves the iterations after it, and the drain. -/
theorem microsLeft_after_mMix1 (q : Seq) : microsLeft (q.after .mMix1) = 4 * (1024 - q.i.val) - 4 + 1 := by
  have hi := q.i.isLt
  simp only [Seq.after]
  split
  · next hl =>
    rw [lastIter_iff] at hl
    rw [hl]; rfl
  · next hl =>
    rw [lastIter_iff] at hl
    rw [microsLeft_mix, nextIter_val (by omega), Fin.val_zero]
    omega

/-- A micro-step is one of those that were left (R148). -/
theorem microsLeft_selected {q : Seq} {m : Micro} (h : selected q = some m) :
    microsLeft q = microsLeft (q.after m) + 1 := by
  obtain ⟨ph, i, u⟩ := q
  have hi := i.isLt
  cases ph with
  | idle => simp [selected] at h
  | sal | drain => cases h; rfl
  | bmx =>
    simp only [selected] at h
    split at h
    · cases h; simp_all [microsLeft, Seq.after]
    · split at h <;> cases h; simp_all [microsLeft, Seq.after, Seq.idle]
  | fill =>
    simp only [selected] at h
    fin_cases u <;> simp at h <;> subst h
    · simp [Seq.after, microsLeft_fill]; omega
    · simp [Seq.after, microsLeft_fill]; omega
    · simp [microsLeft_after_fMix1, microsLeft_fill]; omega
  | mix =>
    simp only [selected] at h
    fin_cases u <;> simp at h <;> subst h
    · simp [Seq.after, microsLeft_mix]; omega
    · simp [Seq.after, microsLeft_mix]; omega
    · simp [Seq.after, microsLeft_mix]; omega
    · simp [microsLeft_after_mMix1, microsLeft_mix]; omega

/-- The transfers of a lane that the TE has not performed. -/
def Lane.toPerform (l : Lane) : Nat := l.pw.length + if l.readToPerform.isSome then 1 else 0

theorem work_eq (l : Lane) : l.work = 2 * microsLeft l.seq + l.toPerform := Nat.add_assoc ..

theorem toPerform_of_pr {l l' : Lane} (h : l'.pr = l.pr) :
    l'.toPerform + l.pw.length = l.toPerform + l'.pw.length := by
  have hread : l'.readToPerform = l.readToPerform := by rw [Lane.readToPerform, h, Lane.readToPerform]
  rw [Lane.toPerform, Lane.toPerform, hread]
  omega

/-- A micro-step issues at most one transfer. -/
theorem toPerform_runMicro {m : Micro} {room : Bool} {h : BitVec 1} {s : LaneId} {l l' : Lane}
    (hr : runMicro m room h s l = some l') : l'.toPerform ≤ l.toPerform + 1 := by
  obtain ⟨-, -, hkeep⟩ := runMicro_frame hr
  cases m with
  | fStore =>
    obtain ⟨-, he⟩ := fStore_some.1 hr
    have hpr : l'.pr = l.pr := by rw [he]; rfl
    have hlen : l'.pw.length ≤ l.pw.length + 1 := by rw [he]; exact length_insert_le l.pw l.seq.i (readBlock s l)
    have := toPerform_of_pr hpr
    omega
  | mFetch =>
    obtain ⟨-, hpr, -, rfl⟩ := mFetch_some.1 hr
    simp [Lane.toPerform, Lane.readToPerform, hpr]
  | mXor =>
    obtain ⟨j, d, hpr, rfl⟩ := mXor_some.1 hr
    simp [Lane.toPerform, Lane.readToPerform, hpr]
  | sExec | bMix0 | bMix1 | fMix0 | fMix1 | mMix0 | mMix1 | lDrain =>
    obtain ⟨hpw, hpr⟩ := hkeep rfl
    have := toPerform_of_pr hpr
    rw [hpw] at this
    omega

/-- A micro-step counts twice, so that it pays for the transfer it may issue. -/
theorem work_laneNext {room : Bool} {h : BitVec 1} {s : LaneId} {l l' : Lane} (hn : laneNext room h s l = some l') :
    l'.work < l.work := by
  obtain ⟨m, hsel, hr⟩ := laneNext_some.1 hn
  obtain ⟨-, hq, -⟩ := runMicro_frame hr
  have hle := toPerform_runMicro hr
  rw [work_eq, work_eq, microsLeft_selected hsel, hq]
  omega

theorem work_wrote {l : Lane} {j : Slot} {d : Block} (h : l.pw.find j = some d) : (l.wrote j d).work < l.work := by
  have hlt : (l.wrote j d).pw.length < l.pw.length := length_remove_lt h
  have hto := toPerform_of_pr (l := l) (l' := l.wrote j d) rfl
  have hseq : (l.wrote j d).seq = l.seq := rfl
  rw [work_eq, work_eq, hseq]
  omega

theorem work_performed {l : Lane} {j : Slot} (h : l.pr = .issued j) (d : Block) :
    Lane.work { l with pr := .performed j d } < l.work := by
  simp [Lane.work, Lane.readToPerform, h]

/-- The work left in the machine goes down with that of one lane. -/
theorem work_setLane {s : State} {t : LaneId} {l : Lane} (h : l.work < (s.lane t).work) :
    (s.setLane t l).work < s.work := by
  refine Nat.add_lt_add_right (List.sum_lt_sum _ _ (fun r _ => ?_) ⟨t, List.mem_finRange t, ?_⟩) _
  · rw [lane_setLane]
    split
    · next e => rw [e]; exact h.le
    · exact le_rfl
  · rwa [lane_setLane_same]

theorem work_complete {s : State} (h : s.canComplete = true) : s.complete.work < s.work := by
  have hb : s.status.busy = true := by
    rw [State.canComplete, Bool.and_eq_true] at h
    exact h.1
  simp [State.work, State.complete, hb]

/-- Settles O59: a step of a lane or of the TE shortens the work of one lane, and C-DONE is the last of the work. -/
theorem coreStepsShortenTheWork : Obligations.CoreStepsShortenTheWork := by
  intro a s u hcore hen h
  rcases perform_cases h with ⟨hdis, -⟩ | ⟨-, hc⟩
  · rw [hen] at hdis; cases hdis
  rcases hc with ⟨t, l, -, hl, rfl⟩ | ⟨t, j, d, -, hd, rfl⟩ | ⟨t, j, d, -, hpr, -, rfl⟩ | ⟨-, hcan, rfl⟩ |
    ⟨rfl, -⟩ | ⟨rfl, -⟩
  · exact work_setLane (work_laneNext hl)
  · exact work_setLane (work_wrote hd)
  · exact work_setLane (work_performed hpr d)
  · exact work_complete hcan
  · cases hcore
  · cases hcore

/-! ### A busy machine is never stuck -/

/-- A lane that has received what it waits for can go on (R140). -/
theorem laneNext_performed {room : Bool} {h : BitVec 1} {s : LaneId} {l : Lane} (hl : l.Inv) {j : Slot} {d : Block}
    (hpr : l.pr = .performed j d) : (laneNext room h s l).isSome := by
  obtain ⟨-, -, -, ht⟩ := hl
  have hph : l.seq.ph = .mix := phase_of_pr ht (by simp [hpr])
  obtain ⟨hu, -, -⟩ := (transfersInv_mix hph).1 ht
  have hu1 : l.seq.u = 1 := by simpa [hpr] using hu
  have hsel : selected l.seq = some .mXor := by simp [selected, hph, hu1]
  exact Option.isSome_iff_exists.2 ⟨_, laneNext_some.2 ⟨_, hsel, mXor_some.2 ⟨j, d, hpr, rfl⟩⟩⟩

/-- A lane with nothing in flight is at rest, or it can go on where the TE has room for one more record. -/
theorem laneNext_quiet {h : BitVec 1} {s : LaneId} {l : Lane} (hl : l.Inv) (hpw : l.pw = []) (hpr : l.pr = .empty)
    (hph : l.seq.ph ≠ .idle) : (laneNext true h s l).isSome := by
  obtain ⟨-, -, hq, ht⟩ := hl
  have hsome {m : Micro} {l' : Lane} (hsel : selected l.seq = some m) (hr : runMicro m true h s l = some l') :
      (laneNext true h s l).isSome := Option.isSome_iff_exists.2 ⟨l', laneNext_some.2 ⟨m, hsel, hr⟩⟩
  cases hp : l.seq.ph with
  | idle => exact absurd hp hph
  | sal => exact hsome (m := .sExec) (by simp [selected, hp]) rfl
  | bmx =>
    obtain ⟨hi, hu⟩ : l.seq.i = 0 ∧ l.seq.u.val ≤ 1 := by simpa [Seq.legal, hp] using hq
    obtain hu | hu : l.seq.u = 0 ∨ l.seq.u = 1 := by omega
    · exact hsome (m := .bMix0) (by simp [selected, hp, hi, hu]) rfl
    · exact hsome (m := .bMix1) (by simp [selected, hp, hi, hu]) rfl
  | fill =>
    have hu : l.seq.u.val ≤ 2 := by simpa [Seq.legal, hp] using hq
    obtain hu | hu | hu : l.seq.u = 0 ∨ l.seq.u = 1 ∨ l.seq.u = 2 := by omega
    · exact hsome (m := .fStore) (by simp [selected, hp, hu]) (fStore_some.2 ⟨rfl, rfl⟩)
    · exact hsome (m := .fMix0) (by simp [selected, hp, hu]) rfl
    · exact hsome (m := .fMix1) (by simp [selected, hp, hu]) rfl
  | mix =>
    have hne : l.seq.u ≠ 1 := ((transfersInv_mix hp).1 ht).1.1 hpr
    obtain hu | hu | hu : l.seq.u = 0 ∨ l.seq.u = 2 ∨ l.seq.u = 3 := by omega
    · exact hsome (m := .mFetch) (by simp [selected, hp, hu]) (mFetch_some.2 ⟨rfl, hpr, by rw [hpw]; rfl, rfl⟩)
    · exact hsome (m := .mMix0) (by simp [selected, hp, hu]) rfl
    · exact hsome (m := .mMix1) (by simp [selected, hp, hu]) rfl
  | drain => exact hsome (m := .lDrain) (by simp [selected, hp]) (lDrain_some.2 ⟨hpw, hpr, rfl⟩)

/-- A transfer in flight can go on: the TE performs it, or its lane takes the Block it has been given. -/
theorem exists_enabled_of_transfer {s : State} (hs : s.Inv) {t : LaneId}
    (h : ¬((s.lane t).pw = [] ∧ (s.lane t).pr = .empty)) : ∃ a : Action, a.isCore = true ∧ enabled a s = true := by
  cases hpw : (s.lane t).pw with
  | cons e p => exact ⟨.teWrite t e.1, rfl, (perform_teWrite (by rw [hpw]; exact find_head e p)).1⟩
  | nil =>
    cases hpr : (s.lane t).pr with
    | empty => exact absurd ⟨hpw, hpr⟩ h
    | issued j => exact ⟨.teRead t, rfl, (perform_teRead hpr).1⟩
    | performed j d => exact ⟨.lane t, rfl, laneNext_performed (inv_lane hs t) hpr⟩

/-- With nothing in flight the TE has room, whatever its depth, since a depth is positive (R76). -/
theorem teRoom_of_no_transfer {s : State} (h : ∀ t, (s.lane t).pw = [] ∧ (s.lane t).pr = .empty) :
    s.teRoom = true := by
  rw [teRoom_iff]
  intro d _
  simpa [h] using d.2

/-- Settles O58: a transfer in flight can go on; without one every lane can that is not at rest; with all at rest, C-DONE. -/
theorem busyIsNeverStuck : Obligations.BusyIsNeverStuck := by
  intro s hs hb
  by_cases hq : ∀ t, (s.lane t).pw = [] ∧ (s.lane t).pr = .empty
  · by_cases hidle : ∀ t, (s.lane t).seq.ph = .idle
    · exact ⟨.cDone, rfl, by simp [enabled, State.canComplete, hb, (allIdle_iff s).2 hidle]⟩
    · obtain ⟨t, ht⟩ := not_forall.1 hidle
      obtain ⟨hpw, hpr⟩ := hq t
      refine ⟨.lane t, rfl, ?_⟩
      rw [enabled, teRoom_of_no_transfer hq]
      exact laneNext_quiet (inv_lane hs t) hpw hpr ht
  · obtain ⟨t, ht⟩ := not_forall.1 hq
    exact exists_enabled_of_transfer hs ht

/-! ### In the invariant no step stops the machine -/

theorem legalWidth_widthOf : ∀ lk : BitVec 2, legalWidth (widthOf lk) = true := by decide

/-- A word decodes to a command only (R82, R87). -/
theorem wf_of_decode {c : Word} {i : Instr} (h : decode c = .ok i) : i.wf = true := by
  cases i with
  | salsa8x _ _ | bmix _ | romix _ => rfl
  | romixb k =>
    obtain ⟨lk, rfl⟩ : ∃ lk, k = widthOf lk := by
      simp only [decode] at h
      repeat' split at h
      all_goals cases h
      exact ⟨_, rfl⟩
    exact legalWidth_widthOf lk

theorem hostWrite_next (a : HostAddr) (v : Word) (s : State) : ∃ u, hostWrite a v s = .next u := by
  simp only [hostWrite]
  cases s.status.fault.isSome with
  | true => exact ⟨s, rfl⟩
  | false =>
    cases hostLoc a with
    | status => exact ⟨_, rfl⟩
    | unmapped => exact ⟨_, rfl⟩
    | xwin t w => exact ⟨_, rfl⟩
    | cmd =>
      cases hd : decode v with
      | error e => exact ⟨_, rfl⟩
      | ok i => exact ⟨_, exec_wf (wf_of_decode hd) s⟩

theorem hostStep_next (s : State) : ∃ u, hostStep s = .next u := by
  simp only [hostStep]
  cases s.script with
  | nil => exact ⟨s, rfl⟩
  | cons x rest =>
    cases hx : x.isHeld s.status.busy with
    | true => exact ⟨s, by simp [hx]⟩
    | false =>
      simp only [hx, Bool.false_eq_true, if_false]
      cases x with
      | hwr a v => exact hostWrite_next a v _
      | hrd a => exact ⟨_, rfl⟩
      | reset => exact ⟨_, rfl⟩
      | wait => exact ⟨_, rfl⟩

theorem perform_teRead_next {s : State} (hs : s.Inv) (t : LaneId) : ∃ u, perform (.teRead t) s = .next u := by
  cases hr : (s.lane t).readToPerform with
  | none => exact ⟨s, by simp [perform, State.teReadStep, hr]⟩
  | some j =>
    have hpr : (s.lane t).pr = .issued j := readToPerform_some.1 hr
    obtain ⟨d, hd⟩ := readSlot_of_inv (inv_lane hs t) hpr
    exact ⟨_, (perform_teRead hpr).2.1 d hd⟩

/-- R146: in a state of the invariant every step of every agent answers a next state. -/
theorem perform_next {s : State} (hs : s.Inv) (a : Action) : ∃ u, perform a s = .next u := by
  cases a with
  | host => exact hostStep_next s
  | teRead t => exact perform_teRead_next hs t
  | reset => exact ⟨_, rfl⟩
  | lane t => exact ⟨_, rfl⟩
  | teWrite t j => exact ⟨_, rfl⟩
  | cDone => exact ⟨_, rfl⟩

/-! ### One step beside a running command -/

/-- A RESET event, taken, ends BUSY (R230). -/
theorem busy_of_reset {a : Action} {s u : State} (hreset : a.isReset s = true) (hen : enabled a s = true)
    (h : perform a s = .next u) : u.status.busy = false := by
  cases a with
  | lane _ | teWrite _ _ | teRead _ | cDone => cases hreset
  | host =>
    have hx : s.script.head? = some .reset := by simpa [Action.isReset] using hreset
    obtain ⟨rest, hs⟩ := List.head?_eq_some_iff.1 hx
    rw [perform_host_taken hs rfl] at h
    cases h; rfl
  | reset =>
    cases hr : s.resets with
    | zero => simp [enabled, hr] at hen
    | succ n => simp only [perform, resetStep, hr] at h; cases h; rfl

/-- What a step of a lane, the TE or SEQ can do: replace one lane, or complete the command. -/
theorem perform_core_cases {a : Action} {s u : State} (hcore : a.isCore = true) (h : perform a s = .next u) :
    (∃ t l, u = s.setLane t l) ∨ (a = .cDone ∧ u = s.complete) ∨ u = s := by
  rcases perform_cases h with ⟨-, rfl⟩ | ⟨-, hc⟩
  · exact .inr (.inr rfl)
  rcases hc with ⟨t, l, -, -, rfl⟩ | ⟨t, j, d, -, -, rfl⟩ | ⟨t, j, d, -, -, -, rfl⟩ | ⟨rfl, -, rfl⟩ | ⟨rfl, -⟩ | ⟨rfl, -⟩
  · exact .inl ⟨t, l, rfl⟩
  · exact .inl ⟨t, _, rfl⟩
  · exact .inl ⟨t, _, rfl⟩
  · exact .inr (.inl ⟨rfl, rfl⟩)
  · cases hcore
  · cases hcore

/-- A step of CORE is C-DONE, or it leaves `STATUS` and all that the host wants. -/
theorem perform_core_status {a : Action} {s u : State} (hcore : a.isCore = true) (h : perform a s = .next u) :
    (a = .cDone ∧ u = s.complete) ∨ (u.status = s.status ∧ u.script = s.script ∧ u.resets = s.resets) := by
  rcases perform_core_cases hcore h with ⟨t, l, rfl⟩ | hdone | rfl
  · exact .inr ⟨rfl, rfl, rfl⟩
  · exact .inl hdone
  · exact .inr ⟨rfl, rfl, rfl⟩

/-- While BUSY = 1 the host changes nothing of CORE but by a RESET (R181). -/
theorem sameCore_of_busy {a : Action} {s u : State} (hb : s.status.busy = true) (hreset : a.isReset s = false)
    (hcore : a.isCore = false) (h : perform a s = .next u) : SameCore s u := by
  cases a with
  | lane _ | teWrite _ _ | teRead _ | cDone => cases hcore
  | reset => cases hreset
  | host =>
    have hx : s.script.head? ≠ some .reset := by simpa [Action.isReset] using hreset
    by_contra hne
    rw [busy_of_perform_host h hx hne] at hb
    cases hb

theorem not_reset_of_core {a : Action} (hcore : a.isCore = true) (s : State) : a.isReset s = false := by
  cases a with
  | host | reset => cases hcore
  | lane _ | teWrite _ _ | teRead _ | cDone => rfl

/-! ### What depends on CORE only -/

theorem SameCore.trans {s u v : State} (h : SameCore s u) (h' : SameCore u v) : SameCore s v :=
  ⟨h'.lanes.trans h.lanes, h'.cur.trans h.cur, h'.status.trans h.status⟩

theorem SameCore.work {s u : State} (h : SameCore s u) : u.work = s.work := by
  simp only [State.work, h.lane, h.status]

theorem SameCore.enabled {s u : State} (h : SameCore s u) {a : Action} (hcore : a.isCore = true) :
    enabled a u = enabled a s := by
  have hroom : u.teRoom = s.teRoom := by rw [Bool.eq_iff_iff, teRoom_iff, teRoom_iff]; simp only [h.lane]
  cases a with
  | host | reset => cases hcore
  | lane t => simp only [Machine.enabled, hroom, h.cur, h.lane]
  | teWrite t j => simp only [Machine.enabled, h.lane]
  | teRead t => simp only [Machine.enabled, h.lane]
  | cDone => simp only [Machine.enabled, State.canComplete, State.allIdle, h.status, h.lane]

/-! ### The count of schedule choices -/

/-- The machine with k as its count of schedule choices, which no step reads. -/
def State.withTick (s : State) (k : Nat) : State := { s with tick := k }

theorem sameCore_withTick (s : State) (k : Nat) : SameCore s (s.withTick k) := sameCore_tick s k

theorem perform_withTick {a : Action} {s u : State} (k : Nat) (h : perform a s = .next u) :
    perform a (s.withTick k) = .next (u.withTick k) := perform_tick k h

theorem enabled_withTick (a : Action) (s : State) (k : Nat) : enabled a (s.withTick k) = enabled a s :=
  enabled_tick a s k

theorem isReset_withTick (a : Action) (s : State) (k : Nat) : a.isReset (s.withTick k) = a.isReset s := by
  cases a <;> rfl

theorem commandRun_withTick {as : List Action} {s t : State} (k : Nat) (h : CommandRun as s t) :
    CommandRun as (s.withTick k) (t.withTick k) := by
  induction as generalizing s with
  | nil => obtain rfl : s = t := h; rfl
  | cons a as ih =>
    obtain ⟨hb, hreset, hen, s', hp, hrun⟩ := h
    exact ⟨hb, (isReset_withTick a s k).trans hreset, (enabled_withTick a s k).trans hen, _, perform_withTick k hp,
      ih hrun⟩

/-- One step as a schedule, which leaves the count. -/
theorem commandRun_single {a : Action} {s u : State} (hb : s.status.busy = true) (hreset : a.isReset s = false)
    (hen : enabled a s = true) (h : perform a s = .next u) : CommandRun [a] s (u.withTick s.tick) :=
  ⟨hb, hreset, hen, _, perform_withTick s.tick h, rfl⟩

theorem commandRun_append {as bs : List Action} {s t u : State} (h : CommandRun as s t) (h' : CommandRun bs t u) :
    CommandRun (as ++ bs) s u := by
  induction as generalizing s with
  | nil => obtain rfl : s = t := h; exact h'
  | cons a as ih =>
    obtain ⟨hb, hreset, hen, s', hp, hrun⟩ := h
    exact ⟨hb, hreset, hen, s', hp, ih hrun⟩

/-! ### The machine's own steps complete a command -/

/-- Where the host wants nothing, a busy machine's step is a step of CORE. -/
theorem step_core_of_busy {s : State} (hs : s.Inv) (hb : s.status.busy = true) (hd : s.hostDone) :
    ∃ a v, a.isCore = true ∧ enabled a s = true ∧ perform a s = .next v ∧ ∃ n, step s = .next (v.withTick n) := by
  obtain ⟨hscript, hresets⟩ := hd
  obtain ⟨-, ⟨hnone, -, -⟩ | ⟨a, -, hen, hstep⟩⟩ := stepIsAnEnabledAction s
  · obtain ⟨a, -, ha⟩ := busyIsNeverStuck s hs hb
    rw [hnone a] at ha; cases ha
  have hcore : a.isCore = true := by
    cases a with
    | host => simp [enabled, State.hostReady, hscript] at hen
    | reset => simp [enabled, hresets] at hen
    | lane _ | teWrite _ _ | teRead _ | cDone => rfl
  obtain ⟨v, hv⟩ := perform_next hs a
  refine ⟨a, v, hcore, hen, hv, ?_⟩
  rcases hstep with he | he
  · exact ⟨v.tick, he.trans hv⟩
  · exact ⟨s.tick + 1, he.trans (perform_withTick _ hv)⟩

theorem run_succ {s v : State} (h : step s = .next v) (k : Nat) :
    Sys2Proof.core.run (k + 1) s = Sys2Proof.core.run k v := by
  simp only [Host.Core.run]
  rw [show Sys2Proof.core.step s = .next v from h]

/-- The machine's own steps from s, at most as many as there is work left, are a schedule that completes the command. -/
def State.runsToDone (s : State) : Prop :=
  ∃ (k : Nat) (u : State) (as : List Action),
    k ≤ s.work ∧ Sys2Proof.core.run k s = .next u ∧ CommandRun as s (u.withTick s.tick) ∧
    u.status.busy = false ∧ u.status.done = true

/-- By induction on the work left: each step shortens it. -/
theorem runsToDone_of_busy {s : State} (hs : s.Inv) (hb : s.status.busy = true) (hd : s.hostDone) : s.runsToDone := by
  induction hw : s.work using Nat.strong_induction_on generalizing s with
  | _ w ih =>
    obtain ⟨a, v, hcore, hen, hp, n, hstep⟩ := step_core_of_busy hs hb hd
    have hlt : v.work < s.work := coreStepsShortenTheWork a s v hcore hen hp
    have hone := commandRun_single hb (not_reset_of_core hcore s) hen hp
    rcases perform_core_status hcore hp with ⟨-, rfl⟩ | ⟨hst, hscript, hresets⟩
    · exact ⟨1, _, [a], by omega, run_succ hstep 0, hone, rfl, rfl⟩
    · have hsame : SameCore v (v.withTick n) := sameCore_withTick v n
      obtain ⟨k, u, as, hk, hrun, has, hu, hdone⟩ :=
        ih v.work (hw ▸ hlt) (s := v.withTick n) (hsame.inv (inv_perform hs hp)) (by rw [hsame.status, hst, hb])
          ⟨hscript.trans hd.1, hresets.trans hd.2⟩ hsame.work
      rw [hsame.work] at hk
      refine ⟨k + 1, u, a :: as, by omega, (run_succ hstep k).trans hrun, ?_, hu, hdone⟩
      have hrest := commandRun_withTick s.tick has
      exact commandRun_append hone hrest

/-- A command is accepted where CORE is ready, and the machine is then busy with it (R185). -/
theorem exec_ready {i : Instr} {s : State} (hi : i.wf = true) (hr : s.ready) :
    exec i s = .next (s.accept i.fields (startPhase i) (starts i)) := by
  rw [exec_wf hi, submit_ready hr]

/-! ### Weakly fair runs complete a command -/

/-- A step of a run, seen apart from the count of schedule choices. -/
theorem isRun_step {r : Nat → State} {act : Nat → Option Action} (h : IsRun r act) (n : Nat) :
    (act n = none ∧ r (n + 1) = r n) ∨
    ∃ a u k, act n = some a ∧ enabled a (r n) = true ∧ perform a (r n) = .next u ∧ r (n + 1) = u.withTick k := by
  have hn := h n
  cases ha : act n with
  | none => rw [ha] at hn; exact .inl ⟨rfl, hn⟩
  | some a =>
    rw [ha] at hn
    obtain ⟨hen, k, hp⟩ := hn
    have hp' := perform_withTick (s := (r n).withTick k) (r n).tick hp
    exact .inr ⟨a, _, (r (n + 1)).tick, rfl, hen, hp', rfl⟩

section
variable {r : Nat → State} {act : Nat → Option Action} (hrun : IsRun r act)
include hrun

theorem inv_run (h0 : (r 0).Inv) (n : Nat) : (r n).Inv := by
  induction n with
  | zero => exact h0
  | succ n ih =>
    rcases isRun_step hrun n with ⟨-, he⟩ | ⟨a, u, k, -, -, hp, he⟩
    · rwa [he]
    · rw [he]; exact (sameCore_withTick u k).inv (inv_perform ih hp)

/-- A core step of a run shortens the work left. -/
theorem work_run {n : Nat} {a : Action} (ha : act n = some a) (hcore : a.isCore = true) :
    (r (n + 1)).work < (r n).work := by
  rcases isRun_step hrun n with ⟨hn, -⟩ | ⟨b, u, k, hb, hen, hp, he⟩
  · rw [ha] at hn; cases hn
  · obtain rfl : a = b := Option.some.inj (ha.symm.trans hb)
    rw [he, (sameCore_withTick u k).work]
    exact coreStepsShortenTheWork a _ _ hcore hen hp

/-- A run that is busy after a step has not taken a RESET with it. -/
theorem not_reset_run {n : Nat} {a : Action} (ha : act n = some a) (hb : (r (n + 1)).status.busy = true) :
    a.isReset (r n) = false := by
  rcases isRun_step hrun n with ⟨hn, -⟩ | ⟨b, u, k, hb', hen, hp, he⟩
  · rw [ha] at hn; cases hn
  · obtain rfl : a = b := Option.some.inj (ha.symm.trans hb')
    rw [Bool.eq_false_iff]
    intro hreset
    have hnb : u.status.busy = false := busy_of_reset hreset hen hp
    rw [he, (sameCore_withTick u k).status, hnb] at hb
    cases hb

/-- A step of a busy run that shortens no work changes nothing of CORE. -/
theorem sameCore_run {n : Nat} (hb : (r n).status.busy = true) (hb' : (r (n + 1)).status.busy = true)
    (hw : (r n).work ≤ (r (n + 1)).work) : SameCore (r n) (r (n + 1)) := by
  rcases isRun_step hrun n with ⟨-, he⟩ | ⟨a, u, k, ha, -, hp, he⟩
  · rw [he]; exact ⟨rfl, rfl, rfl⟩
  · have hcore : a.isCore = false := by
      rw [Bool.eq_false_iff]
      exact fun hcore => absurd (work_run hrun ha hcore) hw.not_gt
    have hsame : SameCore (r n) u := sameCore_of_busy hb (not_reset_run hrun ha hb') hcore hp
    rw [he]; exact hsame.trans (sameCore_withTick u k)

/-- A weakly fair run is not busy for ever: from the moment its work left is least, a step of CORE would stay enabled and
never be taken. -/
theorem exists_not_busy (hfair : WeaklyFair r act) (h0 : (r 0).Inv) : ∃ n, (r n).status.busy = false := by
  by_contra hall
  have hbusy (n : Nat) : (r n).status.busy = true := by
    rw [← Bool.not_eq_false]; exact fun hn => hall ⟨n, hn⟩
  obtain ⟨N, hmin⟩ : ∃ N, ∀ m, (r N).work ≤ (r m).work :=
    ⟨_, fun m => Function.argmin_le (fun n => (r n).work) m⟩
  have hsame (m : Nat) (hm : N ≤ m) : SameCore (r N) (r m) := by
    induction m, hm using Nat.le_induction with
    | base => exact ⟨rfl, rfl, rfl⟩
    | succ m _ ih => exact ih.trans (sameCore_run hrun (hbusy m) (hbusy (m + 1)) (ih.work ▸ hmin (m + 1)))
  obtain ⟨a, hcore, hen⟩ := busyIsNeverStuck (r N) (inv_run hrun h0 N) (hbusy N)
  obtain ⟨m, hm, ha⟩ := hfair a N fun m hm => ((hsame m hm).enabled hcore).trans hen
  have hlt := work_run hrun ha hcore
  rw [(hsame m hm).work] at hlt
  exact absurd hlt (hmin (m + 1)).not_gt

/-- A run without a RESET, up to a moment before which it was busy, is a schedule. -/
theorem commandRun_of_run {n : Nat} (hb : ∀ m < n, (r m).status.busy = true)
    (hreset : ∀ m < n, ∀ a, act m = some a → a.isReset (r m) = false) :
    ∃ as, CommandRun as (r 0) ((r n).withTick (r 0).tick) := by
  induction n with
  | zero => exact ⟨[], rfl⟩
  | succ n ih =>
    obtain ⟨as, has⟩ := ih (fun m hm => hb m (by omega)) fun m hm => hreset m (by omega)
    rcases isRun_step hrun n with ⟨-, he⟩ | ⟨a, u, k, ha, hen, hp, he⟩
    · exact ⟨as, by rwa [he]⟩
    · have hone := commandRun_single (hb n (by omega)) (hreset n (by omega) a ha) hen hp
      have hone' := commandRun_withTick (r 0).tick hone
      rw [he]; exact ⟨as ++ [a], commandRun_append has hone'⟩

/-- The last step of a busy run is a RESET, or it is C-DONE. -/
theorem reset_or_cDone_run {n : Nat} (hb : (r n).status.busy = true) (hn : (r (n + 1)).status.busy = false) :
    ∃ a, act n = some a ∧
      (a.isReset (r n) = true ∨ (a.isReset (r n) = false ∧ a = .cDone ∧ (r (n + 1)).status.done = true)) := by
  have hne : (r (n + 1)).status ≠ (r n).status := fun e => by rw [e, hb] at hn; cases hn
  rcases isRun_step hrun n with ⟨-, he⟩ | ⟨a, u, k, ha, -, hp, he⟩
  · exact absurd (by rw [he]) hne
  rw [he, (sameCore_withTick u k).status] at hne ⊢
  refine ⟨a, ha, ?_⟩
  cases hreset : a.isReset (r n) with
  | true => exact .inl rfl
  | false =>
    cases hcore : a.isCore with
    | false => exact absurd (sameCore_of_busy hb hreset hcore hp).status hne
    | true =>
      rcases perform_core_status hcore hp with ⟨hdone, hu⟩ | ⟨hst, -⟩
      · exact .inr ⟨rfl, hdone, by rw [hu]; rfl⟩
      · exact absurd hst hne

end

/-- A run is busy up to some moment, and the step taken then is a RESET, or the C-DONE that ends a schedule of the command
(R190, R205). -/
def EndsBusy (r : Nat → State) (act : Nat → Option Action) : Prop :=
  ∃ n, (∀ m, m ≤ n → (r m).status.busy = true) ∧ (r (n + 1)).status.busy = false ∧
    ((∃ a, act n = some a ∧ a.isReset (r n) = true) ∨
     (act n = some .cDone ∧ (r (n + 1)).status.done = true ∧
      ∃ as, CommandRun as (r 0) ((r (n + 1)).withTick (r 0).tick)))

theorem endsBusy_of_fair {r : Nat → State} {act : Nat → Option Action} (hrun : IsRun r act) (hfair : WeaklyFair r act)
    (h0 : (r 0).Inv) (hb0 : (r 0).status.busy = true) : EndsBusy r act := by
  have hex := exists_not_busy hrun hfair h0
  obtain ⟨n, hn, hbefore⟩ : ∃ n, (r (n + 1)).status.busy = false ∧ ∀ m ≤ n, (r m).status.busy = true := by
    cases hN : Nat.find hex with
    | zero =>
      have := Nat.find_spec hex
      rw [hN, hb0] at this; cases this
    | succ n =>
      exact ⟨n, hN ▸ Nat.find_spec hex, fun m hm => Bool.not_eq_false _ ▸ Nat.find_min hex (by omega)⟩
  refine ⟨n, hbefore, hn, ?_⟩
  obtain ⟨a, ha, hreset | ⟨hreset, rfl, hdone⟩⟩ := reset_or_cDone_run hrun (hbefore n le_rfl) hn
  · exact .inl ⟨a, ha, hreset⟩
  · refine .inr ⟨ha, hdone, commandRun_of_run hrun (fun m hm => hbefore m (by omega)) fun m hm b hbm => ?_⟩
    obtain hlt | rfl : m < n ∨ m = n := by omega
    · exact not_reset_run hrun hbm (hbefore (m + 1) (by omega))
    · rw [ha] at hbm; cases hbm; exact hreset

/-! ### The machine's own steps are a run -/

theorem step_next {s : State} (hs : s.Inv) : ∃ u, step s = .next u := by
  obtain ⟨-, ⟨-, -, hstay⟩ | ⟨a, -, -, he | he⟩⟩ := stepIsAnEnabledAction s
  · exact ⟨s, hstay⟩
  · rw [he]; exact perform_next hs a
  · rw [he]; exact perform_next ((sameCore_withTick s _).inv hs) a

theorem after_succ {s : State} {n : Nat} (h : (s.after n).Inv) : step (s.after n) = .next (s.after (n + 1)) := by
  obtain ⟨u, hu⟩ := step_next h
  simp only [State.after, hu]

theorem inv_after {s : State} (hs : s.Inv) (n : Nat) : (s.after n).Inv := by
  induction n with
  | zero => exact hs
  | succ n ih => exact inv_step ih (after_succ ih)

theorem isRun_after {s : State} (hs : s.Inv) : IsRun s.after s.choices := by
  intro n
  have hstep := after_succ (inv_after hs n)
  rcases chosen_cases (s.after n) with ⟨-, hnone⟩ | ⟨a, hmem, hsome, hasked⟩
  · have hc : s.choices n = none := hnone
    rw [step_of_chosen_none hnone] at hstep
    rw [hc]
    exact (Host.Outcome.next.inj hstep).symm
  · have hc : s.choices n = some a := hsome
    rw [step_of_chosen hsome] at hstep
    rw [hc]
    refine ⟨mem_enabledActions.1 hmem, (s.after n).asked.tick, ?_⟩
    rcases hasked with he | he <;> rw [he] at hstep ⊢ <;> exact hstep

/-- Settles O27: the machine's own steps by induction on the work left, any weakly fair run by the moment its work left is
least. -/
theorem machineRunsACommandToCompletion : Obligations.MachineRunsACommandToCompletion := by
  refine ⟨fun s i hs hr hd hi => ⟨_, exec_ready hi hr, ?_⟩, fun r act => endsBusy_of_fair, fun s hs => ?_⟩
  · exact runsToDone_of_busy (inv_accept hs hr i.fields i) rfl hd
  · exact ⟨isRun_after hs, fun _ hfair => exists_not_busy (isRun_after hs) hfair hs⟩

end Sys2Proof.Machine

/-! The encoding of the commands: the fields of a word, the decoder as the inverse of the encoder, the rows of the opcode table,
and the host's WAIT (spec/30_encoding.md). -/

namespace Sys2Proof.Machine

/-! ### The fields of a word -/

/-- The fields and `Z` are all the bits of a word (R81). -/
theorem word_eq_iff {c d : Word} : c = d ↔ fieldZ c = fieldZ d ∧ fieldsOf c = fieldsOf d := by
  refine ⟨fun h => h ▸ ⟨rfl, rfl⟩, fun ⟨hz, hf⟩ => ?_⟩
  have hc := c.isLt
  have hd := d.isLt
  simp only [fieldsOf, fieldZ, Fields.mk.injEq, ← BitVec.toNat_inj, BitVec.extractLsb'_toNat,
    Nat.shiftRight_eq_div_pow] at hz hf ⊢
  omega

theorem toNat_wordOf (f : Fields) :
    (wordOf f).toNat = f.op.toNat + 2 ^ 4 * f.s.toNat + 2 ^ 7 * f.h.toNat + 2 ^ 8 * f.lk.toNat := by
  simp only [wordOf, toNat_append_add, BitVec.toNat_ofNat]
  omega

@[simp] theorem fieldZ_wordOf (f : Fields) : fieldZ (wordOf f) = 0 := by
  have hop := f.op.isLt
  have hs := f.s.isLt
  have hh := f.h.isLt
  have hlk := f.lk.isLt
  simp only [fieldZ, ← BitVec.toNat_inj, BitVec.extractLsb'_toNat, toNat_wordOf, Nat.shiftRight_eq_div_pow,
    BitVec.ofNat_eq_ofNat, BitVec.toNat_ofNat]
  omega

@[simp] theorem fieldsOf_wordOf (f : Fields) : fieldsOf (wordOf f) = f := by
  obtain ⟨op, s, h, lk⟩ := f
  have hop := op.isLt
  have hs := s.isLt
  have hh := h.isLt
  have hlk := lk.isLt
  simp only [fieldsOf, Fields.mk.injEq, ← BitVec.toNat_inj, BitVec.extractLsb'_toNat, toNat_wordOf,
    Nat.shiftRight_eq_div_pow]
  omega

theorem wordOf_eq_iff {f : Fields} {c : Word} : wordOf f = c ↔ fieldZ c = 0 ∧ fieldsOf c = f := by
  rw [word_eq_iff, fieldZ_wordOf, fieldsOf_wordOf, eq_comm, eq_comm (a := f)]

/-- Bits 9:7 are `LK` and `H`. -/
theorem bits_9_7_eq_zero {c : Word} : c.extractLsb' 7 3 = 0 ↔ (fieldsOf c).lk = 0 ∧ (fieldsOf c).h = 0 := by
  simp only [fieldsOf, ← BitVec.toNat_inj, BitVec.extractLsb'_toNat, Nat.shiftRight_eq_div_pow, BitVec.ofNat_eq_ofNat,
    BitVec.toNat_ofNat]
  omega

/-- Bits 7:4 are `H` and `S`. -/
theorem bits_7_4_eq_zero {c : Word} : c.extractLsb' 4 4 = 0 ↔ (fieldsOf c).s = 0 ∧ (fieldsOf c).h = 0 := by
  simp only [fieldsOf, ← BitVec.toNat_inj, BitVec.extractLsb'_toNat, Nat.shiftRight_eq_div_pow, BitVec.ofNat_eq_ofNat,
    BitVec.toNat_ofNat]
  omega

/-! ### Operands and their field values (R82) -/

@[simp] theorem laneOf_ofFin (s : LaneId) : laneOf (BitVec.ofFin s) = s := rfl

@[simp] theorem ofFin_laneOf (s : BitVec 3) : BitVec.ofFin (laneOf s) = s := rfl

@[simp] theorem halfOf_ofFin (h : Fin 2) : halfOf (BitVec.ofFin h) = h := rfl

@[simp] theorem ofFin_halfOf (h : BitVec 1) : BitVec.ofFin (halfOf h) = h := rfl

@[simp] theorem ofNat_log2_widthOf (lk : BitVec 2) : BitVec.ofNat 2 (widthOf lk).log2 = lk := by
  simp [widthOf]

theorem widthOf_ofNat_log2 {k : Nat} (hk : legalWidth k = true) : widthOf (BitVec.ofNat 2 k.log2) = k := by
  have hk : k = 1 ∨ k = 2 ∨ k = 4 ∨ k = 8 := by simpa [legalWidth, or_assoc] using hk
  rcases hk with rfl | rfl | rfl | rfl <;> decide

theorem eq_fields_salsa8x {f : Fields} (hop : f.op = 1) (hlk : f.lk = 0) :
    f = (Instr.salsa8x (laneOf f.s) (halfOf f.h)).fields := by
  simp [Instr.fields, ← hop, ← hlk]

theorem eq_fields_bmix {f : Fields} (hop : f.op = 2) (hlk : f.lk = 0) (hh : f.h = 0) :
    f = (Instr.bmix (laneOf f.s)).fields := by
  rw [Instr.fields, ← hop, ← hlk, ← hh]
  simp

theorem eq_fields_romix {f : Fields} (hop : f.op = 3) (hlk : f.lk = 0) (hh : f.h = 0) :
    f = (Instr.romix (laneOf f.s)).fields := by
  rw [Instr.fields, ← hop, ← hlk, ← hh]
  simp

theorem eq_fields_romixb {f : Fields} (hop : f.op = 4) (hs : f.s = 0) (hh : f.h = 0) :
    f = (Instr.romixb (widthOf f.lk)).fields := by
  rw [Instr.fields, ← hop, ← hs, ← hh, ofNat_log2_widthOf]

/-! ### The decoder is the inverse of the encoder -/

/-- What a word decodes to: the command whose field values it has, with zeros in `Z` (R83, R84). -/
theorem decode_eq_ok_iff {c : Word} {i : Instr} :
    decode c = .ok i ↔ i.wf = true ∧ fieldZ c = 0 ∧ fieldsOf c = i.fields := by
  constructor
  · intro h
    refine ⟨wf_of_decode h, ?_⟩
    revert h
    fun_cases decode c with
    | case1 | case3 | case5 | case7 | case9 | case10 => exact nofun
    | case2 _ hz hop hlk => rintro ⟨⟩; exact ⟨not_not.1 hz, eq_fields_salsa8x hop hlk⟩
    | case4 _ hz _ hop h0 => rintro ⟨⟩; exact ⟨not_not.1 hz, eq_fields_bmix hop h0.1 h0.2⟩
    | case6 _ hz _ _ hop h0 => rintro ⟨⟩; exact ⟨not_not.1 hz, eq_fields_romix hop h0.1 h0.2⟩
    | case8 _ hz _ _ _ hop h0 => rintro ⟨⟩; exact ⟨not_not.1 hz, eq_fields_romixb hop h0.1 h0.2⟩
  · rintro ⟨hw, hz, hf⟩
    cases i with
    | salsa8x s h => simp [decode, hz, hf, Instr.fields]
    | bmix s => simp [decode, hz, hf, Instr.fields]
    | romix s => simp [decode, hz, hf, Instr.fields]
    | romixb k => simp [decode, hz, hf, Instr.fields, widthOf_ofNat_log2 hw]

theorem encode_wf {i : Instr} (h : i.wf = true) : encode i = some (wordOf i.fields) := if_pos h

theorem encode_not_wf {i : Instr} (h : i.wf = false) : encode i = none := by simp [encode, h]

theorem decode_eq_ok_iff_encode {c : Word} {i : Instr} : decode c = .ok i ↔ i.wf = true ∧ encode i = some c := by
  rw [decode_eq_ok_iff, ← wordOf_eq_iff]
  refine and_congr_right fun hw => ?_
  rw [encode_wf hw, Option.some.injEq]

/-- Settles O1: a command's word is the one with its field values, and decoding is encoding backwards. -/
theorem decodeEncodeRoundTrip : Obligations.DecodeEncodeRoundTrip := by
  refine fun i => ⟨fun hw => ⟨_, encode_wf hw, decode_eq_ok_iff_encode.2 ⟨hw, encode_wf hw⟩⟩, fun hw => ?_⟩
  exact ⟨encode_not_wf hw, by rw [scriptCmd, encode_not_wf hw]⟩

/-- Settles O2, the other direction of `decode_eq_ok_iff_encode`. -/
theorem decodedWordIsTheEncoding : Obligations.DecodedWordIsTheEncoding :=
  fun _ _ => decode_eq_ok_iff_encode.1

/-- Settles O5, by running the decoder. -/
theorem writtenOutWordsDecode : Obligations.WrittenOutWordsDecode := by
  unfold Obligations.WrittenOutWordsDecode
  decide

/-! ### The four rows of the opcode table -/

theorem exists_decode_salsa8x {c : Word} :
    (∃ s h, decode c = .ok (.salsa8x s h)) ↔ fieldZ c = 0 ∧ (fieldsOf c).op = 1 ∧ (fieldsOf c).lk = 0 := by
  simp only [decode_eq_ok_iff]
  constructor
  · rintro ⟨s, h, -, hz, hf⟩
    exact ⟨hz, by rw [hf]; exact ⟨rfl, rfl⟩⟩
  · rintro ⟨hz, hop, hlk⟩
    exact ⟨laneOf (fieldsOf c).s, halfOf (fieldsOf c).h, rfl, hz, eq_fields_salsa8x hop hlk⟩

theorem exists_decode_bmix {c : Word} :
    (∃ s, decode c = .ok (.bmix s)) ↔
      fieldZ c = 0 ∧ (fieldsOf c).op = 2 ∧ (fieldsOf c).lk = 0 ∧ (fieldsOf c).h = 0 := by
  simp only [decode_eq_ok_iff]
  constructor
  · rintro ⟨s, -, hz, hf⟩
    exact ⟨hz, by rw [hf]; exact ⟨rfl, rfl, rfl⟩⟩
  · rintro ⟨hz, hop, hlk, hh⟩
    exact ⟨laneOf (fieldsOf c).s, rfl, hz, eq_fields_bmix hop hlk hh⟩

theorem exists_decode_romix {c : Word} :
    (∃ s, decode c = .ok (.romix s)) ↔
      fieldZ c = 0 ∧ (fieldsOf c).op = 3 ∧ (fieldsOf c).lk = 0 ∧ (fieldsOf c).h = 0 := by
  simp only [decode_eq_ok_iff]
  constructor
  · rintro ⟨s, -, hz, hf⟩
    exact ⟨hz, by rw [hf]; exact ⟨rfl, rfl, rfl⟩⟩
  · rintro ⟨hz, hop, hlk, hh⟩
    exact ⟨laneOf (fieldsOf c).s, rfl, hz, eq_fields_romix hop hlk hh⟩

theorem exists_decode_romixb {c : Word} :
    (∃ k, decode c = .ok (.romixb k)) ↔
      fieldZ c = 0 ∧ (fieldsOf c).op = 4 ∧ (fieldsOf c).s = 0 ∧ (fieldsOf c).h = 0 := by
  simp only [decode_eq_ok_iff]
  constructor
  · rintro ⟨k, -, hz, hf⟩
    exact ⟨hz, by rw [hf]; exact ⟨rfl, rfl, rfl⟩⟩
  · rintro ⟨hz, hop, hs, hh⟩
    exact ⟨widthOf (fieldsOf c).lk, legalWidth_widthOf _, hz, eq_fields_romixb hop hs hh⟩

/-- A word decodes to a command if and only if it decodes to one of the four rows. -/
theorem exists_decode {c : Word} :
    (∃ i, decode c = .ok i) ↔
      (∃ s h, decode c = .ok (.salsa8x s h)) ∨ (∃ s, decode c = .ok (.bmix s)) ∨
      (∃ s, decode c = .ok (.romix s)) ∨ ∃ k, decode c = .ok (.romixb k) := by
  constructor
  · rintro ⟨i, h⟩
    cases i with
    | salsa8x s k => exact .inl ⟨s, k, h⟩
    | bmix s => exact .inr (.inl ⟨s, h⟩)
    | romix s => exact .inr (.inr (.inl ⟨s, h⟩))
    | romixb k => exact .inr (.inr (.inr ⟨k, h⟩))
  · rintro (⟨_, _, h⟩ | ⟨_, h⟩ | ⟨_, h⟩ | ⟨_, h⟩) <;> exact ⟨_, h⟩

/-- A mask with `Z` set, read field by field: f and g are the field values of mask and match. -/
theorem and_eq_iff_fields {c m d : Word} (f g : Fields) (hm : fieldZ m = .allOnes 22 ∧ fieldsOf m = f)
    (hd : fieldZ d = 0 ∧ fieldsOf d = g) :
    c &&& m = d ↔ fieldZ c = 0 ∧ (fieldsOf c).op &&& f.op = g.op ∧ (fieldsOf c).s &&& f.s = g.s ∧
      (fieldsOf c).h &&& f.h = g.h ∧ (fieldsOf c).lk &&& f.lk = g.lk := by
  obtain ⟨hzm, rfl⟩ := hm
  obtain ⟨hzd, rfl⟩ := hd
  have hz : fieldZ (c &&& m) = fieldZ c := by
    rw [← BitVec.and_allOnes (x := fieldZ c), ← hzm]
    exact BitVec.extractLsb'_and
  rw [word_eq_iff, hz, hzd]
  simp only [fieldsOf, BitVec.extractLsb'_and, Fields.mk.injEq]

/-- Settles O4: each mask is the row's fixed fields and each match their values. -/
theorem wordSelectsRowByMaskAndMatch : Obligations.WordSelectsRowByMaskAndMatch := by
  refine fun c => ⟨?_, ?_, ?_, ?_⟩
  · rw [exists_decode_salsa8x, and_eq_iff_fields ⟨.allOnes 4, 0, 0, .allOnes 2⟩ ⟨1, 0, 0, 0⟩ (by decide) (by decide)]
    simp only [BitVec.and_allOnes, BitVec.and_zero, true_and, BitVec.ofNat_eq_ofNat]
  · rw [exists_decode_bmix, and_eq_iff_fields ⟨.allOnes 4, 0, .allOnes 1, .allOnes 2⟩ ⟨2, 0, 0, 0⟩ (by decide) (by decide)]
    simp only [BitVec.and_allOnes, BitVec.and_zero, true_and, BitVec.ofNat_eq_ofNat, and_comm]
  · rw [exists_decode_romix, and_eq_iff_fields ⟨.allOnes 4, 0, .allOnes 1, .allOnes 2⟩ ⟨3, 0, 0, 0⟩ (by decide) (by decide)]
    simp only [BitVec.and_allOnes, BitVec.and_zero, true_and, BitVec.ofNat_eq_ofNat, and_comm]
  · rw [exists_decode_romixb, and_eq_iff_fields ⟨.allOnes 4, .allOnes 3, .allOnes 1, 0⟩ ⟨4, 0, 0, 0⟩ (by decide) (by decide)]
    simp only [BitVec.and_allOnes, BitVec.and_zero, and_true, BitVec.ofNat_eq_ofNat]

/-! ### Legal words and illegal ones -/

/-- R84: the legal words, bit for bit. -/
theorem exists_decode_iff_bits {c : Word} :
    (∃ i, decode c = .ok i) ↔
      c.extractLsb' 10 22 = 0 ∧
        ((c.extractLsb' 0 4 = 1 ∧ c.extractLsb' 8 2 = 0) ∨ (c.extractLsb' 0 4 = 2 ∧ c.extractLsb' 7 3 = 0) ∨
         (c.extractLsb' 0 4 = 3 ∧ c.extractLsb' 7 3 = 0) ∨ (c.extractLsb' 0 4 = 4 ∧ c.extractLsb' 4 4 = 0)) := by
  rw [exists_decode, exists_decode_salsa8x, exists_decode_bmix, exists_decode_romix, exists_decode_romixb,
    bits_9_7_eq_zero, bits_7_4_eq_zero]
  simp only [← and_or_left]
  rfl

theorem hostWrite_illegal {c : Word} {s : State} (hc : ¬ ∃ i, decode c = .ok i) (hf : s.status.fault = none) :
    hostWrite cmdAddr c s = .next (s.raise .illCmd) := by
  cases hd : decode c with
  | ok i => exact absurd ⟨i, hd⟩ hc
  | error e => simp [hostWrite, hf, hostLoc_cmd, hd]

/-- Settles O3: the rows' conditions on the bits, the field values by cases of the command, and fault entry. -/
theorem legalWordsAndIllegalOnes : Obligations.LegalWordsAndIllegalOnes := by
  refine ⟨fun c => exists_decode_iff_bits, fun c i h => ?_, fun c s hc hr => hostWrite_illegal hc hr.2⟩
  obtain ⟨hw, -, hf⟩ := decode_eq_ok_iff.1 h
  have hop : c.extractLsb' 0 4 = i.fields.op := congrArg Fields.op hf
  have hs : c.extractLsb' 4 3 = i.fields.s := congrArg Fields.s hf
  have hh : c.extractLsb' 7 1 = i.fields.h := congrArg Fields.h hf
  have hlk : c.extractLsb' 8 2 = i.fields.lk := congrArg Fields.lk hf
  rw [hop, hs, hh, hlk]
  cases i with
  | salsa8x s k => exact ⟨fun _ => ⟨s, k, rfl, by simp [Instr.fields], by simp [Instr.fields]⟩, by simp [Instr.fields]⟩
  | bmix s => simp [Instr.fields]
  | romix s => simp [Instr.fields]
  | romixb k =>
    have hk : k = 2 ^ (Instr.romixb k).fields.lk.toNat := (widthOf_ofNat_log2 hw).symm
    exact ⟨by simp [Instr.fields], by simp [Instr.fields], by simp [Instr.fields], fun _ => congrArg _ hk⟩

/-! ### WAIT -/

/-- The fields of a `STATUS` read (R30, R183). -/
theorem statusWord_fields (st : Status) :
    (statusWord st).extractLsb' 4 28 = 0 ∧ (statusWord st).extractLsb' 0 1 = BitVec.ofBool st.busy ∧
    (statusWord st).extractLsb' 1 1 = BitVec.ofBool st.done ∧ (statusWord st).extractLsb' 2 2 = faultBits st.fault := by
  have hf := (faultBits st.fault).isLt
  have hd := (BitVec.ofBool st.done).isLt
  have hb := (BitVec.ofBool st.busy).isLt
  simp only [statusWord, ← BitVec.toNat_inj, BitVec.extractLsb'_toNat, toNat_append_add, Nat.shiftRight_eq_div_pow,
    BitVec.ofNat_eq_ofNat, BitVec.toNat_ofNat]
  omega

/-- Settles O45: WAIT is never held, and bit 0 of the value it reads is `BUSY`. -/
theorem waitPollsStatus : Obligations.WaitPollsStatus := by
  intro s rest hs
  obtain ⟨hzero, hbusy, hdone, hfault⟩ := statusWord_fields s.status
  refine ⟨by simp [enabled, State.hostReady, hs, HostAction.isHeld], _, rfl, ?_, hzero, hbusy, hdone, ?_⟩
  · have hbit : (BitVec.ofBool s.status.busy = 1) ↔ s.status.busy = true := by cases s.status.busy <;> decide
    rw [perform_host_taken hs rfl, takeHost, hostRead_status]
    simp only [hbusy, hbit]
    rfl
  · rw [hfault]
    cases s.status.fault with
    | none => rfl
    | some e => cases e <;> rfl

end Sys2Proof.Machine

/-! The Salsa20/8 core and the command SALSA8X: ARX, the quarter-rounds and rounds, P8, SX, the micro-steps that are an SX
evaluation, and what a schedule of a command without transfers comes to (spec/40_salsa.md). -/

namespace Sys2Proof.Machine

/-! ### ARX (R101) -/

@[simp] theorem arx_getElem_same (x : Half) (a b c : Fin 16) (r : Nat) :
    (arx x a b c r)[a] = x[a] ^^^ rotl (x[b] + x[c]) r := by
  simp [arx]

theorem arx_getElem_ne (x : Half) {a d : Fin 16} (h : d ≠ a) (b c : Fin 16) (r : Nat) :
    (arx x a b c r)[d] = x[d] := by
  have hv : a.val ≠ d.val := fun e => h (Fin.ext e.symm)
  exact Vector.getElem_set_ne _ _ hv

/-- Settles O7, by the two laws of a vector update. -/
theorem arxWritesItsTargetOnly : Obligations.ArxWritesItsTargetOnly :=
  fun x a b c r => ⟨arx_getElem_same x a b c r, fun _ hd => arx_getElem_ne x hd b c r⟩

/-- Two halves with the same words are one. -/
theorem half_ext {x y : Half} (h : ∀ w : Fin 16, x[w] = y[w]) : x = y :=
  Vector.ext fun i hi => h ⟨i, hi⟩

/-- Two ARX operations commute where neither reads or writes what the other writes. -/
theorem arx_commute {a b c a' b' c' : Fin 16} (ha : a ≠ a') (hb : b ≠ a') (hc : c ≠ a') (hb' : b' ≠ a) (hc' : c' ≠ a)
    (r r' : Nat) : Function.Commute (arx · a b c r) (arx · a' b' c' r') := by
  intro x
  apply half_ext
  intro w
  dsimp only
  by_cases hw : w = a
  · subst hw
    rw [arx_getElem_same, arx_getElem_ne _ ha, arx_getElem_ne _ ha, arx_getElem_ne _ hb, arx_getElem_ne _ hc,
      arx_getElem_same]
  · rw [arx_getElem_ne _ hw]
    by_cases hw' : w = a'
    · subst hw'
      rw [arx_getElem_same, arx_getElem_same, arx_getElem_ne _ hw, arx_getElem_ne _ hb', arx_getElem_ne _ hc']
    · rw [arx_getElem_ne _ hw', arx_getElem_ne _ hw', arx_getElem_ne _ hw]

/-- An ARX operation that does not read its target undoes itself: it adds, by xor, what it has not changed. -/
theorem arx_involutive {a b c : Fin 16} (hb : b ≠ a) (hc : c ≠ a) (r : Nat) :
    Function.Involutive (arx · a b c r) := by
  intro x
  apply half_ext
  intro w
  dsimp only
  by_cases hw : w = a
  · subst hw
    rw [arx_getElem_same, arx_getElem_same, arx_getElem_ne _ hb, arx_getElem_ne _ hc, BitVec.xor_assoc, BitVec.xor_self,
      BitVec.xor_zero]
  · rw [arx_getElem_ne _ hw, arx_getElem_ne _ hw]

/-- The all-zero half. -/
def zeroHalf : Half := Vector.replicate 16 0

@[simp] theorem zeroHalf_getElem (w : Nat) (h : w < 16) : zeroHalf[w] = 0#32 := Vector.getElem_replicate h

@[simp] theorem rotl_zero (r : Nat) : rotl 0#32 r = 0#32 := by simp [rotl]

@[simp] theorem arx_zeroHalf (a b c : Fin 16) (r : Nat) : arx zeroHalf a b c r = zeroHalf := by
  apply half_ext
  intro w
  by_cases hw : w = a
  · subst hw; rw [arx_getElem_same]; simp
  · exact arx_getElem_ne _ hw b c r

/-! ### Quarter-rounds and rounds (R102 to R107) -/

/-- Settles O8, by unfolding: the index groups are the values of R103 and R105. -/
theorem roundWiring : Obligations.RoundWiring :=
  ⟨fun _ _ _ _ _ => rfl, fun _ => rfl, fun _ => rfl, fun _ => rfl⟩

/-- What commutes with every ARX operation on a group of words commutes with the quarter-round on the group. -/
theorem commute_qr {f : Half → Half} {y : Nat → Fin 16}
    (h : ∀ i j k r, Function.Commute f (arx · (y i) (y j) (y k) r)) :
    Function.Commute f (qr · (y 0) (y 1) (y 2) (y 3)) :=
  (h 0 3 2 18).comp_right ((h 3 2 1 13).comp_right ((h 2 1 0 9).comp_right (h 1 0 3 7)))

/-- Quarter-rounds on disjoint groups of words commute. -/
theorem qr_commute {y z : Nat → Fin 16} (h : ∀ m n, y m ≠ z n) :
    Function.Commute (qr · (y 0) (y 1) (y 2) (y 3)) (qr · (z 0) (z 1) (z 2) (z 3)) :=
  commute_qr fun i j k r => (commute_qr fun i' j' k' r' =>
    arx_commute (h i' i).symm (h i' j).symm (h i' k).symm (h j' i) (h k' i) r r').symm

theorem colIndex_ne {c d : Nat} (hc : c < 4) (hd : d < 4) (h : c ≠ d) (m n : Nat) : colIndex c m ≠ colIndex d n := by
  simp only [colIndex, Ne, Fin.mk.injEq]
  omega

theorem rowIndex_ne {c d : Nat} (hc : c < 4) (hd : d < 4) (h : c ≠ d) (m n : Nat) : rowIndex c m ≠ rowIndex d n := by
  simp only [rowIndex, Ne, Fin.mk.injEq]
  omega

/-- Settles O9: different groups of a round have no word in common. -/
theorem quarterRoundsOfARoundCommute : Obligations.QuarterRoundsOfARoundCommute := by
  intro x c d hc hd h
  have hne : d ≠ c := h.symm
  exact ⟨qr_commute (colIndex_ne hd hc hne) x, qr_commute (rowIndex_ne hd hc hne) x⟩

/-- The quarter-round on four different words is a bijection, as each of its ARX operations is. -/
theorem qr_bijective {y : Nat → Fin 16} (h : ∀ m n, m < 4 → n < 4 → m ≠ n → y m ≠ y n) :
    Function.Bijective (qr · (y 0) (y 1) (y 2) (y 3)) := by
  have harx (i j k r : Nat) (hi : i < 4) (hj : j < 4) (hk : k < 4) (hji : j ≠ i) (hki : k ≠ i) :
      Function.Bijective (arx · (y i) (y j) (y k) r) :=
    (arx_involutive (h j i hj hi hji) (h k i hk hi hki) r).bijective
  have h1 := harx 1 0 3 7 (by decide) (by decide) (by decide) (by decide) (by decide)
  have h2 := harx 2 1 0 9 (by decide) (by decide) (by decide) (by decide) (by decide)
  have h3 := harx 3 2 1 13 (by decide) (by decide) (by decide) (by decide) (by decide)
  have h4 := harx 0 3 2 18 (by decide) (by decide) (by decide) (by decide) (by decide)
  exact h4.comp (h3.comp (h2.comp h1))

theorem colGroup_bijective (c : Nat) : Function.Bijective (colGroup · c) := by
  refine qr_bijective (y := colIndex c) fun m n hm hn h => ?_
  simp only [colIndex, Ne, Fin.mk.injEq]
  omega

theorem rowGroup_bijective (q : Nat) : Function.Bijective (rowGroup · q) := by
  refine qr_bijective (y := rowIndex q) fun m n hm hn h => ?_
  simp only [rowIndex, Ne, Fin.mk.injEq]
  omega

theorem colRound_bijective : Function.Bijective colRound :=
  (colGroup_bijective 3).comp ((colGroup_bijective 2).comp ((colGroup_bijective 1).comp (colGroup_bijective 0)))

theorem rowRound_bijective : Function.Bijective rowRound :=
  (rowGroup_bijective 3).comp ((rowGroup_bijective 2).comp ((rowGroup_bijective 1).comp (rowGroup_bijective 0)))

theorem dRound_bijective : Function.Bijective dRound := rowRound_bijective.comp colRound_bijective

@[simp] theorem qr_zeroHalf (y0 y1 y2 y3 : Fin 16) : qr zeroHalf y0 y1 y2 y3 = zeroHalf := by simp [qr]

@[simp] theorem dRound_zeroHalf : dRound zeroHalf = zeroHalf := by
  simp [dRound, colRound, rowRound, colGroup, rowGroup]

/-! ### P8 (R108) -/

theorem p8_eq_iterate (x : Half) : p8 x = dRound^[4] x := rfl

theorem p8_bijective : Function.Bijective p8 := by
  rw [funext p8_eq_iterate]
  exact dRound_bijective.iterate 4

@[simp] theorem p8_zeroHalf : p8 zeroHalf = zeroHalf := by simp [p8]

/-- Settles O10: each ARX operation undoes itself, and fixes the all-zero half. -/
theorem p8IsABijection : Obligations.P8IsABijection := ⟨p8_eq_iterate, p8_bijective, p8_zeroHalf⟩

/-! ### SX (R109) -/

theorem sx_eq (a b : Half) : sx a b = halfAdd (halfXor a b) (p8 (halfXor a b)) := by unfold sx; rfl

theorem halfXor_comm (a b : Half) : halfXor a b = halfXor b a :=
  half_ext fun w => by simp [BitVec.xor_comm]

@[simp] theorem halfXor_self (a : Half) : halfXor a a = zeroHalf :=
  half_ext fun w => by simp

@[simp] theorem halfXor_zeroHalf (a : Half) : halfXor a zeroHalf = a :=
  half_ext fun w => by simp

@[simp] theorem halfAdd_zeroHalf (a : Half) : halfAdd a zeroHalf = a :=
  half_ext fun w => by simp

/-- SX of a half and itself is zero. -/
@[simp] theorem sx_self (a : Half) : sx a a = zeroHalf := by
  rw [sx_eq, halfXor_self, p8_zeroHalf, halfAdd_zeroHalf]

theorem sx_zeroHalf (a : Half) : sx a zeroHalf = halfAdd a (p8 a) := by rw [sx_eq, halfXor_zeroHalf]

theorem sx_getElem (a b : Half) (w : Fin 16) : (sx a b)[w] = (a[w] ^^^ b[w]) + (p8 (halfXor a b))[w] := by
  simp [sx_eq]

/-- Settles O11: SX is a function of the xor of its operands. -/
theorem sxAndItsLaws : Obligations.SxAndItsLaws :=
  ⟨sx_getElem, fun a b => by rw [sx_eq, sx_eq, halfXor_comm], sx_self, sx_zeroHalf, fun a b c d h => by
    rw [sx_eq, sx_eq, h]⟩

/-! ### The micro-steps that are an SX evaluation -/

/-- The micro-steps that evaluate SX into the low half are never held, and do nothing else but move the sequencer on. -/
theorem runMicro_mixLo {m : Micro} {h : BitVec 1} (hm : m = .bMix0 ∨ m = .fMix0 ∨ m = .mMix0 ∨ (m = .sExec ∧ h = 0))
    (room : Bool) (s : LaneId) (l : Lane) :
    runMicro m room h s l = some { l.mixLo s with seq := l.seq.after m } := by
  rcases hm with rfl | rfl | rfl | ⟨rfl, rfl⟩ <;> rfl

/-- The micro-steps that evaluate SX into the high half are never held, and do nothing else but move the sequencer on. -/
theorem runMicro_mixHi {m : Micro} {h : BitVec 1} (hm : m = .bMix1 ∨ m = .fMix1 ∨ m = .mMix1 ∨ (m = .sExec ∧ h = 1))
    (room : Bool) (s : LaneId) (l : Lane) :
    runMicro m room h s l = some { l.mixHi s with seq := l.seq.after m } := by
  rcases hm with rfl | rfl | rfl | ⟨rfl, rfl⟩ <;> rfl

/-- What a read of the whole Block register puts on record (R218). -/
theorem unwritten_or_missing_iff (l : Lane) :
    (l.unwritten || l.missing) = true ↔ l.unwritten = true ∨ ∃ w : Fin 32, l.x[w] = none := by
  rw [Bool.or_eq_true, missing_iff]

/-- Settles O29, by the laws of an SX evaluation into the low half. -/
theorem lowHalfMicroSteps : Obligations.LowHalfMicroSteps := by
  intro m room h s l hm
  refine ⟨_, runMicro_mixLo hm room s l, fun w => mixLo_x_lo s l w.val w.isLt, fun w => mixLo_x_hi s l w.val w.isLt,
    fun b hb => mixLo_x_held hb, ?_, mixLo_pr s l, mixLo_pw s l, mixLo_v s l⟩
  rw [mixLo_unwritten, unwritten_or_missing_iff]

/-- Settles O30, by the laws of an SX evaluation into the high half. -/
theorem highHalfMicroSteps : Obligations.HighHalfMicroSteps := by
  intro m room h s l hm
  refine ⟨_, runMicro_mixHi hm room s l, fun w => mixHi_x_hi s l w.val w.isLt, fun w => mixHi_x_lo s l w.val w.isLt,
    fun b hb => mixHi_x_held hb, ?_, mixHi_pr s l, mixHi_pw s l, mixHi_v s l⟩
  rw [mixHi_unwritten, unwritten_or_missing_iff]

/-! ### Schedules of a command -/

/-- One step of a schedule of a command: enabled, no RESET, taken while BUSY = 1. -/
structure RunStep (a : Action) (s u : State) : Prop where
  busy : s.status.busy = true
  noReset : a.isReset s = false
  enabled : enabled a s = true
  next : perform a s = .next u

theorem commandRun_cons {a : Action} {as : List Action} {s t : State} :
    CommandRun (a :: as) s t ↔ ∃ u, RunStep a s u ∧ CommandRun as u t :=
  ⟨fun ⟨hb, hr, he, u, hp, h⟩ => ⟨u, ⟨hb, hr, he, hp⟩, h⟩, fun ⟨u, ⟨hb, hr, he, hp⟩, h⟩ => ⟨hb, hr, he, u, hp, h⟩⟩

/-- What a step of a schedule can do: the host leaves CORE, a lane moves on, the TE performs a transfer, C-DONE. -/
theorem RunStep.cases {a : Action} {s u : State} (h : RunStep a s u) :
    (a = .host ∧ SameCore s u) ∨
    (∃ t l, a = .lane t ∧ laneNext s.teRoom s.cur.h t (s.lane t) = some l ∧ u = s.setLane t l) ∨
    (∃ t j d, a = .teWrite t j ∧ (s.lane t).pw.find j = some d ∧ u = s.setLane t ((s.lane t).wrote j d)) ∨
    (∃ t j d, a = .teRead t ∧ (s.lane t).pr = .issued j ∧ (s.lane t).v.readSlot j = some d ∧
      u = s.setLane t { s.lane t with pr := .performed j d }) ∨
    (a = .cDone ∧ s.allIdle = true ∧ u = s.complete) := by
  obtain ⟨hb, hreset, hen, hp⟩ := h
  rcases perform_cases hp with ⟨hdis, -⟩ | ⟨-, hc⟩
  · rw [hen] at hdis; cases hdis
  rcases hc with hlane | hwrite | hread | ⟨rfl, hcan, rfl⟩ | ⟨rfl, -⟩ | ⟨rfl, -⟩
  · exact .inr (.inl hlane)
  · exact .inr (.inr (.inl hwrite))
  · exact .inr (.inr (.inr (.inl hread)))
  · rw [State.canComplete, Bool.and_eq_true] at hcan
    exact .inr (.inr (.inr (.inr ⟨rfl, hcan.2, rfl⟩)))
  · cases hreset
  · exact .inl ⟨rfl, sameCore_of_busy hb hreset rfl hp⟩

/-- What holds at the start of a schedule and is kept by every step of one holds at its end; and where it lets only steps with Q
be taken, the schedule has only such. -/
theorem commandRun_invariant {P : State → Prop} {Q : Action → Prop}
    (hstep : ∀ a s u, P s → RunStep a s u → Q a ∧ P u) {as : List Action} {s t : State} (hs : P s)
    (h : CommandRun as s t) : (∀ a ∈ as, Q a) ∧ P t := by
  induction as generalizing s with
  | nil => obtain rfl : s = t := h; exact ⟨nofun, hs⟩
  | cons a as ih =>
    obtain ⟨u, hu, hrest⟩ := commandRun_cons.1 h
    obtain ⟨hq, hP⟩ := hstep a s u hs hu
    obtain ⟨hqs, ht⟩ := ih hP hrest
    exact ⟨List.forall_mem_cons.2 ⟨hq, hqs⟩, ht⟩

/-- A step of a schedule leaves the latched command. -/
theorem RunStep.cur {a : Action} {s u : State} (h : RunStep a s u) : u.cur = s.cur := by
  rcases h.cases with ⟨-, hk⟩ | ⟨t, l, -, -, rfl⟩ | ⟨t, j, d, -, -, rfl⟩ | ⟨t, j, d, -, -, -, rfl⟩ | ⟨-, -, rfl⟩
  · exact hk.cur
  · rfl
  · rfl
  · rfl
  · rfl

/-- A step of a schedule leaves `STATUS`, or it is C-DONE with every lane at rest (R189). -/
theorem RunStep.status {a : Action} {s u : State} (h : RunStep a s u) :
    u.status = s.status ∨ (u.status = s.status.complete ∧ u.allIdle = true) := by
  rcases h.cases with ⟨-, hk⟩ | ⟨t, l, -, -, rfl⟩ | ⟨t, j, d, -, -, rfl⟩ | ⟨t, j, d, -, -, -, rfl⟩ | ⟨-, hidle, rfl⟩
  · exact .inl hk.status
  · exact .inl rfl
  · exact .inl rfl
  · exact .inl rfl
  · exact .inr ⟨rfl, hidle⟩

/-- A schedule that reaches BUSY = 0 has taken C-DONE: `STATUS` says so, and every lane is at rest (R189). -/
theorem commandRun_done {as : List Action} {s t : State} (hb : s.status.busy = true) (h : CommandRun as s t)
    (ht : t.status.busy = false) : t.status = s.status.complete ∧ ∀ r, (t.lane r).seq.ph = .idle := by
  obtain ⟨-, hstatus | ⟨hstatus, hidle⟩⟩ := commandRun_invariant (Q := fun _ => True)
    (P := fun u => u.status = s.status ∨ (u.status = s.status.complete ∧ u.allIdle = true))
    (fun a u v hu hstep => by
      rcases hu with hu | ⟨hu, -⟩
      · exact ⟨trivial, hu ▸ hstep.status⟩
      · have hbusy := hstep.busy
        rw [hu] at hbusy; cases hbusy) (.inl rfl) h
  · rw [hstatus, hb] at ht; cases ht
  · exact ⟨hstatus, (allIdle_iff t).1 hidle⟩

/-- From a busy state of the invariant some schedule completes the command, whatever the host wants: by induction on the work
left, taking steps of CORE only. -/
theorem exists_commandRun_done {s : State} (hs : s.Inv) (hb : s.status.busy = true) :
    ∃ as t, CommandRun as s t ∧ t.status.busy = false := by
  induction hw : s.work using Nat.strong_induction_on generalizing s with
  | _ w ih =>
    obtain ⟨a, hcore, hen⟩ := busyIsNeverStuck s hs hb
    obtain ⟨u, hp⟩ := perform_next hs a
    have hlt : u.work < s.work := coreStepsShortenTheWork a s u hcore hen hp
    have hstep : RunStep a s u := ⟨hb, not_reset_of_core hcore s, hen, hp⟩
    cases hu : u.status.busy with
    | false => exact ⟨[a], u, commandRun_cons.2 ⟨u, hstep, rfl⟩, hu⟩
    | true =>
      obtain ⟨as, t, hrun, ht⟩ := ih u.work (hw ▸ hlt) (inv_perform hs hp) hu rfl
      exact ⟨a :: as, t, commandRun_cons.2 ⟨u, hstep, hrun⟩, ht⟩

/-- To show what an accepted command comes to, it is enough to look at the schedules that complete it. -/
theorem completes_of_forall {s : State} {post : List Action → State → Prop} (hs : s.Inv) (hb : s.status.busy = true)
    (h : ∀ as t, CommandRun as s t → t.status.busy = false → post as t) : Completes s post :=
  ⟨h, exists_commandRun_done hs hb⟩

/-! ### Commands without transfers -/

/-- What each lane may be, L, has no transfer, and is kept by the step of the lane. -/
structure QuietLanes (h : BitVec 1) (L : LaneId → Lane → Prop) : Prop where
  noTransfer : ∀ r l, L r l → l.pw = [] ∧ l.pr = .empty
  laneNext : ∀ room r l l', L r l → laneNext room h r l = some l' → L r l'

/-- A step of a schedule leaves each lane what it may be, and is none of the TE. -/
theorem RunStep.quiet {a : Action} {s u : State} {L : LaneId → Lane → Prop} (hL : QuietLanes s.cur.h L)
    (hs : ∀ r, L r (s.lane r)) (h : RunStep a s u) :
    ((∀ r j, a ≠ .teWrite r j) ∧ ∀ r, a ≠ .teRead r) ∧ ∀ r, L r (u.lane r) := by
  rcases h.cases with ⟨rfl, hk⟩ | ⟨t, l, rfl, hl, rfl⟩ | ⟨t, j, d, -, hd, -⟩ | ⟨t, j, d, -, hpr, -⟩ | ⟨rfl, -, rfl⟩
  · exact ⟨⟨nofun, nofun⟩, fun r => by rw [hk.lane]; exact hs r⟩
  · refine ⟨⟨nofun, nofun⟩, fun r => ?_⟩
    rw [lane_setLane]
    split
    · next e => rw [e]; exact hL.laneNext _ t _ l (hs t) hl
    · exact hs r
  · rw [(hL.noTransfer t _ (hs t)).1] at hd; cases hd
  · rw [(hL.noTransfer t _ (hs t)).2] at hpr; cases hpr
  · exact ⟨⟨nofun, nofun⟩, hs⟩

/-- Along a schedule each lane stays what it may be, and the TE takes no step. -/
theorem commandRun_quiet {as : List Action} {s t : State} {L : LaneId → Lane → Prop} (hL : QuietLanes s.cur.h L)
    (hs : ∀ r, L r (s.lane r)) (h : CommandRun as s t) :
    (∀ r j, .teWrite r j ∉ as) ∧ (∀ r, .teRead r ∉ as) ∧ ∀ r, L r (t.lane r) := by
  obtain ⟨hte, -, ht⟩ := commandRun_invariant
    (P := fun u => u.cur = s.cur ∧ ∀ r, L r (u.lane r))
    (Q := fun a => (∀ r j, a ≠ .teWrite r j) ∧ ∀ r, a ≠ .teRead r)
    (fun a u v ⟨hcur, hu⟩ hstep => by
      obtain ⟨hq, hv⟩ := hstep.quiet (hcur ▸ hL) hu
      exact ⟨hq, hstep.cur.trans hcur, hv⟩) ⟨rfl, hs⟩ h
  exact ⟨fun r j hm => (hte _ hm).1 r j rfl, fun r hm => (hte _ hm).2 r rfl, ht⟩

/-! ### Accepted commands -/

/-- The machine that has accepted command i (R185). -/
def State.start (s : State) (i : Instr) : State := s.accept i.fields (startPhase i) (starts i)

theorem lane_start_of_starts (s : State) {i : Instr} {r : LaneId} (h : starts i r = true) :
    (s.start i).lane r = { s.lane r with seq := { ph := startPhase i, i := 0, u := 0 } } := by
  rw [State.start, lane_accept, if_pos h]

theorem lane_start_of_not_starts (s : State) {i : Instr} {r : LaneId} (h : starts i r = false) :
    (s.start i).lane r = s.lane r := by
  simp [State.start, lane_accept, h]

/-- A command is accepted with nothing in flight. -/
theorem noTransfer_start {s : State} (hs : s.Inv) (hr : s.ready) (i : Instr) (r : LaneId) :
    ((s.start i).lane r).pw = [] ∧ ((s.start i).lane r).pr = .empty := by
  obtain ⟨-, -, -, ht⟩ := inv_lane hs r
  have hrest := (transfersInv_quiet (by rw [idle_of_inv hs hr.1 r]; rfl)).1 ht
  cases h : starts i r with
  | true => rw [lane_start_of_starts s h]; exact hrest
  | false => rw [lane_start_of_not_starts s h]; exact hrest

/-! ### SALSA8X (R110) -/

theorem microSExec_frame (s : LaneId) (h : BitVec 1) (l : Lane) :
    (microSExec s h l).seq = Seq.idle ∧ (microSExec s h l).pw = l.pw ∧ (microSExec s h l).pr = l.pr := by
  obtain ⟨-, hq, hkeep⟩ := runMicro_frame (m := .sExec) (room := true) (h := h) (s := s) (l := l) rfl
  obtain ⟨hpw, hpr⟩ := hkeep rfl
  exact ⟨hq, hpw, hpr⟩

theorem microSExec_unwritten {s : LaneId} {l : Lane} {b : Block} (h : BitVec 1) (hx : l.x = held b) :
    (microSExec s h l).unwritten = l.unwritten := by
  simp only [microSExec]
  split <;> simp [missing_held hx]

theorem microSExec_x {s : LaneId} {l : Lane} {b : Block} (h : Fin 2) (hx : l.x = held b) :
    (microSExec s (BitVec.ofNat 1 h.val) l).x =
      held (if h = 0 then ofHalves (sx (lo b) (hi b)) (hi b) else ofHalves (lo b) (sx (hi b) (lo b))) := by
  obtain rfl | rfl : h = 0 ∨ h = 1 := by omega
  · exact mixLo_x_held hx
  · exact mixHi_x_held hx

/-- In phase SAL the one step of a lane is S-EXEC (R187). -/
theorem laneNext_sal {room : Bool} {h : BitVec 1} {s : LaneId} {l : Lane} (hph : l.seq.ph = .sal) :
    laneNext room h s l = some (microSExec s h l) := by
  simp [laneNext, selected, hph, runMicro]

/-- What lane r may be in a schedule of SALSA8X on lane s from t: as it was, or, if it is lane s, after S-EXEC. -/
def SalsaLane (t : State) (s r : LaneId) (l : Lane) : Prop :=
  l = t.lane r ∨ (r = s ∧ l = microSExec s t.cur.h (t.lane s))

/-- S-EXEC of lane s is the only lane step of SALSA8X, and no lane has a transfer. -/
theorem quietLanes_salsa {st : State} (hs : st.Inv) (hr : st.ready) (s : LaneId) (h : Fin 2) :
    QuietLanes (st.start (.salsa8x s h)).cur.h (SalsaLane (st.start (.salsa8x s h)) s) where
  noTransfer r l hl := by
    have hno := noTransfer_start hs hr (.salsa8x s h) r
    rcases hl with rfl | ⟨rfl, rfl⟩
    · exact hno
    · obtain ⟨-, hpw, hpr⟩ := microSExec_frame r (st.start (.salsa8x r h)).cur.h ((st.start (.salsa8x r h)).lane r)
      rwa [hpw, hpr]
  laneNext room r l l' hl hn := by
    rcases hl with rfl | ⟨rfl, rfl⟩
    · cases hr' : starts (.salsa8x s h) r with
      | true =>
        obtain rfl : r = s := by simpa [starts] using hr'
        rw [laneNext_sal (by rw [lane_start_of_starts st hr']; rfl)] at hn
        exact .inr ⟨rfl, (Option.some.inj hn).symm⟩
      | false =>
        rw [laneNext_idle (by rw [lane_start_of_not_starts st hr']; exact idle_of_inv hs hr.1 r)] at hn
        cases hn
    · rw [laneNext_idle (by rw [(microSExec_frame ..).1]; rfl)] at hn
      cases hn

/-- Settles O21: at BUSY = 0 lane s is at rest, so it has taken S-EXEC, and no other lane had a step. -/
theorem salsa8xResult : Obligations.Salsa8xResult := by
  intro st s h b hs hr hx
  refine ⟨st.start (.salsa8x s h), exec_ready rfl hr, completes_of_forall (inv_accept hs hr _ _) rfl fun as u hrun hu => ?_⟩
  have hon : starts (.salsa8x s h) s = true := by simp [starts]
  have hlane := lane_start_of_starts st hon
  obtain ⟨hstatus, hidle⟩ := commandRun_done rfl hrun hu
  obtain ⟨hwrite, hread, hlanes⟩ := commandRun_quiet (quietLanes_salsa hs hr s h) (fun r => .inl rfl) hrun
  obtain ⟨hpw, hpr⟩ := (quietLanes_salsa hs hr s h).noTransfer s _ (hlanes s)
  have hx' : ((st.start (.salsa8x s h)).lane s).x = held b := by rw [hlane]; exact hx
  have hdone : u.lane s = microSExec s (BitVec.ofNat 1 h.val) ((st.start (.salsa8x s h)).lane s) := by
    rcases hlanes s with he | ⟨-, he⟩
    · have hph := hidle s
      rw [he, hlane] at hph; cases hph
    · exact he
  refine ⟨by rw [hdone, microSExec_x h hx'], hwrite, hread, hpw, hpr, hidle s, ?_, fun r hne => ?_, ?_⟩
  · rw [hdone, microSExec_unwritten _ hx', hlane]
  · rcases hlanes r with he | ⟨he, -⟩
    · rw [he, lane_start_of_not_starts st (by simpa [starts] using hne)]
    · exact absurd he hne
  · rw [hstatus, ← hr.2]; rfl

end Sys2Proof.Machine

/-! BlockMix: the function, the micro-steps B-MIX0 and B-MIX1, and what every schedule of BMIX comes to
(spec/41_blockmix.md). -/

namespace Sys2Proof.Machine

/-! ### The function (R120 to R123) -/

theorem sx_comm (a b : Half) : sx a b = sx b a := by rw [sx_eq, sx_eq, halfXor_comm]

/-- R122, R123: BlockMix in place, the low half first and the high half from the new low half. -/
theorem bm_eq_in_place (b : Block) : bm b = ofHalves (sx (lo b) (hi b)) (sx (hi b) (sx (lo b) (hi b))) := by
  rw [bm, sx_comm (hi b) (lo b), sx_comm (hi b)]

theorem lo_bm (b : Block) : lo (bm b) = sx (lo b) (hi b) := by rw [bm_eq_in_place, lo_ofHalves]

/-- Settles O12: SX does not depend on the order of its operands, and is zero on equal ones. -/
theorem blockMixFormsAgree : Obligations.BlockMixFormsAgree := by
  refine fun b => ⟨bm_eq_in_place b, fun h => ?_⟩
  rw [lo_bm, h]
  exact sx_self _

/-! ### The micro-steps B-MIX0 and B-MIX1 (R122, R188) -/

theorem microBMix0_frame (s : LaneId) (l : Lane) :
    (microBMix0 s l).seq = { ph := .bmx, i := 0, u := 1 } ∧ (microBMix0 s l).pw = l.pw ∧ (microBMix0 s l).pr = l.pr :=
  ⟨rfl, mixLo_pw s l, mixLo_pr s l⟩

theorem microBMix1_frame (s : LaneId) (l : Lane) :
    (microBMix1 s l).seq = Seq.idle ∧ (microBMix1 s l).pw = l.pw ∧ (microBMix1 s l).pr = l.pr :=
  ⟨rfl, mixHi_pw s l, mixHi_pr s l⟩

theorem microBMix0_x {s : LaneId} {l : Lane} {b : Block} (hx : l.x = held b) :
    (microBMix0 s l).x = held (ofHalves (sx (lo b) (hi b)) (hi b)) := mixLo_x_held hx

theorem microBMix1_x {s : LaneId} {l : Lane} {b : Block} (hx : l.x = held b) :
    (microBMix1 s l).x = held (ofHalves (lo b) (sx (hi b) (lo b))) := mixHi_x_held hx

theorem microBMix0_unwritten {s : LaneId} {l : Lane} {b : Block} (hx : l.x = held b) :
    (microBMix0 s l).unwritten = l.unwritten := by
  simp [microBMix0, missing_held hx]

theorem microBMix1_unwritten {s : LaneId} {l : Lane} {b : Block} (hx : l.x = held b) :
    (microBMix1 s l).unwritten = l.unwritten := by
  simp [microBMix1, missing_held hx]

/-- The two micro-steps of BMIX, one after the other. -/
def microBMix (s : LaneId) (l : Lane) : Lane := microBMix1 s (microBMix0 s l)

theorem microBMix_frame (s : LaneId) (l : Lane) :
    (microBMix s l).seq = Seq.idle ∧ (microBMix s l).pw = l.pw ∧ (microBMix s l).pr = l.pr := by
  obtain ⟨-, hpw, hpr⟩ := microBMix0_frame s l
  obtain ⟨hq, hpw', hpr'⟩ := microBMix1_frame s (microBMix0 s l)
  exact ⟨hq, hpw'.trans hpw, hpr'.trans hpr⟩

/-- The two micro-steps compute BlockMix of a written Block (R122). -/
theorem microBMix_x {s : LaneId} {l : Lane} {b : Block} (hx : l.x = held b) : (microBMix s l).x = held (bm b) := by
  rw [microBMix, microBMix1_x (microBMix0_x hx), lo_ofHalves, hi_ofHalves, ← bm_eq_in_place]

theorem microBMix_unwritten {s : LaneId} {l : Lane} {b : Block} (hx : l.x = held b) :
    (microBMix s l).unwritten = l.unwritten := by
  rw [microBMix, microBMix1_unwritten (microBMix0_x hx), microBMix0_unwritten hx]

/-- At the start of phase BMX the one step of a lane is B-MIX0 (R188). -/
theorem laneNext_bmx0 {room : Bool} {h : BitVec 1} {s : LaneId} {l : Lane} (hq : l.seq = { ph := .bmx, i := 0, u := 0 }) :
    laneNext room h s l = some (microBMix0 s l) := by
  simp [laneNext, selected, hq, runMicro]

/-- After B-MIX0 the one step of a lane is B-MIX1 (R188). -/
theorem laneNext_bmx1 {room : Bool} {h : BitVec 1} {s : LaneId} {l : Lane} (hq : l.seq = { ph := .bmx, i := 0, u := 1 }) :
    laneNext room h s l = some (microBMix1 s l) := by
  simp [laneNext, selected, hq, runMicro]

/-! ### Schedules of BMIX (R122, R190) -/

/-- What lane r may be in a schedule of BMIX on lane s from t: as it was, or, if it is lane s, after B-MIX0, or after both
micro-steps. -/
def BmixLane (t : State) (s r : LaneId) (l : Lane) : Prop :=
  l = t.lane r ∨ (r = s ∧ (l = microBMix0 s (t.lane s) ∨ l = microBMix s (t.lane s)))

/-- B-MIX0, then B-MIX1 of lane s are the only lane steps of BMIX, and no lane has a transfer. -/
theorem quietLanes_bmix {st : State} (hs : st.Inv) (hr : st.ready) (s : LaneId) :
    QuietLanes (st.start (.bmix s)).cur.h (BmixLane (st.start (.bmix s)) s) where
  noTransfer r l hl := by
    have hno := noTransfer_start hs hr (.bmix s) r
    rcases hl with rfl | ⟨rfl, rfl | rfl⟩
    · exact hno
    · obtain ⟨-, hpw, hpr⟩ := microBMix0_frame r ((st.start (.bmix r)).lane r)
      rwa [hpw, hpr]
    · obtain ⟨-, hpw, hpr⟩ := microBMix_frame r ((st.start (.bmix r)).lane r)
      rwa [hpw, hpr]
  laneNext room r l l' hl hn := by
    rcases hl with rfl | ⟨rfl, rfl | rfl⟩
    · cases hr' : starts (.bmix s) r with
      | true =>
        obtain rfl : r = s := by simpa [starts] using hr'
        rw [laneNext_bmx0 (by rw [lane_start_of_starts st hr']; rfl)] at hn
        exact .inr ⟨rfl, .inl (Option.some.inj hn).symm⟩
      | false =>
        rw [laneNext_idle (by rw [lane_start_of_not_starts st hr']; exact idle_of_inv hs hr.1 r)] at hn
        cases hn
    · rw [laneNext_bmx1 (microBMix0_frame ..).1] at hn
      exact .inr ⟨rfl, .inr (Option.some.inj hn).symm⟩
    · rw [laneNext_idle (by rw [(microBMix_frame ..).1]; rfl)] at hn
      cases hn

/-- Lane s of an accepted BMIX that is at rest has taken both micro-steps. -/
theorem BmixLane.of_idle {st : State} {s : LaneId} {l : Lane} (h : BmixLane (st.start (.bmix s)) s s l)
    (hidle : l.seq.ph = .idle) : l = microBMix s ((st.start (.bmix s)).lane s) := by
  rcases h with rfl | ⟨-, rfl | he⟩
  · rw [lane_start_of_starts st (by simp [starts])] at hidle; cases hidle
  · rw [(microBMix0_frame ..).1] at hidle; cases hidle
  · exact he

/-- Every other lane is as it was before the command. -/
theorem BmixLane.of_ne {st : State} {s r : LaneId} {l : Lane} (h : BmixLane (st.start (.bmix s)) s r l) (hne : r ≠ s) :
    l = st.lane r := by
  rcases h with rfl | ⟨he, -⟩
  · exact lane_start_of_not_starts st (by simpa [starts] using hne)
  · exact absurd he hne

/-- Settles O22: at BUSY = 0 lane s is at rest, so it has taken B-MIX0 and B-MIX1, and no other lane had a step. -/
theorem bmixResult : Obligations.BmixResult := by
  intro st s b hs hr hx
  refine ⟨st.start (.bmix s), exec_ready rfl hr, completes_of_forall (inv_accept hs hr _ _) rfl fun as u hrun hu => ?_⟩
  have hlane := lane_start_of_starts st (i := .bmix s) (r := s) (by simp [starts])
  have hx' : ((st.start (.bmix s)).lane s).x = held b := by rw [hlane]; exact hx
  have hquiet := quietLanes_bmix hs hr s
  obtain ⟨hstatus, hidle⟩ := commandRun_done rfl hrun hu
  obtain ⟨hwrite, hread, hlanes⟩ := commandRun_quiet hquiet (fun r => .inl rfl) hrun
  obtain ⟨hpw, hpr⟩ := hquiet.noTransfer s _ (hlanes s)
  have hdone := (hlanes s).of_idle (hidle s)
  refine ⟨by rw [hdone, microBMix_x hx'], hwrite, hread, hpw, hpr, hidle s, ?_, fun r => (hlanes r).of_ne, ?_⟩
  · rw [hdone, microBMix_unwritten hx', hlane]
  · rw [hstatus, ← hr.2]; rfl

end Sys2Proof.Machine

/-! ROMix: the function, the micro-steps of a lane in it, and what every schedule of ROMIX comes to: its result, its count of
steps and its read trace (spec/42_romix.md). -/

namespace Sys2Proof.Machine

/-! ### No step stops the machine (R146) -/

/-- Settles O57: a read to perform is of a slot that stands in the bank, and no other step can stop the machine. -/
theorem noStepFaultsOrRefuses : Obligations.NoStepFaultsOrRefuses := fun _ hs => step_next hs

/-! ### The function (R130 to R135) -/

/-- Settles O13, by induction on the iterations: the first stores the Block, the others start from BM of it. -/
theorem fillPhaseStoresTheIterates : Obligations.FillPhaseStoresTheIterates := by
  intro n b
  induction n generalizing b with
  | zero => exact ⟨rfl, rfl⟩
  | succ n ih =>
    obtain ⟨hstored, hblock⟩ := ih (bm b)
    refine ⟨?_, hblock⟩
    rw [fillPhase, hstored, List.range_succ_eq_map, List.map_cons, List.map_map]
    rfl

/-- The Blocks of the fill phase over n iterations from b, slot 0 first (R131). -/
def filled (n : Nat) (b : Block) : List Block := (List.range n).map fun i => bm^[i] b

/-- The index of a mix iteration on x, at N = n (R132). -/
def mixIndex (n : Nat) (x : Block) : Nat := integerifyN n x[16]

/-- The xor of a mix iteration on x, where the scratchpad was filled from b (R133). -/
def mixXor (n : Nat) (b x : Block) : Block := blockXor x (bm^[mixIndex n x] b)

/-- One mix iteration on x, where the scratchpad was filled from b (R133). -/
def mixStep (n : Nat) (b x : Block) : Block := bm (mixXor n b x)

/-- The slot a mix iteration looks up holds BM applied as many times as the slot's number says. -/
theorem getD_filled {n : Nat} (hn : 0 < n) (b x : Block) :
    (filled n b).getD (integerifyN n x[16]) x = bm^[mixIndex n x] b := by
  have hlt : integerifyN n x[16] < (filled n b).length := by
    simpa [filled, integerifyN] using Nat.mod_lt x[16].toNat hn
  rw [List.getD_eq_getElem _ _ hlt]
  simp [filled, mixIndex]

theorem mixPhase_filled {n : Nat} (hn : 0 < n) (b : Block) (k : Nat) (x : Block) :
    mixPhase n (filled n b) k x = (mixStep n b)^[k] x := by
  induction k generalizing x with
  | zero => rfl
  | succ k ih => rw [mixPhase, getD_filled hn, ih]; rfl

theorem mixIndices_filled {n : Nat} (hn : 0 < n) (b : Block) (k : Nat) (x : Block) :
    mixIndices n (filled n b) k x = (List.range k).map fun i => mixIndex n ((mixStep n b)^[i] x) := by
  induction k generalizing x with
  | zero => rfl
  | succ k ih =>
    rw [mixIndices, getD_filled hn, ih, List.range_succ_eq_map, List.map_cons, List.map_map]
    rfl

/-- ROMix of a model of any N (R7, R130). -/
theorem rmN_eq_iterate {n : Nat} (hn : 0 < n) (b : Block) : rmN n b = (mixStep n b)^[n] (bm^[n] b) := by
  obtain ⟨hstored, hblock⟩ := fillPhaseStoresTheIterates n b
  rw [rmN, hstored, hblock]
  exact mixPhase_filled hn b n _

/-- The Block before mix iteration i of ROMix on b (R133). -/
def mixBlock (b : Block) (i : Nat) : Block := (mixStep 1024 b)^[i] (bm^[1024] b)

theorem mixBlock_zero (b : Block) : mixBlock b 0 = bm^[1024] b := by
  rw [mixBlock, Function.iterate_zero_apply]

theorem mixBlock_succ (b : Block) (i : Nat) : mixBlock b (i + 1) = mixStep 1024 b (mixBlock b i) :=
  Function.iterate_succ_apply' ..

/-- R130: ROMix is the mix iterations on the Block after the fill. -/
theorem rm_eq_mixBlock (b : Block) : rm b = mixBlock b 1024 := by
  unfold rm
  exact rmN_eq_iterate (by decide) b

/-- R149: the indices of the function, one of each mix iteration. -/
theorem rmIndices_eq (b : Block) : rmIndices b = (List.range 1024).map fun i => mixIndex 1024 (mixBlock b i) := by
  obtain ⟨hstored, hblock⟩ := fillPhaseStoresTheIterates Config.n b
  rw [rmIndices, hstored, hblock]
  exact mixIndices_filled (by decide) b Config.n (bm^[Config.n] b)

/-! ### The all-zero Block (R135) -/

/-- The Block of 32 zero words. -/
def zeroBlock : Block := Vector.replicate 32 0

@[simp] theorem zeroBlock_getElem (w : Nat) (h : w < 32) : zeroBlock[w] = 0#32 := Vector.getElem_replicate h

@[simp] theorem lo_zeroBlock : lo zeroBlock = zeroHalf := half_ext fun w => by simp

@[simp] theorem hi_zeroBlock : hi zeroBlock = zeroHalf := half_ext fun w => by simp

@[simp] theorem blockXor_zeroBlock (x : Block) : blockXor x zeroBlock = x := Vector.ext fun w hw => by simp

@[simp] theorem bm_zeroBlock : bm zeroBlock = zeroBlock := by
  have h : bm zeroBlock = ofHalves (lo zeroBlock) (hi zeroBlock) := by simp [bm]
  rw [h, ofHalves_lo_hi]

theorem mixStep_zeroBlock (n : Nat) : mixStep n zeroBlock zeroBlock = zeroBlock := by
  rw [mixStep, mixXor, Function.iterate_fixed bm_zeroBlock, blockXor_zeroBlock, bm_zeroBlock]

theorem mixBlock_zeroBlock (i : Nat) : mixBlock zeroBlock i = zeroBlock := by
  rw [mixBlock, Function.iterate_fixed bm_zeroBlock, Function.iterate_fixed (mixStep_zeroBlock 1024)]

theorem mixIndex_zeroBlock (n : Nat) : mixIndex n zeroBlock = 0 := by
  simp [mixIndex, integerifyN]

/-- Settles O14: ROMix as its mix iterations; the all-zero Block is a fixed point of BM and of every mix iteration. -/
theorem romixIsIteratedMix : Obligations.RomixIsIteratedMix := by
  refine ⟨rm_eq_mixBlock, ?_, fun j hj => ?_⟩
  · exact (rm_eq_mixBlock zeroBlock).trans (mixBlock_zeroBlock 1024)
  · have hmem : j ∈ rmIndices zeroBlock := hj
    rw [rmIndices_eq, List.mem_map] at hmem
    obtain ⟨i, -, rfl⟩ := hmem
    rw [mixBlock_zeroBlock, mixIndex_zeroBlock]

/-! ### INTEGERIFY (R132) -/

theorem integerify_val (w : Word) : (integerify w).val = w.toNat % 1024 := rfl

/-- Settles O15: the low 10 bits of a word are the word modulo 2^10. -/
theorem integerifyIsLowTenBits : Obligations.IntegerifyIsLowTenBits := by
  refine ⟨fun b => ⟨integerify_val _, ?_, Nat.le_of_lt_succ (integerify b[16]).isLt⟩, fun b h => by rw [h]; decide⟩
  rw [integerify_val, BitVec.extractLsb'_toNat, Nat.shiftRight_zero]

/-! ### Which micro-step is selected (R136 to R143) -/

/-- In phases FILL and MIX, phase and index select the micro-step. -/
theorem selected_iff {q : Seq} {m : Micro} (hm : m.phase = .fill ∨ m.phase = .mix) :
    selected q = some m ↔ q.ph = m.phase ∧ q.u = m.index := by
  obtain ⟨ph, i, u⟩ := q
  refine ⟨fun h => ?_, fun ⟨hph, hu⟩ => ?_⟩
  · cases ph with
    | fill | mix => exact selected_some (q := ⟨_, i, u⟩) (by fin_cases u <;> simp_all [selected, Seq.legal]) h
    | idle => cases h
    | sal | drain => cases h; simp [Micro.phase] at hm
    | bmx =>
      simp only [selected] at h
      split at h
      · cases h; simp [Micro.phase] at hm
      · split at h <;> cases h; simp [Micro.phase] at hm
  · subst hph hu
    cases m with
    | sExec | bMix0 | bMix1 | lDrain => simp [Micro.phase] at hm
    | fStore | fMix0 | fMix1 | mFetch | mXor | mMix0 | mMix1 => rfl

theorem selected_lDrain {q : Seq} : selected q = some .lDrain ↔ q.ph = .drain := by
  obtain ⟨ph, i, u⟩ := q
  cases ph with
  | idle | sal | drain => simp [selected]
  | bmx | fill | mix => simp only [selected]; split_ifs <;> simp

/-- Where the iteration goes on after its last micro-step: to the next one, and from the last one to q. -/
theorem seq_next {i : Slot} {ph : Phase} {q q' : Seq}
    (h : q' = if lastIter i then q else { ph := ph, i := nextIter i, u := 0 }) :
    (i.val < 1023 → q'.ph = ph ∧ q'.i.val = i.val + 1 ∧ q'.u = 0) ∧ (i.val = 1023 → q' = q) := by
  refine ⟨fun hi => ?_, fun hi => ?_⟩
  · have hl : lastIter i ≠ true := by rw [Ne, lastIter_iff]; omega
    rw [h, if_neg hl]
    exact ⟨rfl, nextIter_val hi, rfl⟩
  · rw [h, if_pos ((lastIter_iff i).2 hi)]

/-- Settles O28: `Seq.after`, with the phase that selects the micro-step. -/
theorem microStepTransitions : Obligations.MicroStepTransitions := by
  intro m room h s l l' hsel hr
  obtain ⟨-, hq, -⟩ := runMicro_frame hr
  have hkeep {m' : Micro} (u : Fin 4) (hs : selected l.seq = some m') (hm : m'.phase = .fill ∨ m'.phase = .mix)
      (hq' : l'.seq = { ph := m'.phase, i := l.seq.i, u := u }) : l'.seq = { l.seq with u := u } := by
    rw [hq', ← ((selected_iff hm).1 hs).1]
  cases m with
  | sExec | bMix0 | bMix1 | lDrain => exact hq
  | fStore | fMix0 => exact hkeep _ hsel (.inl rfl) hq
  | mFetch | mXor | mMix0 => exact hkeep _ hsel (.inr rfl) hq
  | fMix1 | mMix1 => exact seq_next hq

/-! ### F-STORE, M-FETCH, M-XOR, L-DRAIN: when they are held, and what they do -/

/-- The step of a lane is enabled where its selected micro-step is not held. -/
theorem enabled_lane_iff {s : State} {t : LaneId} {m : Micro} (h : selected (s.lane t).seq = some m) :
    enabled (.lane t) s = true ↔ ∃ l, runMicro m s.teRoom s.cur.h t (s.lane t) = some l := by
  simp only [enabled, laneNext, h, Option.isSome_iff_exists]

theorem exists_fStore_iff {room : Bool} {s : LaneId} {l : Lane} :
    (∃ l', microFStore room s l = some l') ↔ room = true := by
  simp [fStore_some]

/-- Settles O31, by the effect of F-STORE and the laws of the pending-write map. -/
theorem fStoreIssuesASnapshot : Obligations.FStoreIssuesASnapshot := by
  intro room h s l
  refine ⟨selected_iff (.inl rfl), ?_, fun st t hsel => ?_, fun l' hr => ?_⟩
  · rw [← Bool.not_eq_true, ← exists_fStore_iff (s := s) (l := l), ← Option.isSome_iff_exists, Option.not_isSome_iff_eq_none]
    rfl
  · rw [← teRoom_iff]
    exact (enabled_lane_iff hsel).trans exists_fStore_iff
  · obtain ⟨-, rfl⟩ := fStore_some.1 hr
    refine ⟨rfl, find_insert_same .., fun k hk => find_insert_ne _ hk _, fun b hb => ?_, unwritten_or_missing_iff l,
      rfl, rfl, rfl, rfl⟩
    rw [← readBlock_held (s := s) hb]
    exact find_insert_same ..

theorem exists_mFetch_iff {room : Bool} {s : LaneId} {l : Lane} :
    (∃ l', microMFetch room s l = some l') ↔
      room = true ∧ l.pr = .empty ∧ l.pw.find (integerify (readWord s l 16)) = none := by
  simp [mFetch_some]

/-- Settles O32, by the guard and the effect of M-FETCH. -/
theorem mFetchWaitsForTheSlotsWrite : Obligations.MFetchWaitsForTheSlotsWrite := by
  rintro room h s l j rfl
  refine ⟨fun b hb => ?_, selected_iff (.inr rfl), fun l' hr => ?_, exists_mFetch_iff, fun st t hsel => ?_⟩
  · rw [readWord_held hb]; rfl
  · obtain ⟨-, -, -, rfl⟩ := mFetch_some.1 hr
    exact ⟨rfl, rfl, rfl, rfl, rfl, rfl, by simp⟩
  · rw [← teRoom_iff]
    exact (enabled_lane_iff hsel).trans exists_mFetch_iff

/-- Settles O33, by the guard and the effect of M-XOR. -/
theorem mXorWaitsForTheData : Obligations.MXorWaitsForTheData := by
  intro room h s l
  refine ⟨selected_iff (.inr rfl), ?_, fun l' j d hpr hr => ?_⟩
  · simp [runMicro, mXor_some]
  · obtain ⟨j', d', hpr', rfl⟩ := mXor_some.1 hr
    obtain ⟨-, rfl⟩ : j = j' ∧ d = d' := by simpa [hpr] using hpr'
    refine ⟨rfl, fun w => by simp, fun b hb w => ?_, unwritten_or_missing_iff l, rfl, rfl, rfl⟩
    simp [readBlock_held hb]

/-- Settles O34, by the guard and the effect of L-DRAIN. -/
theorem lDrainWaitsForAllTransfers : Obligations.LDrainWaitsForAllTransfers := by
  refine fun room h s l => ⟨selected_lDrain, by simp [runMicro, lDrain_some], fun l' hr => ?_⟩
  obtain ⟨-, -, he⟩ := lDrain_some.1 hr
  exact he

/-! ### One lane in a schedule -/

/-- The steps that touch lane r: its own, and those of the TE on its behalf. -/
def Action.onLane (r : LaneId) : Action → Bool
  | .lane t => t == r
  | .teWrite t _ => t == r
  | .teRead t => t == r
  | .host | .reset | .cDone => false

/-- What a step of a schedule does to lane r: nothing; a micro-step; a write or a read performed. -/
theorem RunStep.lane_cases {a : Action} {s u : State} (h : RunStep a s u) (r : LaneId) :
    (a.onLane r = false ∧ u.lane r = s.lane r) ∨
    (a = .lane r ∧ laneNext s.teRoom s.cur.h r (s.lane r) = some (u.lane r)) ∨
    (∃ j d, a = .teWrite r j ∧ (s.lane r).pw.find j = some d ∧ u.lane r = (s.lane r).wrote j d) ∨
    (∃ j d, a = .teRead r ∧ (s.lane r).pr = .issued j ∧ (s.lane r).v.readSlot j = some d ∧
      u.lane r = { s.lane r with pr := .performed j d }) := by
  have hother {t : LaneId} (hr : r ≠ t) (l : Lane) : (t == r) = false ∧ (s.setLane t l).lane r = s.lane r :=
    ⟨beq_false_of_ne hr.symm, lane_setLane_ne s hr l⟩
  rcases h.cases with ⟨rfl, hk⟩ | ⟨t, l, rfl, hl, rfl⟩ | ⟨t, j, d, rfl, hd, rfl⟩ | ⟨t, j, d, rfl, hpr, hd, rfl⟩ |
    ⟨rfl, -, rfl⟩
  · exact .inl ⟨rfl, hk.lane r⟩
  · by_cases hr : r = t
    · subst hr; exact .inr (.inl ⟨rfl, by rw [lane_setLane_same]; exact hl⟩)
    · exact .inl (hother hr l)
  · by_cases hr : r = t
    · subst hr; exact .inr (.inr (.inl ⟨j, d, rfl, hd, lane_setLane_same ..⟩))
    · exact .inl (hother hr _)
  · by_cases hr : r = t
    · subst hr; exact .inr (.inr (.inr ⟨j, d, rfl, hpr, hd, lane_setLane_same ..⟩))
    · exact .inl (hother hr _)
  · exact .inl ⟨rfl, rfl⟩

theorem RunStep.inv {a : Action} {s u : State} (h : RunStep a s u) (hs : s.Inv) : u.Inv := inv_perform hs h.next

/-- A lane at rest stays as it is in a schedule, and no step touches it. -/
theorem commandRun_at_rest {as : List Action} {s t : State} (hs : s.Inv) {r : LaneId} (hr : (s.lane r).seq.ph = .idle)
    (h : CommandRun as s t) : (∀ a ∈ as, a.onLane r = false) ∧ t.lane r = s.lane r := by
  obtain ⟨-, -, -, ht⟩ := inv_lane hs r
  obtain ⟨hpw, hpr⟩ := (transfersInv_quiet (by rw [hr]; rfl)).1 ht
  refine commandRun_invariant (P := fun u => u.lane r = s.lane r) (fun a u v hu hstep => ?_) rfl h
  rcases hstep.lane_cases r with ⟨ha, hv⟩ | ⟨-, hl⟩ | ⟨j, d, -, hd, -⟩ | ⟨j, d, -, hj, -⟩
  · exact ⟨ha, hv.trans hu⟩
  · rw [hu, laneNext_idle hr] at hl; cases hl
  · rw [hu, hpw] at hd; cases hd
  · rw [hu, hpr] at hj; cases hj

/-! ### What a lane holds in a ROMix (R144) -/

/-- The Block after the first of the two SX evaluations of a BlockMix (R122). -/
def bmLow (b : Block) : Block := ofHalves (sx (lo b) (hi b)) (hi b)

/-- The second SX evaluation makes it BlockMix (R122). -/
theorem bm_eq_bmLow (b : Block) : bm b = ofHalves (lo (bmLow b)) (sx (hi (bmLow b)) (lo (bmLow b))) := by
  rw [bmLow, lo_ofHalves, hi_ofHalves, ← bm_eq_in_place]

/-- What the Block register of a lane holds at `seq` in a ROMix of b; the phases SAL and BMX do not occur in one. -/
def romixBlock (b : Block) (q : Seq) : Block :=
  match q.ph with
  | .fill => if q.u = 2 then bmLow (bm^[q.i.val] b) else bm^[q.i.val] b
  | .mix =>
    if q.u = 2 then mixXor 1024 b (mixBlock b q.i.val)
    else if q.u = 3 then bmLow (mixXor 1024 b (mixBlock b q.i.val))
    else mixBlock b q.i.val
  | .drain | .idle | .sal | .bmx => mixBlock b 1024

/-- F-MIX0 and M-MIX0 take the Block to the first half of its BlockMix. -/
theorem romixBlock_mixLo (b : Block) {q : Seq} {m : Micro} (hm : m = .fMix0 ∨ m = .mMix0) (hph : q.ph = m.phase)
    (hu : q.u = m.index) : romixBlock b (q.after m) = bmLow (romixBlock b q) := by
  rcases hm with rfl | rfl <;> simp [romixBlock, Seq.after, hph, hu, Micro.phase, Micro.index]

/-- F-MIX1 goes on to the next iterate of BlockMix, and from the last one to the mix phase. -/
theorem romixBlock_fMix1 (b : Block) (i : Slot) (u : Fin 4) :
    romixBlock b (Seq.after { ph := .fill, i := i, u := u } .fMix1) = bm (bm^[i.val] b) := by
  rw [← Function.iterate_succ_apply' bm, Seq.after]
  split
  · next hl =>
    have hi : i.val = 1023 := (lastIter_iff i).1 hl
    rw [show i.val.succ = 1024 by omega, ← mixBlock_zero]
    simp [romixBlock]
  · next hl =>
    have hi : i.val ≠ 1023 := mt (lastIter_iff i).2 hl
    simp [romixBlock, nextIter_val (show i.val < 1023 by omega)]

/-- M-MIX1 goes on to the Block of the next mix iteration, and from the last one to the result. -/
theorem romixBlock_mMix1 (b : Block) (i : Slot) (u : Fin 4) :
    romixBlock b (Seq.after { ph := .mix, i := i, u := u } .mMix1) = bm (mixXor 1024 b (mixBlock b i.val)) := by
  rw [← mixStep, ← mixBlock_succ, Seq.after]
  split
  · next hl =>
    have hi : i.val = 1023 := (lastIter_iff i).1 hl
    rw [show i.val + 1 = 1024 by omega]
    rfl
  · next hl =>
    have hi : i.val ≠ 1023 := mt (lastIter_iff i).2 hl
    simp [romixBlock, nextIter_val (show i.val < 1023 by omega)]

/-- F-MIX1 and M-MIX1 take the first half of a BlockMix to the BlockMix. -/
theorem romixBlock_mixHi (b : Block) {q : Seq} {m : Micro} (hm : m = .fMix1 ∨ m = .mMix1) (hph : q.ph = m.phase)
    (hu : q.u = m.index) : ∃ c, romixBlock b q = bmLow c ∧ romixBlock b (q.after m) = bm c := by
  obtain ⟨ph, i, u⟩ := q
  subst hph hu
  rcases hm with rfl | rfl
  · exact ⟨bm^[i.val] b, rfl, romixBlock_fMix1 b i 2⟩
  · exact ⟨mixXor 1024 b (mixBlock b i.val), rfl, romixBlock_mMix1 b i 3⟩

/-- How many writes a lane has issued, at `seq`, in a ROMix (R136, R145). -/
def Seq.stores (q : Seq) : Nat :=
  match q.ph with
  | .fill => q.issuedCount
  | .mix | .drain | .idle | .sal | .bmx => 1024

/-- How many reads a lane has issued, at `seq`, in a ROMix (R139, R145). -/
def Seq.fetches (q : Seq) : Nat :=
  match q.ph with
  | .fill => 0
  | .mix => q.issuedCount
  | .drain | .idle | .sal | .bmx => 1024

/-- The count of iterations begun, after the last micro-step of one. -/
theorem count_next {f : Seq → Nat} {i : Slot} {ph : Phase} {q q' : Seq}
    (h : q' = if lastIter i then q else { ph := ph, i := nextIter i, u := 0 }) (hq : f q = 1024)
    (hf : ∀ i, f { ph := ph, i := i, u := 0 } = i.val) : f q' = i.val + 1 := by
  rw [h]
  split
  · next hl => rw [hq, (lastIter_iff i).1 hl]
  · next hl =>
    rw [lastIter_iff] at hl
    rw [hf, nextIter_val (by omega)]

/-- F-STORE issues a write, and no other micro-step does. -/
theorem stores_after {q : Seq} {m : Micro} (hph : q.ph = m.phase) (hu : q.u = m.index) :
    (q.after m).stores = q.stores + if m = .fStore then 1 else 0 := by
  cases m with
  | fMix1 =>
    rw [count_next (f := Seq.stores) (q' := q.after .fMix1) rfl rfl fun _ => rfl]
    simp [Seq.stores, Seq.issuedCount, hph, hu, Micro.phase, Micro.index]
  | mMix1 => cases hl : lastIter q.i <;> simp [Seq.after, Seq.stores, hl, hph, Micro.phase]
  | sExec | bMix0 | bMix1 | fStore | fMix0 | mFetch | mXor | mMix0 | lDrain =>
    simp [Seq.stores, Seq.after, Seq.idle, Seq.issuedCount, hph, hu, Micro.phase, Micro.index]

/-- M-FETCH issues a read, and no other micro-step does. -/
theorem fetches_after {q : Seq} {m : Micro} (hph : q.ph = m.phase) (hu : q.u = m.index) :
    (q.after m).fetches = q.fetches + if m = .mFetch then 1 else 0 := by
  cases m with
  | mMix1 =>
    rw [count_next (f := Seq.fetches) (q' := q.after .mMix1) rfl rfl fun _ => rfl]
    simp [Seq.fetches, Seq.issuedCount, hph, hu, Micro.phase, Micro.index]
  | fMix1 => cases hl : lastIter q.i <;> simp [Seq.after, Seq.fetches, Seq.issuedCount, hl, hph, Micro.phase]
  | sExec | bMix0 | bMix1 | fStore | fMix0 | mFetch | mXor | mMix0 | lDrain =>
    simp [Seq.fetches, Seq.after, Seq.idle, Seq.issuedCount, hph, hu, Micro.phase, Micro.index]

/-! ### The slots of a lane, in flight or in the bank -/

/-- The Block slot k holds once the pending writes are performed: the one in flight, or else the one in the bank. -/
def Lane.slot (l : Lane) (k : Slot) : Option Block := (l.pw.find k).or (l.v.readSlot k)

/-- TE write-perform moves a Block from the pending-write set to the bank. -/
theorem slot_wrote {l : Lane} {j : Slot} {d : Block} (h : l.pw.find j = some d) (k : Slot) :
    (l.wrote j d).slot k = l.slot k := by
  by_cases hk : k = j
  · subst hk; simp [Lane.slot, Lane.wrote, find_remove_same, readSlot_writeSlot_same, h]
  · simp [Lane.slot, Lane.wrote, find_remove_ne _ hk, readSlot_writeSlot_other _ hk]

/-- A read to perform is of a slot whose write is complete (R66). -/
theorem find_of_issued {l : Lane} (h : l.Inv) {j : Slot} (hpr : l.pr = .issued j) :
    l.seq.ph = .mix ∧ l.pw.find j = none := by
  obtain ⟨-, -, -, ht⟩ := h
  have hph : l.seq.ph = .mix := phase_of_pr ht (by simp [hpr])
  obtain ⟨-, hsafe, -⟩ := (transfersInv_mix hph).1 ht
  exact ⟨hph, by simpa [Lane.readSafe, hpr] using hsafe⟩

/-- Only F-STORE issues a write. -/
theorem runMicro_pw {m : Micro} {room : Bool} {h : BitVec 1} {s : LaneId} {l l' : Lane} (hm : m ≠ .fStore)
    (hr : runMicro m room h s l = some l') : l'.pw = l.pw := by
  obtain ⟨-, -, hkeep⟩ := runMicro_frame hr
  cases m with
  | fStore => exact absurd rfl hm
  | mFetch => obtain ⟨-, -, -, rfl⟩ := mFetch_some.1 hr; rfl
  | mXor => obtain ⟨j, d, -, rfl⟩ := mXor_some.1 hr; rfl
  | sExec | bMix0 | bMix1 | fMix0 | fMix1 | mMix0 | mMix1 | lDrain => exact (hkeep rfl).1

theorem slot_runMicro {m : Micro} {room : Bool} {h : BitVec 1} {s : LaneId} {l l' : Lane} (hm : m ≠ .fStore)
    (hr : runMicro m room h s l = some l') (k : Slot) : l'.slot k = l.slot k := by
  rw [Lane.slot, runMicro_pw hm hr, (runMicro_frame hr).1, Lane.slot]

/-- A lane in the mix phase at index 1 has just taken M-FETCH. -/
theorem eq_mFetch_of_after {q : Seq} {m : Micro} (hph : (q.after m).ph = .mix) (hu : (q.after m).u = 1) : m = .mFetch := by
  cases m with
  | mFetch => rfl
  | fMix1 | mMix1 => cases hl : lastIter q.i <;> simp [Seq.after, hl] at hu
  | sExec | bMix0 | bMix1 | fStore | fMix0 | lDrain => cases hph
  | mXor | mMix0 => cases hu

/-- A micro-step other than M-FETCH leaves no read in flight. -/
theorem pr_of_runMicro {m : Micro} {room : Bool} {h : BitVec 1} {s : LaneId} {l l' : Lane} (hm : m ≠ .mFetch)
    (hl' : l'.Inv) (hr : runMicro m room h s l = some l') : l'.pr = .empty := by
  obtain ⟨-, hq, -⟩ := runMicro_frame hr
  obtain ⟨-, -, -, ht⟩ := hl'
  by_contra hne
  have hph : l'.seq.ph = .mix := phase_of_pr ht hne
  have hu : l'.seq.u = 1 := by
    by_contra hu
    exact hne (((transfersInv_mix hph).1 ht).1.2 hu)
  rw [hq] at hph hu
  exact hm (eq_mFetch_of_after hph hu)

/-- A micro-step of a lane whose Block register is written puts no unwritten word on record (R218). -/
theorem runMicro_unwritten {m : Micro} {room : Bool} {h : BitVec 1} {s : LaneId} {l l' : Lane} {b : Block}
    (hx : l.x = held b) (hr : runMicro m room h s l = some l') : l'.unwritten = l.unwritten := by
  have hbooks : (l.unwritten || l.missing) = l.unwritten := by rw [missing_held hx, Bool.or_false]
  cases m with
  | sExec => cases hr; exact microSExec_unwritten h hx
  | bMix0 | fMix0 | mMix0 => cases hr; exact (mixLo_unwritten s l).trans hbooks
  | bMix1 | fMix1 | mMix1 => cases hr; exact (mixHi_unwritten s l).trans hbooks
  | fStore => obtain ⟨-, rfl⟩ := fStore_some.1 hr; exact hbooks
  | mFetch => obtain ⟨-, -, -, rfl⟩ := mFetch_some.1 hr; simp [hx]
  | mXor => obtain ⟨j, d, -, rfl⟩ := mXor_some.1 hr; exact hbooks
  | lDrain => obtain ⟨-, -, rfl⟩ := lDrain_some.1 hr; rfl

/-! ### The invariant of a lane in a ROMix (R144) -/

/-- The read in flight, if any, is of slot j, and it has brought BM applied j times to b. -/
def PendingRead.isOf (b : Block) (j : Nat) : PendingRead → Prop
  | .empty => True
  | .issued k => k.val = j
  | .performed k d => k.val = j ∧ d = bm^[j] b

/-- The phases of a ROMix. -/
def Phase.ofRomix : Phase → Bool
  | .fill | .mix | .drain | .idle => true
  | .sal | .bmx => false

/-- A lane in a ROMix of b, or at its end: the Block register is where the sequencer says, every slot stored so far holds its
iterate of BlockMix, the read in flight is the one the iteration needs, and no unwritten word has been read: the record is
still w. -/
structure RomixLane (b : Block) (w : Bool) (l : Lane) : Prop where
  phase : l.seq.ph.ofRomix = true
  x : l.x = held (romixBlock b l.seq)
  slots : ∀ k : Slot, k.val < l.seq.stores → l.slot k = some (bm^[k.val] b)
  read : l.pr.isOf b (mixIndex 1024 (mixBlock b l.seq.i.val))
  unwritten : l.unwritten = w

/-- A lane that starts phase FILL with a written Block. -/
theorem romixLane_fill {b : Block} {l : Lane} (hx : l.x = held b) (hpr : l.pr = .empty) :
    RomixLane b l.unwritten { l with seq := { ph := .fill, i := 0, u := 0 } } where
  phase := rfl
  x := hx
  slots k hk := absurd hk (Nat.not_lt_zero k.val)
  read := by
    rw [hpr]
    exact trivial
  unwritten := rfl

section
variable {b : Block} {w : Bool} {l l' : Lane}

/-- The index of M-FETCH is that of the function (R132, R139). -/
theorem RomixLane.fetch_index (h : RomixLane b w l) (hph : l.seq.ph = .mix) (hu : l.seq.u = 0) (s : LaneId) :
    (integerify (readWord s l 16)).val = mixIndex 1024 (mixBlock b l.seq.i.val) := by
  have hx : l.x = held (mixBlock b l.seq.i.val) := by rw [h.x]; simp [romixBlock, hph, hu]
  rw [readWord_held hx]
  rfl

/-- Each micro-step leaves in the Block register what the sequencer then says. -/
theorem RomixLane.x_runMicro (h : RomixLane b w l) {m : Micro} {room : Bool} {hb : BitVec 1} {s : LaneId}
    (hph : l.seq.ph = m.phase) (hu : l.seq.u = m.index) (hr : runMicro m room hb s l = some l') :
    l'.x = held (romixBlock b (l.seq.after m)) := by
  have hx := h.x
  cases m with
  | sExec | bMix0 | bMix1 => have hp := h.phase; rw [hph] at hp; cases hp
  | fMix0 | mMix0 =>
    cases hr
    rw [romixBlock_mixLo b (by simp) hph hu]
    exact mixLo_x_held hx
  | fMix1 | mMix1 =>
    cases hr
    obtain ⟨c, hlow, hnext⟩ := romixBlock_mixHi b (by simp) hph hu
    rw [hlow] at hx
    rw [hnext, bm_eq_bmLow]
    exact mixHi_x_held hx
  | fStore =>
    obtain ⟨-, rfl⟩ := fStore_some.1 hr
    exact hx.trans (by simp [romixBlock, Seq.after, hph, hu, Micro.phase, Micro.index])
  | mFetch =>
    obtain ⟨-, -, -, rfl⟩ := mFetch_some.1 hr
    exact hx.trans (by simp [romixBlock, Seq.after, hph, hu, Micro.phase, Micro.index])
  | mXor =>
    obtain ⟨j, d, hpr, rfl⟩ := mXor_some.1 hr
    have hread := h.read
    rw [hpr] at hread
    obtain ⟨-, rfl⟩ := hread
    have hblock : romixBlock b l.seq = mixBlock b l.seq.i.val := by simp [romixBlock, hph, hu, Micro.phase, Micro.index]
    rw [hblock] at hx
    simp [readBlock_held hx, romixBlock, Seq.after, mixXor]
  | lDrain =>
    obtain ⟨-, -, rfl⟩ := lDrain_some.1 hr
    exact hx.trans (by simp [romixBlock, Seq.after, Seq.idle, hph, Micro.phase])

/-- F-STORE stores the iterate whose turn it is; the other micro-steps leave every slot. -/
theorem RomixLane.slots_runMicro (h : RomixLane b w l) {m : Micro} {room : Bool} {hb : BitVec 1} {s : LaneId}
    (hph : l.seq.ph = m.phase) (hu : l.seq.u = m.index) (hr : runMicro m room hb s l = some l') (k : Slot)
    (hk : k.val < (l.seq.after m).stores) : l'.slot k = some (bm^[k.val] b) := by
  rw [stores_after hph hu] at hk
  by_cases hm : m = .fStore
  · subst hm
    have hn : l.seq.stores = l.seq.i.val := by simp [Seq.stores, Seq.issuedCount, hph, hu, Micro.phase, Micro.index]
    obtain ⟨-, rfl⟩ := fStore_some.1 hr
    by_cases hki : k = l.seq.i
    · subst hki
      have hx : l.x = held (bm^[l.seq.i.val] b) := by
        rw [h.x]
        simp [romixBlock, hph, hu, Micro.phase, Micro.index]
      simp [Lane.slot, Lane.issueWrite, find_insert_same, readBlock_held hx]
    · have hne : k.val ≠ l.seq.i.val := fun e => hki (Fin.ext e)
      have hlt : k.val < l.seq.stores := by simp at hk; omega
      simpa [Lane.slot, Lane.issueWrite, find_insert_ne _ hki] using h.slots k hlt
  · rw [slot_runMicro hm hr]
    exact h.slots k (by simpa [hm] using hk)

theorem ofRomix_after {q : Seq} {m : Micro} (hph : q.ph = m.phase) (h : q.ph.ofRomix = true) :
    (q.after m).ph.ofRomix = true := by
  rw [hph] at h
  cases m with
  | sExec | bMix0 | bMix1 => cases h
  | fMix1 | mMix1 => simp only [Seq.after]; split <;> rfl
  | fStore | fMix0 | mFetch | mXor | mMix0 | lDrain => rfl

/-- The step of a lane keeps the invariant of its ROMix. -/
theorem RomixLane.laneNext (h : RomixLane b w l) (hl : l.Inv) {room : Bool} {hb : BitVec 1} {s : LaneId}
    (hn : Machine.laneNext room hb s l = some l') : RomixLane b w l' := by
  have hl' : l'.Inv := inv_laneNext hl hn
  obtain ⟨-, -, hlegal, -⟩ := hl
  obtain ⟨m, hsel, hr⟩ := laneNext_some.1 hn
  obtain ⟨hph, hu⟩ := selected_some hlegal hsel
  obtain ⟨-, hq, -⟩ := runMicro_frame hr
  refine ⟨by rw [hq]; exact ofRomix_after hph h.phase, by rw [hq]; exact h.x_runMicro hph hu hr,
    by rw [hq]; exact h.slots_runMicro hph hu hr, ?_, (runMicro_unwritten h.x hr).trans h.unwritten⟩
  by_cases hm : m = .mFetch
  · subst hm
    have hj := h.fetch_index hph hu s
    obtain ⟨-, -, -, rfl⟩ := mFetch_some.1 hr
    exact hj
  · rw [pr_of_runMicro hm hl' hr]
    exact trivial

/-- TE write-perform keeps the invariant of a ROMix. -/
theorem RomixLane.wrote (h : RomixLane b w l) {j : Slot} {d : Block} (hd : l.pw.find j = some d) :
    RomixLane b w (l.wrote j d) where
  phase := h.phase
  x := h.x
  slots k hk := (slot_wrote hd k).trans (h.slots k hk)
  read := h.read
  unwritten := h.unwritten

/-- TE read-perform brings the Block that was stored in this command, whatever the bank held before it (R144, R147). -/
theorem RomixLane.performed (h : RomixLane b w l) (hl : l.Inv) {j : Slot} {d : Block} (hpr : l.pr = .issued j)
    (hd : l.v.readSlot j = some d) : RomixLane b w { l with pr := .performed j d } where
  phase := h.phase
  x := h.x
  slots := h.slots
  read := by
    obtain ⟨hph, hfree⟩ := find_of_issued hl hpr
    have hj : j.val = mixIndex 1024 (mixBlock b l.seq.i.val) := by
      have hread := h.read
      rwa [hpr] at hread
    have hslot := h.slots j (by rw [Seq.stores, hph]; exact j.isLt)
    rw [Lane.slot, hfree, hd, Option.none_or, Option.some.injEq] at hslot
    exact ⟨hj, hj ▸ hslot⟩
  unwritten := h.unwritten

/-- Every step of a schedule keeps the invariant of a lane in its ROMix. -/
theorem RomixLane.runStep {a : Action} {s u : State} (hs : s.Inv) (hstep : RunStep a s u) {r : LaneId}
    (h : RomixLane b w (s.lane r)) : RomixLane b w (u.lane r) := by
  rcases hstep.lane_cases r with ⟨-, he⟩ | ⟨-, hl⟩ | ⟨j, d, -, hd, he⟩ | ⟨j, d, -, hpr, hd, he⟩
  · rwa [he]
  · exact h.laneNext (inv_lane hs r) hl
  · rw [he]; exact h.wrote hd
  · rw [he]; exact h.performed (inv_lane hs r) hpr hd

/-- A lane at rest after its ROMix: the result, and nothing in flight. -/
theorem RomixLane.at_rest (h : RomixLane b w l) (hl : l.Inv) (hidle : l.seq.ph = .idle) :
    l.x = held (rm b) ∧ l.pw = [] ∧ l.pr = .empty ∧ l.seq = { ph := .idle, i := 0, u := 0 } ∧ l.unwritten = w := by
  obtain ⟨-, -, hq, ht⟩ := hl
  obtain ⟨hpw, hpr⟩ := (transfersInv_quiet (by rw [hidle]; rfl)).1 ht
  have hx := h.x
  rw [romixBlock, hidle] at hx
  refine ⟨by rw [hx, rm_eq_mixBlock], hpw, hpr, ?_, h.unwritten⟩
  obtain ⟨hi, hu⟩ : l.seq.i = 0 ∧ l.seq.u = 0 := by simpa [Seq.legal, hidle] using hq
  rw [← hidle, ← hi, ← hu]

end

/-! ### Schedules of a command that fills a scratchpad (R144, R147, R160) -/

theorem inv_start {st : State} (hs : st.Inv) (hr : st.ready) (i : Instr) : (st.start i).Inv := inv_accept hs hr i.fields i

/-- A lane that ROMIX or ROMIXB starts with a written Block is in its ROMix (R135, R160). -/
theorem romixLane_start {st : State} (hs : st.Inv) (hr : st.ready) {i : Instr} (hi : startPhase i = .fill)
    {r : LaneId} (hon : starts i r = true) {b : Block} (hx : (st.lane r).x = held b) :
    RomixLane b (st.lane r).unwritten ((st.start i).lane r) := by
  have hpr := (noTransfer_start hs hr i r).2
  rw [lane_start_of_starts st hon] at hpr ⊢
  rw [hi]
  exact romixLane_fill hx hpr

/-- Along a schedule it stays in its ROMix. -/
theorem commandRun_romixLane {b : Block} {w : Bool} {as : List Action} {s t : State} (hs : s.Inv) {r : LaneId}
    (h : RomixLane b w (s.lane r)) (hrun : CommandRun as s t) : t.Inv ∧ RomixLane b w (t.lane r) := by
  obtain ⟨-, ht⟩ := commandRun_invariant (P := fun u => u.Inv ∧ RomixLane b w (u.lane r)) (Q := fun _ => True)
    (fun a u v ⟨hu, hl⟩ hstep => ⟨trivial, hstep.inv hu, hl.runStep hu hstep⟩) ⟨hs, h⟩ hrun
  exact ht

/-- A lane a command does not start is as it was, and no step of a schedule of the command touches it. -/
theorem commandRun_other_lane {st : State} (hs : st.Inv) (hr : st.ready) {i : Instr} {r : LaneId}
    (hoff : starts i r = false) {as : List Action} {u : State} (hrun : CommandRun as (st.start i) u) :
    (∀ a ∈ as, a.onLane r = false) ∧ u.lane r = st.lane r := by
  have hlane := lane_start_of_not_starts st hoff
  have hrest := commandRun_at_rest (inv_start hs hr i) (by rw [hlane]; exact idle_of_inv hs hr.1 r) hrun
  rwa [hlane] at hrest

theorem starts_romix_same (s : LaneId) : starts (.romix s) s = true := by simp [starts]

theorem starts_romix_ne {s r : LaneId} (h : r ≠ s) : starts (.romix s) r = false := by simpa [starts] using h

/-- Settles O23: at BUSY = 0 lane s is at rest after its ROMix, and no other lane had a step. -/
theorem romixResultForEverySchedule : Obligations.RomixResultForEverySchedule := by
  intro st s b hs hr hx
  refine ⟨st.start (.romix s), exec_ready rfl hr, completes_of_forall (inv_start hs hr _) rfl fun as u hrun hu => ?_⟩
  obtain ⟨hstatus, hidle⟩ := commandRun_done rfl hrun hu
  have hstart := romixLane_start hs hr rfl (starts_romix_same s) hx
  obtain ⟨hinv, hlane⟩ := commandRun_romixLane (inv_start hs hr _) hstart hrun
  obtain ⟨hres, hpw, hpr, hseq, hbooks⟩ := hlane.at_rest (inv_lane hinv s) (hidle s)
  refine ⟨hres, hpw, hpr, hseq, hbooks, fun r hne => (commandRun_other_lane hs hr (starts_romix_ne hne) hrun).2, ?_⟩
  rw [hstatus, ← hr.2]
  rfl

/-! ### Counting the steps of a schedule (R148) -/

theorem length_insert_new {p : PendingWrites} {j : Slot} (h : p.find j = none) (d : Block) :
    (p.insert j d).length = p.length + 1 := by
  induction p with
  | nil => rfl
  | cons e p ih =>
    have he : e.1 ≠ j := fun q => by rw [← q, find_head] at h; cases h
    have hrest : PendingWrites.find p j = none := by simpa [PendingWrites.find, he] using h
    simp only [PendingWrites.insert, he.symm, if_false]
    split
    · rfl
    · rw [List.length_cons, ih hrest, List.length_cons]

/-- Where no entry is of slot j, none is removed. -/
theorem remove_eq_self {p : PendingWrites} {j : Slot} (h : ∀ e ∈ p, e.1 ≠ j) : p.remove j = p := by
  simpa [PendingWrites.remove] using h

/-- A map in canonical form has one entry for a slot. -/
theorem length_remove_find {p : PendingWrites} (hp : p.wf) {j : Slot} {d : Block} (h : p.find j = some d) :
    p.length = (p.remove j).length + 1 := by
  induction p with
  | nil => cases h
  | cons e p ih =>
    obtain ⟨hlt, hrest⟩ := List.pairwise_cons.1 hp
    rw [remove_cons]
    split
    · next he => rw [remove_eq_self fun c hc => he ▸ (hlt c hc).ne']; rfl
    · next he =>
      have hfind : PendingWrites.find p j = some d := by simpa [PendingWrites.find, he] using h
      rw [List.length_cons, ih hrest hfind, List.length_cons]

/-- The write-performs the TE has to make for a lane: of the writes still to issue, and of those in flight. -/
def Lane.storesLeft (l : Lane) : Nat := 1024 - l.seq.stores + l.pw.length

/-- The read-performs the TE has to make for a lane: of the reads still to issue, and of the one in flight. -/
def Lane.fetchesLeft (l : Lane) : Nat := 1024 - l.seq.fetches + if l.readToPerform.isSome then 1 else 0

/-- F-STORE turns a write to issue into one in flight. -/
theorem storesLeft_laneNext {room : Bool} {h : BitVec 1} {s : LaneId} {l l' : Lane} (hl : l.Inv)
    (hn : laneNext room h s l = some l') : l'.storesLeft = l.storesLeft := by
  obtain ⟨-, -, hlegal, ht⟩ := hl
  obtain ⟨m, hsel, hr⟩ := laneNext_some.1 hn
  obtain ⟨hph, hu⟩ := selected_some hlegal hsel
  rw [Lane.storesLeft, Lane.storesLeft, (runMicro_frame hr).2.1, stores_after hph hu]
  by_cases hm : m = .fStore
  · subst hm
    have hi := l.seq.i.isLt
    have hcount : l.seq.issuedCount = l.seq.i.val := by simp [Seq.issuedCount, hu, Micro.index]
    have hstores : l.seq.stores = l.seq.i.val := by simp [Seq.stores, hph, Micro.phase, hcount]
    obtain ⟨-, hlt, -⟩ := (transfersInv_fill hph).1 ht
    have hnew : l.pw.find l.seq.i = none := by
      rw [← Option.not_isSome_iff_eq_none]
      intro hsome
      exact absurd (hlt _ hsome) (by omega)
    have hlen : l'.pw.length = l.pw.length + 1 := by
      obtain ⟨-, rfl⟩ := fStore_some.1 hr
      exact length_insert_new hnew _
    rw [hstores, hlen, if_pos rfl]
    omega
  · rw [runMicro_pw hm hr, if_neg hm, Nat.add_zero]

/-- A lane whose read the TE has still to perform is held (R140). -/
theorem readToPerform_of_laneNext {room : Bool} {h : BitVec 1} {s : LaneId} {l l' : Lane} (hl : l.Inv)
    (hn : laneNext room h s l = some l') : l.readToPerform = none := by
  rw [Option.eq_none_iff_forall_ne_some]
  intro j hj
  have hpr := readToPerform_some.1 hj
  obtain ⟨hph, -⟩ := find_of_issued hl hpr
  obtain ⟨-, -, -, ht⟩ := hl
  have hu : l.seq.u = 1 := by simpa [hpr] using ((transfersInv_mix hph).1 ht).1
  obtain ⟨m, hsel, hr⟩ := laneNext_some.1 hn
  rw [(selected_iff (m := .mXor) (.inr rfl)).2 ⟨hph, hu⟩, Option.some.injEq] at hsel
  subst hsel
  obtain ⟨k, d, hpr', -⟩ := mXor_some.1 hr
  rw [hpr] at hpr'
  cases hpr'

/-- M-FETCH turns a read to issue into one in flight. -/
theorem fetchesLeft_laneNext {room : Bool} {h : BitVec 1} {s : LaneId} {l l' : Lane} (hl : l.Inv)
    (hn : laneNext room h s l = some l') : l'.fetchesLeft = l.fetchesLeft := by
  have hl' : l'.Inv := inv_laneNext hl hn
  have hread := readToPerform_of_laneNext hl hn
  obtain ⟨-, -, hlegal, -⟩ := hl
  obtain ⟨m, hsel, hr⟩ := laneNext_some.1 hn
  obtain ⟨hph, hu⟩ := selected_some hlegal hsel
  rw [Lane.fetchesLeft, Lane.fetchesLeft, hread, (runMicro_frame hr).2.1, fetches_after hph hu]
  by_cases hm : m = .mFetch
  · subst hm
    have hi := l.seq.i.isLt
    have hfetches : l.seq.fetches = l.seq.i.val := by simp [Seq.fetches, Seq.issuedCount, hph, hu, Micro.phase, Micro.index]
    have hissued : l'.readToPerform.isSome = true := by
      obtain ⟨-, -, -, rfl⟩ := mFetch_some.1 hr
      rfl
    rw [hfetches, hissued, if_pos rfl, if_pos rfl, Option.isSome_none, if_neg Bool.false_ne_true]
    omega
  · have hnone : l'.readToPerform = none := by rw [Lane.readToPerform, pr_of_runMicro hm hl' hr]
    rw [hnone, if_neg hm, Nat.add_zero]

/-- A TE write-perform of lane r. -/
def Action.isWriteOf (r : LaneId) : Action → Bool
  | .teWrite t _ => t == r
  | _ => false

section
variable {a : Action} {s u : State} (hs : s.Inv) (hstep : RunStep a s u) (r : LaneId)
include hstep

theorem RunStep.microsLeft : Machine.microsLeft (s.lane r).seq =
    Machine.microsLeft (u.lane r).seq + if a == .lane r then 1 else 0 := by
  rcases hstep.lane_cases r with ⟨ha, he⟩ | ⟨rfl, hl⟩ | ⟨j, d, rfl, -, he⟩ | ⟨j, d, rfl, -, -, he⟩
  · have hne : a ≠ .lane r := by rintro rfl; simp [Action.onLane] at ha
    simp [he, hne]
  · obtain ⟨m, hsel, hr⟩ := laneNext_some.1 hl
    rw [microsLeft_selected hsel, (runMicro_frame hr).2.1]
    simp
  · rw [he]; rfl
  · rw [he]; rfl

include hs

theorem RunStep.storesLeft : (s.lane r).storesLeft = (u.lane r).storesLeft + if a.isWriteOf r then 1 else 0 := by
  rcases hstep.lane_cases r with ⟨ha, he⟩ | ⟨rfl, hl⟩ | ⟨j, d, rfl, hd, he⟩ | ⟨j, d, rfl, -, -, he⟩
  · have hne : a.isWriteOf r = false := by
      cases a with
      | teWrite t j => exact ha
      | host | reset | lane _ | teRead _ | cDone => rfl
    simp [he, hne]
  · exact (storesLeft_laneNext (inv_lane hs r) hl).symm
  · obtain ⟨-, hwf, -, -⟩ := inv_lane hs r
    simp only [he, Action.isWriteOf, beq_self_eq_true, if_true, Lane.storesLeft, length_remove_find hwf hd]
    rfl
  · rw [he]; rfl

theorem RunStep.fetchesLeft : (s.lane r).fetchesLeft = (u.lane r).fetchesLeft + if a == .teRead r then 1 else 0 := by
  rcases hstep.lane_cases r with ⟨ha, he⟩ | ⟨rfl, hl⟩ | ⟨j, d, rfl, -, he⟩ | ⟨j, d, rfl, hpr, -, he⟩
  · have hne : a ≠ .teRead r := by rintro rfl; simp [Action.onLane] at ha
    simp [he, hne]
  · exact (fetchesLeft_laneNext (inv_lane hs r) hl).symm
  · rw [he]; rfl
  · rw [he]
    simp [Lane.fetchesLeft, Lane.readToPerform, hpr]

end

/-- C-DONE ends BUSY, and no other step of a schedule does (R189). -/
theorem RunStep.busyLeft {a : Action} {s u : State} (h : RunStep a s u) :
    s.status.busy.toNat = u.status.busy.toNat + if a == .cDone then 1 else 0 := by
  have hb := h.busy
  rcases h.cases with ⟨rfl, hk⟩ | ⟨t, l, rfl, -, rfl⟩ | ⟨t, j, d, rfl, -, rfl⟩ | ⟨t, j, d, rfl, -, -, rfl⟩ |
    ⟨rfl, -, rfl⟩
  · rw [hk.status]; rfl
  · rfl
  · rfl
  · rfl
  · rw [hb]; rfl

/-- What every step with p of a schedule takes one from, and every other step leaves, counts the steps with p. -/
theorem commandRun_countP {p : Action → Bool} {f : State → Nat}
    (hf : ∀ a s u, s.Inv → RunStep a s u → f s = f u + if p a then 1 else 0) {as : List Action} {s t : State}
    (hs : s.Inv) (h : CommandRun as s t) : f s = f t + as.countP p := by
  induction as generalizing s with
  | nil => obtain rfl : s = t := h; rfl
  | cons a as ih =>
    obtain ⟨u, hstep, hrest⟩ := commandRun_cons.1 h
    rw [hf a s u hs hstep, ih (hstep.inv hs) hrest, List.countP_cons, Nat.add_assoc]

/-- A lane at rest has no step and no transfer left. -/
theorem nothing_left {l : Lane} (hl : l.Inv) (hidle : l.seq.ph = .idle) :
    microsLeft l.seq = 0 ∧ l.storesLeft = 0 ∧ l.fetchesLeft = 0 := by
  obtain ⟨-, -, -, ht⟩ := hl
  obtain ⟨hpw, hpr⟩ := (transfersInv_quiet (by rw [hidle]; rfl)).1 ht
  simp [microsLeft, Lane.storesLeft, Lane.fetchesLeft, Lane.readToPerform, Seq.stores, Seq.fetches, hidle, hpw, hpr]

/-- R148: the steps of a lane, from anywhere in a command to its rest. -/
theorem commandRun_lane_counts {as : List Action} {s t : State} (hs : s.Inv) (h : CommandRun as s t) {r : LaneId}
    (hidle : (t.lane r).seq.ph = .idle) :
    as.countP (· == .lane r) = microsLeft (s.lane r).seq ∧ as.countP (Action.isWriteOf r) = (s.lane r).storesLeft ∧
      as.countP (· == .teRead r) = (s.lane r).fetchesLeft := by
  obtain ⟨-, ht⟩ := commandRun_invariant (P := State.Inv) (Q := fun _ => True)
    (fun a u v hu hstep => ⟨trivial, hstep.inv hu⟩) hs h
  obtain ⟨hm, hst, hf⟩ := nothing_left (inv_lane ht r) hidle
  have hmicros := commandRun_countP (fun a s u _ hstep => hstep.microsLeft r) hs h
  have hwrites := commandRun_countP (fun a s u hs hstep => hstep.storesLeft hs r) hs h
  have hreads := commandRun_countP (fun a s u hs hstep => hstep.fetchesLeft hs r) hs h
  omega

/-- A lane at the start of phase FILL has a whole ROMix before it (R148). -/
theorem left_at_start {l : Lane} (hq : l.seq = { ph := .fill, i := 0, u := 0 }) (hpw : l.pw = []) (hpr : l.pr = .empty) :
    microsLeft l.seq = 7169 ∧ l.storesLeft = 1024 ∧ l.fetchesLeft = 1024 := by
  simp [Lane.storesLeft, Lane.fetchesLeft, Lane.readToPerform, microsLeft, Seq.stores, Seq.fetches, Seq.issuedCount,
    Config.n, hq, hpw, hpr]

/-- Where no step touches a lane other than s, the steps of CORE are those of lane s, of the TE for it, and C-DONE. -/
theorem countP_isCore {as : List Action} {s : LaneId} (h : ∀ a ∈ as, ∀ r, r ≠ s → a.onLane r = false) :
    as.countP Action.isCore = as.countP (· == .lane s) + as.countP (Action.isWriteOf s) + as.countP (· == .teRead s) +
      as.countP (· == .cDone) := by
  induction as with
  | nil => rfl
  | cons a as ih =>
    obtain ⟨ha, has⟩ := List.forall_mem_cons.1 h
    have hon (t : LaneId) (ht : a.onLane t = true) : t = s := by
      by_contra hne
      rw [ha t hne] at ht
      cases ht
    simp only [List.countP_cons, ih has]
    cases a with
    | host | reset => rfl
    | cDone => simp [Action.isCore, Action.isWriteOf]; omega
    | lane t | teWrite t _ | teRead t =>
      obtain rfl := hon t (beq_self_eq_true t)
      simp [Action.isCore, Action.isWriteOf]
      omega

/-- Settles O25: every step takes one from what is left of its kind, and at BUSY = 0 nothing is left. -/
theorem romixStepCounts : Obligations.RomixStepCounts := by
  intro st s hs hr
  refine ⟨st.start (.romix s), exec_ready rfl hr, completes_of_forall (inv_start hs hr _) rfl fun as u hrun hu => ?_⟩
  obtain ⟨hstatus, hidle⟩ := commandRun_done rfl hrun hu
  obtain ⟨hpw, hpr⟩ := noTransfer_start hs hr (.romix s) s
  obtain ⟨hm, hst, hf⟩ := left_at_start (by rw [lane_start_of_starts st (starts_romix_same s)]; rfl) hpw hpr
  obtain ⟨hmicros, hwrites, hreads⟩ := commandRun_lane_counts (inv_start hs hr _) hrun (hidle s)
  rw [hm] at hmicros
  rw [hst] at hwrites
  rw [hf] at hreads
  have hdone : as.countP (· == .cDone) = 1 := by
    have hcount := commandRun_countP (fun a s u _ hstep => hstep.busyLeft) (inv_start hs hr _) hrun
    rw [hu, Bool.toNat_false, Nat.zero_add] at hcount
    exact hcount.symm
  have hother (a : Action) (ha : a ∈ as) (r : LaneId) (hne : r ≠ s) : a.onLane r = false :=
    (commandRun_other_lane hs hr (starts_romix_ne hne) hrun).1 a ha
  refine ⟨hmicros, hwrites, hreads, hdone, ?_⟩
  rw [countP_isCore hother, hmicros, hwrites, hreads, hdone]

/-! ### The read trace (R149) -/

/-- The slots lane r issues reads of in one step: that of M-FETCH of lane r, and none in any other step. -/
theorem readTrace_eventOf_lane (s : State) (r : LaneId) : readTrace r (eventOf (.lane r) s).toList =
    if selected (s.lane r).seq = some .mFetch then [integerify (readWord r (s.lane r) 16)] else [] := by
  simp only [eventOf]
  split <;> simp_all [readTrace]

theorem readTrace_eventOf_ne {a : Action} {r : LaneId} (h : a ≠ .lane r) (s : State) :
    readTrace r (eventOf a s).toList = [] := by
  cases a with
  | host | reset | cDone | teWrite _ _ => rfl
  | teRead t => simp only [eventOf]; cases (s.lane t).readToPerform <;> rfl
  | lane t =>
    have ht : t ≠ r := fun e => h (by rw [e])
    simp only [eventOf]
    split <;> simp [readTrace, ht]

theorem readTrace_history_cons {a : Action} {as : List Action} {s u : State} (h : perform a s = .next u) (r : LaneId) :
    readTrace r (history (a :: as) s) = readTrace r (eventOf a s).toList ++ readTrace r (history as u) := by
  simp [history, h, readTrace]

theorem length_rmIndices (b : Block) : (rmIndices b).length = 1024 := by
  rw [rmIndices_eq, List.length_map, List.length_range]

/-- The indices from mix iteration i on. -/
theorem drop_rmIndices (b : Block) {i : Nat} (hi : i < 1024) :
    (rmIndices b).drop i = mixIndex 1024 (mixBlock b i) :: (rmIndices b).drop (i + 1) := by
  rw [List.drop_eq_getElem_cons (by rwa [length_rmIndices])]
  simp [rmIndices_eq]

/-- The indices a lane has still to read: those from the reads it has issued on. -/
def Lane.indicesLeft (b : Block) (l : Lane) : List Nat := (rmIndices b).drop l.seq.fetches

/-- M-FETCH reads the next index of the function, and no other step reads one. -/
theorem RomixLane.indicesLeft {b : Block} {w : Bool} {a : Action} {s u : State} (hs : s.Inv) (hstep : RunStep a s u)
    {r : LaneId} (h : RomixLane b w (s.lane r)) :
    (s.lane r).indicesLeft b = (readTrace r (eventOf a s).toList).map Fin.val ++ (u.lane r).indicesLeft b := by
  have hsame (ha : a ≠ .lane r) (hq : (u.lane r).seq = (s.lane r).seq) :
      (s.lane r).indicesLeft b = (readTrace r (eventOf a s).toList).map Fin.val ++ (u.lane r).indicesLeft b := by
    rw [readTrace_eventOf_ne ha, Lane.indicesLeft, Lane.indicesLeft, hq]
    rfl
  rcases hstep.lane_cases r with ⟨ha, he⟩ | ⟨rfl, hl⟩ | ⟨j, d, rfl, -, he⟩ | ⟨j, d, rfl, -, -, he⟩
  · exact hsame (by rintro rfl; simp [Action.onLane] at ha) (by rw [he])
  · obtain ⟨-, -, hlegal, -⟩ := inv_lane hs r
    obtain ⟨m, hsel, hr⟩ := laneNext_some.1 hl
    obtain ⟨hph, hu⟩ := selected_some hlegal hsel
    rw [readTrace_eventOf_lane, hsel, Lane.indicesLeft, Lane.indicesLeft, (runMicro_frame hr).2.1, fetches_after hph hu]
    by_cases hm : m = .mFetch
    · subst hm
      have hn : (s.lane r).seq.fetches = (s.lane r).seq.i.val := by
        simp [Seq.fetches, Seq.issuedCount, hph, hu, Micro.phase, Micro.index]
      rw [hn, drop_rmIndices b (s.lane r).seq.i.isLt, ← h.fetch_index hph hu r]
      rfl
    · simp [hm]
  · exact hsame nofun (by rw [he]; rfl)
  · exact hsame nofun (by rw [he])

/-- The slots a lane reads along a schedule are those it had to read at its start and has not at its end. -/
theorem readTrace_commandRun {b : Block} {w : Bool} {as : List Action} {s t : State} (hs : s.Inv) {r : LaneId}
    (h : RomixLane b w (s.lane r)) (hrun : CommandRun as s t) :
    (s.lane r).indicesLeft b = (readTrace r (history as s)).map Fin.val ++ (t.lane r).indicesLeft b := by
  induction as generalizing s with
  | nil => obtain rfl : s = t := hrun; rfl
  | cons a as ih =>
    obtain ⟨u, hstep, hrest⟩ := commandRun_cons.1 hrun
    rw [h.indicesLeft hs hstep, ih (hstep.inv hs) (h.runStep hs hstep) hrest, readTrace_history_cons hstep.next,
      List.map_append, List.append_assoc]

/-- Settles O26: lane s starts with all the indices of the function to read, and at rest it has none. -/
theorem romixReadTrace : Obligations.RomixReadTrace := by
  intro st s b hs hr hx
  refine ⟨st.start (.romix s), exec_ready rfl hr, completes_of_forall (inv_start hs hr _) rfl fun as u hrun hu => ?_⟩
  obtain ⟨-, hidle⟩ := commandRun_done rfl hrun hu
  have hon := starts_romix_same s
  have htrace := readTrace_commandRun (inv_start hs hr _) (romixLane_start hs hr rfl hon hx) hrun
  have hall : ((st.start (.romix s)).lane s).indicesLeft b = rmIndices b := by
    rw [Lane.indicesLeft, lane_start_of_starts st hon]
    exact List.drop_zero
  have hnone : (u.lane s).indicesLeft b = [] := by
    rw [Lane.indicesLeft, Seq.fetches, hidle s]
    exact List.drop_eq_nil_of_le (length_rmIndices b).le
  rw [hall, hnone, List.append_nil] at htrace
  exact htrace.symm

end Sys2Proof.Machine

/-! Batched ROMix: what every schedule of ROMIXB comes to, lane by lane (spec/43_batched.md). -/

namespace Sys2Proof.Machine

/-- A width of R6 is one of a command (R82, R87). -/
theorem wf_romixb {k : Nat} (hk : k = 1 ∨ k = 2 ∨ k = 4 ∨ k = 8) : (Instr.romixb k).wf = true := by
  simpa [Instr.wf, legalWidth, or_assoc] using hk

/-- ROMIXB k starts the lanes of its batch (R160, R161). -/
theorem starts_romixb_iff {k : Nat} {r : LaneId} : starts (.romixb k) r = true ↔ r.val < k := by
  simp [starts, inBatch]

/-- At BUSY = 0 a lane that the command started on a ROMix of a written Block has its result, whatever the other lanes did. -/
theorem romix_result_of_starts {st : State} (hs : st.Inv) (hr : st.ready) {i : Instr} (hi : startPhase i = .fill)
    {r : LaneId} (hon : starts i r = true) {b : Block} (hx : (st.lane r).x = held b) {as : List Action} {u : State}
    (hrun : CommandRun as (st.start i) u) (hidle : (u.lane r).seq.ph = .idle) :
    (u.lane r).x = held (rm b) ∧ (u.lane r).pw = [] ∧ (u.lane r).pr = .empty ∧
      (u.lane r).seq = { ph := .idle, i := 0, u := 0 } ∧ (u.lane r).unwritten = (st.lane r).unwritten := by
  obtain ⟨hinv, hlane⟩ := commandRun_romixLane (inv_start hs hr i) (romixLane_start hs hr hi hon hx) hrun
  exact hlane.at_rest (inv_lane hinv r) hidle

/-- Settles O24: at BUSY = 0 each lane of the batch is at rest after its own ROMix, and no other lane had a step. -/
theorem romixbResultForEverySchedule : Obligations.RomixbResultForEverySchedule := by
  intro st k b hs hr hk hx
  refine ⟨st.start (.romixb k), exec_ready (wf_romixb hk) hr,
    completes_of_forall (inv_start hs hr _) rfl fun as u hrun hu => ?_⟩
  obtain ⟨hstatus, hidle⟩ := commandRun_done rfl hrun hu
  refine ⟨fun r hlt => romix_result_of_starts hs hr rfl (starts_romixb_iff.2 hlt) (hx r hlt) hrun (hidle r),
    fun r hge => ?_, ?_⟩
  · have hoff : starts (.romixb k) r = false := eq_false_of_ne_true (mt starts_romixb_iff.1 hge)
    exact (commandRun_other_lane hs hr hoff hrun).2
  · rw [hstatus, ← hr.2]
    rfl

end Sys2Proof.Machine

/-! The host's operations: what command accept does and leaves, the step that takes a command, C-DONE, the `STATUS` read,
when a host action is held, and a Block register word written and read back (spec/44_host_ops.md). -/

namespace Sys2Proof.Machine

/-! ### Command accept (R185) -/

/-- A lane of the machine that has accepted a command is as it was but for its sequencer state. -/
theorem lane_start_frame (s : State) (i : Instr) (r : LaneId) :
    ∃ q, (s.start i).lane r = { s.lane r with seq := q } := by
  cases h : starts i r with
  | true => exact ⟨_, lane_start_of_starts s h⟩
  | false => exact ⟨(s.lane r).seq, lane_start_of_not_starts s h⟩

/-- A command that answers a next state has changed nothing, or it has been accepted. -/
theorem exec_next_cases {i : Instr} {s u : State} (h : exec i s = .next u) : u = s ∨ u = s.start i := by
  rcases exec_cases i s with ⟨-, he⟩ | ⟨-, he⟩
  · rw [he] at h
    cases h
    exact (submit_cases ..).imp And.right And.right
  · rw [he] at h
    cases h

/-- A ready machine that accepts a command changes `CUR`, BUSY, DONE and its lanes. -/
theorem start_frame {s : State} (hr : s.ready) (i : Instr) :
    s.start i = { s with
      cur := i.fields
      status := { busy := true, done := false, fault := none }
      lanes := (s.start i).lanes } := by
  rw [← hr.2]
  rfl

/-- A command of one lane, in a ready machine: that lane starts, and every other one is unchanged. -/
theorem exec_one_lane {i : Instr} {s : LaneId} {st : State} (hw : i.wf = true) (hon : ∀ r, starts i r = (r == s))
    (hr : st.ready) :
    ∃ t, exec i st = .next t ∧
      t = { st with
            cur := i.fields
            status := { busy := true, done := false, fault := none }
            lanes := t.lanes } ∧
      t.lane s = { st.lane s with seq := { ph := startPhase i, i := 0, u := 0 } } ∧
      ∀ r, r ≠ s → t.lane r = st.lane r :=
  ⟨st.start i, exec_ready hw hr, start_frame hr i, lane_start_of_starts st (by simp [hon]),
    fun r hne => lane_start_of_not_starts st (by simpa [hon] using hne)⟩

/-- Settles O17: three commands name one lane, and the fourth the lanes below its width. -/
theorem commandAcceptNextState : Obligations.CommandAcceptNextState := by
  intro st hr
  refine ⟨fun s h => exec_one_lane rfl (fun _ => rfl) hr, fun s => exec_one_lane rfl (fun _ => rfl) hr,
    fun s => exec_one_lane rfl (fun _ => rfl) hr, fun lk => ?_⟩
  have hfields : (Instr.romixb (2 ^ lk.toNat)).fields = { op := 4, s := 0, h := 0, lk := lk } :=
    congrArg (Fields.mk 4 0 0) (ofNat_log2_widthOf lk)
  refine ⟨st.start (.romixb (2 ^ lk.toNat)), exec_ready (legalWidth_widthOf lk) hr, ?_, fun r hlt => ?_,
    fun r hge => ?_⟩
  · rw [← hfields]
    exact start_frame hr _
  · exact lane_start_of_starts st (starts_romixb_iff.2 hlt)
  · exact lane_start_of_not_starts st (eq_false_of_ne_true (mt starts_romixb_iff.1 hge))

/-- Settles O18: of a lane only `seq` may have changed, and of the rest `CUR`, BUSY and DONE. -/
theorem commandAcceptFrame : Obligations.CommandAcceptFrame := by
  intro i st t h
  have hlane (r : LaneId) : ∃ q, t.lane r = { st.lane r with seq := q } := by
    rcases exec_next_cases h with rfl | rfl
    · exact ⟨_, rfl⟩
    · exact lane_start_frame st i r
  refine ⟨fun r a => ?_, fun r => ?_, ?_⟩
  · obtain ⟨q, hq⟩ := hlane r
    rw [hq]
  · obtain ⟨q, hq⟩ := hlane r
    rw [hq]
    exact ⟨rfl, rfl, rfl, rfl, rfl, rfl⟩
  · rcases exec_next_cases h with rfl | rfl <;> exact ⟨rfl, rfl, rfl, rfl, rfl, rfl⟩

/-- Settles O19: a submission while busy or faulted is of no effect, and no other width is that of a command. -/
theorem commandTurnedAway : Obligations.CommandTurnedAway := by
  refine ⟨fun i st hw hst => ?_, fun k st h1 h2 h4 h8 => ?_⟩
  · rw [exec_wf hw]
    rcases hst with hb | hf
    · rw [submit_busy hb]
    · rw [submit_faulted hf]
  · have hk : legalWidth k = false := by simp [legalWidth, h1, h2, h4, h8]
    simp [exec, execRomixb, hk]

/-! ### The step that takes a command (R72, R185) -/

/-- A lane at rest has no transfer in flight (R71). -/
theorem noTransfer_of_idle {l : Lane} (hl : l.Inv) (hidle : l.seq.ph = .idle) : l.pw = [] ∧ l.pr = .empty := by
  obtain ⟨-, -, -, ht⟩ := hl
  exact (transfersInv_quiet (by rw [hidle]; rfl)).1 ht

/-- While BUSY = 0 no step of CORE is enabled. -/
theorem not_enabled_core_of_idle {s : State} (hs : s.Inv) (hb : s.status.busy = false) {a : Action}
    (hcore : a.isCore = true) : enabled a s = false := by
  have hidle := idle_of_inv hs hb
  have hquiet (t : LaneId) := noTransfer_of_idle (inv_lane hs t) (hidle t)
  cases a with
  | host | reset => cases hcore
  | lane t => simp [enabled, laneNext_idle (hidle t)]
  | teWrite t j => simp [enabled, Lane.performWrite, (hquiet t).1, PendingWrites.find]
  | teRead t => simp [enabled, Lane.readToPerform, (hquiet t).2]
  | cDone => simp [enabled, State.canComplete, hb]

/-- Where CORE is idle and no RESET is wanted beside the script, the host's next action is the one step enabled. -/
theorem enabledActions_of_idle {s : State} (hs : s.Inv) (hb : s.status.busy = false) (hresets : s.resets = 0)
    (hhost : enabled .host s = true) : s.enabledActions = [.host] := by
  have hcore {a : Action} := not_enabled_core_of_idle hs hb (a := a)
  have hreset : enabled .reset s = false := by simp [enabled, hresets]
  have hrest : ∀ a ∈ s.wanted.tail, ¬ enabled a s = true := by
    intro a ha
    obtain rfl | hc : a = .reset ∨ a.isCore = true := by
      simp only [State.wanted, List.cons_append, List.tail_cons, List.mem_cons, List.nil_append, List.mem_append,
        List.mem_map, List.mem_flatMap] at ha
      rcases ha with rfl | rfl | (⟨t, -, rfl⟩ | ⟨t, -, rfl⟩) | ⟨t, -, e, -, rfl⟩
      · exact .inl rfl
      all_goals exact .inr rfl
    · simp [hreset]
    · simp [hcore hc]
  have hwanted : s.wanted = .host :: s.wanted.tail := rfl
  rw [State.enabledActions, hwanted, List.filter_cons_of_pos (p := fun a => enabled a s) hhost,
    List.filter_eq_nil_iff.2 hrest]

/-- The only enabled step is taken, and the schedule is not asked. -/
theorem step_of_only {s : State} {a : Action} (h : s.enabledActions = [a]) : step s = perform a s := by
  simp [step_of_chosen (a := a), State.chosen, State.asked, h]

theorem hostWrite_legal {c : Word} {i : Instr} {s : State} (hd : decode c = .ok i) (hf : s.status.fault = none) :
    hostWrite cmdAddr c s = exec i s := by
  simp [hostWrite, hf, hostLoc_cmd, hd]

theorem enabled_host {s : State} {x : HostAction} {rest : List HostAction} (hs : s.script = x :: rest) :
    enabled .host s = !x.isHeld s.status.busy := by
  simp [enabled, State.hostReady, hs]

@[simp] theorem isHeld_not_busy (x : HostAction) : x.isHeld false = false := by
  cases x <;> rfl

/-- Settles O20: the host's write is the one step enabled, and it is not held. -/
theorem stepRunsTheDecodedCommand : Obligations.StepRunsTheDecodedCommand := by
  rintro s w rest i hs ⟨hb, hf⟩ hresets hscript hd
  have hheld (x : HostAction) : x.isHeld s.status.busy = false := by rw [hb, isHeld_not_busy]
  have hhost : enabled .host s = true := by rw [enabled_host hscript, hheld]; rfl
  calc step s = perform .host s := step_of_only (enabledActions_of_idle hs hb hresets hhost)
    _ = takeHost (.hwr cmdAddr w) { s with script := rest } := perform_host_taken hscript (hheld _)
    _ = exec i { s with script := rest } := hostWrite_legal hd hf

/-! ### C-DONE (R189) -/

/-- Settles O38: the guard, lane by lane, and in the invariant a lane at rest has nothing in flight. -/
theorem completionStep : Obligations.CompletionStep := by
  intro s
  have hguard : enabled .cDone s = true ↔ s.status.busy = true ∧ ∀ t, (s.lane t).seq.ph = .idle := by
    rw [← allIdle_iff, ← Bool.and_eq_true]
    rfl
  refine ⟨hguard, fun hen => ?_, fun hs hen t => noTransfer_of_idle (inv_lane hs t) ((hguard.1 hen).2 t)⟩
  have hcan : s.canComplete = true := hen
  rw [perform, if_pos hcan]
  rfl

/-! ### The `STATUS` read (R183) -/

/-- BUSY = 1 comes with neither DONE nor FAULT (R30, R206). -/
theorem status_of_busy {s : State} (hs : s.Inv) (hb : s.status.busy = true) :
    s.status.done = false ∧ s.status.fault = none := by
  obtain ⟨-, -, hdone, hfault⟩ := hs
  exact ⟨by simpa [hb] using hdone, hfault hb⟩

/-- The value of a `STATUS` read in the invariant: 1 while BUSY, else DONE and one of the three values of FAULT. -/
theorem statusWord_mem {s : State} (hs : s.Inv) :
    statusWord s.status ∈ ([0x0, 0x1, 0x2, 0x4, 0x6, 0x8, 0xA] : List Word) := by
  have hbusy := status_of_busy hs
  revert hbusy
  obtain ⟨busy, done, fault⟩ := s.status
  intro hbusy
  cases busy with
  | true =>
    obtain ⟨rfl, rfl⟩ := hbusy rfl
    decide
  | false =>
    rcases fault with _ | _ | _ <;> cases done <;> decide

/-- Settles O43: the read is not held, and its answer has the fields of `STATUS`. -/
theorem statusReadAnswers : Obligations.StatusReadAnswers := by
  refine ⟨fun s hs => statusWord_mem hs, fun s rest hscript => ?_⟩
  obtain ⟨hzero, hbusy, hdone, hfault⟩ := statusWord_fields s.status
  have hheld : (HostAction.hrd statusAddr).isHeld s.status.busy = false := by simp [HostAction.isHeld]
  refine ⟨by rw [enabled_host hscript, ← statusAddr, hheld]; rfl, _, rfl, ?_, hzero, hbusy, hdone, ?_⟩
  · rw [perform_host_taken hscript hheld, takeHost, ← statusAddr, hostRead_status]
    rfl
  · rw [hfault]
    cases s.status.fault with
    | none => rfl
    | some c => cases c <;> rfl

/-! ### Hold while busy (R181), and RESET (R230) -/

theorem perform_host_held {s : State} {x : HostAction} {rest : List HostAction} (hs : s.script = x :: rest)
    (hheld : x.isHeld s.status.busy = true) : perform .host s = .next s := by
  simp [perform, hostStep, hs, hheld]

/-- Every write is held while BUSY, and every read but that of `STATUS`. -/
theorem isHeld_busy {x : HostAction} {a : HostAddr} {v : Word} (h : x = .hwr a v ∨ (x = .hrd a ∧ a ≠ 0x001)) :
    x.isHeld true = true := by
  rcases h with rfl | ⟨rfl, ha⟩
  · rfl
  · simpa [HostAction.isHeld, statusAddr] using ha

theorem hostRead_resets (a : HostAddr) (s : State) : (hostRead a s).resets = s.resets := by
  rcases hostRead_cases a s with ⟨v, he⟩ | he | ⟨-, -, he⟩ <;>
    exact (congrArg State.resets he).trans rfl

/-- A host action of the script leaves the RESETs wanted beside it. -/
theorem takeHost_resets {x : HostAction} {s u : State} (h : takeHost x s = .next u) : u.resets = s.resets := by
  cases x with
  | hrd a => cases h; exact hostRead_resets a s
  | reset => cases h; rfl
  | wait => cases h; exact hostRead_resets statusAddr s
  | hwr a v =>
    rcases hostWrite_cases h with ⟨-, rfl⟩ | ⟨-, ⟨c, rfl⟩ | ⟨t, w, rfl⟩ | ⟨-, i, -, -, rfl⟩⟩
    · rfl
    · rfl
    · rfl
    · rcases submit_cases s i.fields (startPhase i) (starts i) with ⟨-, he⟩ | ⟨-, he⟩ <;>
        exact (congrArg State.resets he).trans rfl

/-- No step but a RESET beside the script takes one of those away. -/
theorem perform_resets {a : Action} {s u : State} (h : perform a s = .next u) (hne : a ≠ .reset) :
    u.resets = s.resets := by
  cases hcore : a.isCore with
  | true =>
    rcases perform_core_cases hcore h with ⟨t, l, rfl⟩ | ⟨-, rfl⟩ | rfl <;> rfl
  | false =>
    cases a with
    | lane _ | teWrite _ _ | teRead _ | cDone => cases hcore
    | reset => exact absurd rfl hne
    | host =>
      rcases perform_cases h with ⟨-, rfl⟩ | ⟨-, hc⟩
      · rfl
      · obtain ⟨x, rest, -, -, ht⟩ : ∃ x rest, s.script = x :: rest ∧ x.isHeld s.status.busy = false ∧
            takeHost x { s with script := rest } = .next u := by simpa using hc
        exact takeHost_resets (s := { s with script := rest }) ht

/-- Settles O44: which actions are held, and that RESETs beside the script are taken by their own step only. -/
theorem hostHeldWhileBusy : Obligations.HostHeldWhileBusy := by
  refine ⟨fun s n hn => ⟨by simp [enabled, hn], _, rfl, ?_⟩, fun a s u h hne => perform_resets h hne,
    fun s x rest hscript => ⟨fun hb => ?_, fun hb a v hx => ?_, ?_⟩⟩
  · rw [resetStep, hn]
    exact ⟨rfl, rfl⟩
  · rw [enabled_host hscript, hb, isHeld_not_busy]
    rfl
  · have hheld : x.isHeld s.status.busy = true := by rw [hb, isHeld_busy hx]
    exact ⟨by rw [enabled_host hscript, hheld]; rfl, perform_host_held hscript hheld⟩
  · rw [enabled_host hscript]
    cases x with
    | hrd a => rintro rfl; simp [HostAction.isHeld, statusAddr]
    | hwr a v => trivial
    | reset => rfl
    | wait => rfl

/-! ### A Block register word, written and read back (R59, R184) -/

theorem hostWrite_xwin {s : State} (hf : s.status.fault = none) (t : LaneId) (w : Fin 32) (v : Word) :
    hostWrite (xwinAddr t w) v s = .next (s.putWord t w v) := by
  simp [hostWrite, hf, hostLoc_xwinAddr]

theorem hostRead_written {s : State} {t : LaneId} {w : Fin 32} {v : Word} (hf : s.status.fault = none)
    (hx : (s.lane t).x[w] = some v) : hostRead (xwinAddr t w) s = s.answer (xwinAddr t w) v := by
  have hx' : (s.lane t).x[w.val] = some v := hx
  simp [hostRead, hostLoc_xwinAddr, hf, hx']

theorem lane_putWord_same (s : State) (t : LaneId) (w : Fin 32) (v : Word) :
    (s.putWord t w v).lane t = { s.lane t with x := (s.lane t).x.set w (some v) } := lane_setLane_same s t _

theorem lane_putWord_ne (s : State) {t r : LaneId} (h : r ≠ t) (w : Fin 32) (v : Word) :
    (s.putWord t w v).lane r = s.lane r := lane_setLane_ne s h _

theorem perform_host_xwin_write {s : State} {t : LaneId} {w : Fin 32} {v : Word} {rest : List HostAction} (hr : s.ready)
    (hs : s.script = .hwr (xwinAddr t w) v :: rest) :
    perform .host s = .next (State.putWord { s with script := rest } t w v) := by
  obtain ⟨hb, hf⟩ := hr
  rw [perform_host_taken hs (by rw [hb, isHeld_not_busy]), takeHost]
  exact hostWrite_xwin (s := { s with script := rest }) hf t w v

theorem perform_host_xwin_read {s : State} {t : LaneId} {w : Fin 32} {v : Word} {rest : List HostAction} (hr : s.ready)
    (hx : (s.lane t).x[w] = some v) (hs : s.script = .hrd (xwinAddr t w) :: rest) :
    perform .host s = .next { s with script := rest, reads := { addr := xwinAddr t w, value := v } :: s.reads } := by
  obtain ⟨hb, hf⟩ := hr
  rw [perform_host_taken hs (by rw [hb, isHeld_not_busy]), takeHost,
    hostRead_written (s := { s with script := rest }) hf hx]
  rfl

/-- Settles O46: the write puts one word, and the read that follows finds it there. -/
theorem xwinWriteThenRead : Obligations.XwinWriteThenRead := by
  intro s t w v rest hr hscript
  refine ⟨_, perform_host_xwin_write hr hscript, rfl, fun r hne => lane_putWord_ne _ hne w v,
    lane_putWord_same _ t w v, ?_⟩
  refine perform_host_xwin_read hr ?_ rfl
  rw [lane_putWord_same]
  exact Vector.getElem_set_self w.isLt

end Sys2Proof.Machine

/-! Faults and the faulted state: what latches a code, what the faulted state discards, which steps change `STATUS`, and the
record of an unwritten read (spec/60_exceptions.md). -/

namespace Sys2Proof.Machine

/-! ### The two faults (R202, R203) -/

/-- While BUSY = 0 the host's next action is taken (R181). -/
theorem perform_host_of_not_busy {s : State} {x : HostAction} {rest : List HostAction} (hb : s.status.busy = false)
    (hs : s.script = x :: rest) : perform .host s = takeHost x { s with script := rest } :=
  perform_host_taken hs (by rw [hb, isHeld_not_busy])

/-- Settles O48: the write is taken, and its word selects no row of the opcode table. -/
theorem illegalCommandLatches : Obligations.IllegalCommandLatches := by
  rintro s w e rest ⟨hb, hf⟩ hd hscript
  have hillegal : ¬ ∃ i, decode w = .ok i := by simp [hd]
  rw [perform_host_of_not_busy hb hscript, takeHost]
  exact hostWrite_illegal (s := { s with script := rest }) hillegal hf

theorem hostWrite_badAddr {s : State} {a : HostAddr} (hf : s.status.fault = none)
    (ha : hostLoc a = .status ∨ hostLoc a = .unmapped) (v : Word) :
    hostWrite a v s = .next (s.raise .badAddr) := by
  rcases ha with hl | hl <;> simp [hostWrite, hf, hl]

theorem hostRead_badAddr {s : State} {a : HostAddr} (hf : s.status.fault = none)
    (ha : hostLoc a = .cmd ∨ hostLoc a = .unmapped) : hostRead a s = (s.raise .badAddr).answerAny a := by
  rcases ha with hl | hl <;> simp [hostRead, hf, hl]

/-- Settles O49: the numbers name the locations that are not in the map for the access. -/
theorem badAddressLatches : Obligations.BadAddressLatches := by
  rintro s a rest ⟨hb, hf⟩
  obtain ⟨hcmd, hstatus, hunmapped⟩ := hostLoc_below_xwin a
  refine ⟨fun v ha hscript => ?_, fun ha hscript => ⟨Config.freeHostWord s.hostDraws, ?_⟩⟩
  · rw [perform_host_of_not_busy hb hscript, takeHost]
    exact hostWrite_badAddr (s := { s with script := rest }) hf (ha.imp hstatus.2 hunmapped.2) v
  · rw [perform_host_of_not_busy hb hscript, takeHost,
      hostRead_badAddr (s := { s with script := rest }) hf (ha.imp hcmd.2 hunmapped.2)]
    rfl

/-! ### The faulted state (R208) -/

theorem hostWrite_faulted {s : State} (hf : s.status.fault ≠ none) (a : HostAddr) (v : Word) :
    hostWrite a v s = .next s :=
  if_pos (Option.isSome_iff_ne_none.2 hf)

theorem hostRead_faulted {s : State} {a : HostAddr} (hf : s.status.fault ≠ none) (ha : a ≠ statusAddr) :
    hostRead a s = s.answerAny a := by
  have hsome : s.status.fault.isSome = true := Option.isSome_iff_ne_none.2 hf
  cases hl : hostLoc a with
  | cmd | unmapped | xwin t w => simp [hostRead, hl, hsome]
  | status =>
    obtain ⟨-, hstatus, -⟩ := hostLoc_below_xwin a
    exact absurd (BitVec.eq_of_toNat_eq (hstatus.1 hl)) ha

/-- A faulted machine is not BUSY (R206). -/
theorem not_busy_of_faulted {s : State} (hs : s.Inv) (hf : s.status.fault ≠ none) : s.status.busy = false :=
  eq_false_of_ne_true fun hb => hf (status_of_busy hs hb).2

/-- Settles O50: a faulted machine is not BUSY, so the host's actions are taken and no step of CORE is enabled. -/
theorem faultedStateDiscards : Obligations.FaultedStateDiscards := by
  intro s hs hf
  have hb := not_busy_of_faulted hs hf
  refine ⟨fun a v rest hscript => ?_, fun a rest ha hscript => ⟨Config.freeHostWord s.hostDraws, ?_⟩,
    fun rest hscript => ?_, fun a hcore => not_enabled_core_of_idle hs hb hcore, fun ⟨_, hnone, _⟩ => hf hnone⟩
  · rw [perform_host_of_not_busy hb hscript, takeHost]
    exact hostWrite_faulted (s := { s with script := rest }) hf a v
  · rw [perform_host_of_not_busy hb hscript, takeHost, hostRead_faulted (s := { s with script := rest }) hf ha]
    rfl
  · rw [perform_host_of_not_busy hb hscript, takeHost, ← statusAddr, hostRead_status]
    rfl

/-! ### Which steps change `STATUS` (R189, R205, R206, R209) -/

/-- What a host action that is taken does to `STATUS`. -/
theorem takeHost_status {x : HostAction} {s u : State} (h : takeHost x s = .next u) :
    u.status = s.status ∨ (x = .reset ∧ u.status = State.reset.status) ∨
    (s.status.fault = none ∧ ∃ c, u.status = s.status.latch c) ∨
    (u.status = s.status.accept ∧ ∃ w i, x = .hwr cmdAddr w ∧ decode w = .ok i) := by
  cases x with
  | hrd a =>
    cases h
    rcases hostRead_cases a s with ⟨v, he⟩ | he | ⟨hf, -, he⟩
    · exact .inl ((congrArg State.status he).trans rfl)
    · exact .inl ((congrArg State.status he).trans rfl)
    · exact .inr (.inr (.inl ⟨hf, _, congrArg State.status he⟩))
  | hwr a v =>
    rcases hostWrite_cases h with ⟨-, rfl⟩ | ⟨hf, ⟨c, rfl⟩ | ⟨t, w, rfl⟩ | ⟨rfl, i, hd, -, rfl⟩⟩
    · exact .inl rfl
    · exact .inr (.inr (.inl ⟨hf, c, rfl⟩))
    · exact .inl rfl
    · rcases submit_cases s i.fields (startPhase i) (starts i) with ⟨-, he⟩ | ⟨-, he⟩
      · exact .inl (congrArg State.status he)
      · exact .inr (.inr (.inr ⟨congrArg State.status he, v, i, rfl, hd⟩))
  | reset => cases h; exact .inr (.inl ⟨rfl, rfl⟩)
  | wait => cases h; exact .inl ((congrArg State.status (hostRead_status s)).trans rfl)

/-- What a step does to `STATUS`: nothing; C-DONE completes; a RESET resets; and the host's step latches a fault where none
is, or accepts the command it wrote. -/
theorem perform_status {a : Action} {s u : State} (h : perform a s = .next u) :
    u.status = s.status ∨ (a = .cDone ∧ u.status = s.status.complete) ∨
    (a.isReset s = true ∧ u.status = State.reset.status) ∨
    (a = .host ∧ s.status.fault = none ∧ ∃ c, u.status = s.status.latch c) ∨
    (a = .host ∧ u.status = s.status.accept ∧ ∃ w rest i, s.script = .hwr cmdAddr w :: rest ∧ decode w = .ok i) := by
  rcases perform_cases h with ⟨-, rfl⟩ | ⟨-, hc⟩
  · exact .inl rfl
  rcases hc with ⟨t, l, -, -, rfl⟩ | ⟨t, j, d, -, -, rfl⟩ | ⟨t, j, d, -, -, -, rfl⟩ | ⟨rfl, -, rfl⟩ |
    ⟨rfl, n, -, rfl⟩ | ⟨rfl, x, rest, hscript, -, ht⟩
  · exact .inl rfl
  · exact .inl rfl
  · exact .inl rfl
  · exact .inr (.inl ⟨rfl, rfl⟩)
  · exact .inr (.inr (.inl ⟨rfl, rfl⟩))
  · rcases takeHost_status ht with hsame | ⟨rfl, hreset⟩ | ⟨hf, hlatch⟩ | ⟨haccept, w, i, rfl, hd⟩
    · exact .inl hsame
    · exact .inr (.inr (.inl ⟨by simp [Action.isReset, hscript], hreset⟩))
    · exact .inr (.inr (.inr (.inl ⟨rfl, hf, hlatch⟩)))
    · exact .inr (.inr (.inr (.inr ⟨rfl, haccept, w, rest, i, hscript, hd⟩)))

/-- Settles O52: of the changes of `STATUS`, completion and RESET clear BUSY, and command accept sets it. -/
theorem busyStartsAndEnds : Obligations.BusyStartsAndEnds := by
  intro a s u h
  rcases perform_status h with hst | ⟨rfl, hst⟩ | ⟨hreset, hst⟩ | ⟨-, -, c, hst⟩ | ⟨rfl, hst, hcmd⟩
  · simp +contextual [hst]
  · exact ⟨fun _ _ => .inl rfl, fun _ hb => by simp [hst] at hb⟩
  · exact ⟨fun _ _ => .inr hreset, fun _ hb => by simp [hst, State.reset] at hb⟩
  · simp +contextual [hst]
  · exact ⟨fun _ hb => by simp [hst] at hb, fun _ _ => ⟨rfl, hcmd⟩⟩

/-! ### The record of an unwritten read (R218) -/

/-- The record of an unwritten read, from lane l to lane l': it is kept, and made only where a word of l holds no value. -/
structure RecordGrows (l l' : Lane) : Prop where
  kept : l.unwritten = true → l'.unwritten = true
  made : l.unwritten = false → l'.unwritten = true → ∃ w : Fin 32, l.x[w] = none

theorem recordGrows_of_or {l l' : Lane} {b : Bool} (hu : l'.unwritten = (l.unwritten || b))
    (hb : b = true → ∃ w : Fin 32, l.x[w] = none) : RecordGrows l l' where
  kept h := by rw [hu, h, Bool.true_or]
  made h h' := by rw [hu, h, Bool.false_or] at h'; exact hb h'

theorem recordGrows_of_eq {l l' : Lane} (h : l'.unwritten = l.unwritten) : RecordGrows l l' :=
  recordGrows_of_or (b := false) (h.trans (Bool.or_false _).symm) nofun

/-- What the books of a read of the whole of `X[s]` put on record (R218). -/
theorem recordGrows_of_missing {l l' : Lane} (hu : l'.unwritten = (l.unwritten || l.missing)) : RecordGrows l l' :=
  recordGrows_of_or hu (missing_iff l).1

/-- A micro-step reads the whole of `X[s]`, or word 16 of it, or, as L-DRAIN, nothing. -/
theorem recordGrows_runMicro {m : Micro} {room : Bool} {h : BitVec 1} {s : LaneId} {l l' : Lane}
    (hr : runMicro m room h s l = some l') : RecordGrows l l' := by
  cases m with
  | sExec => cases hr; exact recordGrows_of_missing (by simp only [microSExec]; split <;> simp)
  | bMix0 | fMix0 | mMix0 => cases hr; exact recordGrows_of_missing (mixLo_unwritten s l)
  | bMix1 | fMix1 | mMix1 => cases hr; exact recordGrows_of_missing (mixHi_unwritten s l)
  | fStore => obtain ⟨-, rfl⟩ := fStore_some.1 hr; exact recordGrows_of_missing rfl
  | mXor => obtain ⟨j, d, -, rfl⟩ := mXor_some.1 hr; exact recordGrows_of_missing rfl
  | mFetch =>
    obtain ⟨-, -, -, rfl⟩ := mFetch_some.1 hr
    exact recordGrows_of_or (b := l.x[(16 : Fin 32)].isNone) rfl fun hx => ⟨16, Option.isNone_iff_eq_none.1 hx⟩
  | lDrain => obtain ⟨-, -, rfl⟩ := lDrain_some.1 hr; exact recordGrows_of_eq rfl

/-- The host's step keeps the record of every lane, a RESET too (log 1). -/
theorem perform_host_unwritten {s u : State} (h : perform .host s = .next u) (t : LaneId) :
    (u.lane t).unwritten = (s.lane t).unwritten := by
  rcases perform_host_core h with hk | ⟨-, hk⟩ | ⟨-, ⟨c, hk⟩ | ⟨r, w, v, hk⟩ | ⟨-, i, hk⟩⟩
  · rw [hk.lane]
  · rw [hk.lane, lane_resetEvent]
  · rw [hk.lane]; rfl
  · rw [hk.lane, State.putWord, lane_setLane]
    split
    · next hr => rw [hr]
    · rfl
  · rw [hk.lane, lane_accept]
    split <;> rfl

/-- Replacing a lane by one with the same record leaves the record of every lane. -/
theorem setLane_unwritten {s : State} {r : LaneId} {l : Lane} (h : l.unwritten = (s.lane r).unwritten) (t : LaneId) :
    ((s.setLane r l).lane t).unwritten = (s.lane t).unwritten := by
  rw [lane_setLane]
  split
  · next ht => rw [h, ht]
  · rfl

/-- A step keeps the record of a lane, or it is the lane's own and adds to it where it finds an unwritten word. -/
theorem perform_record {a : Action} {s u : State} (h : perform a s = .next u) (t : LaneId) :
    (u.lane t).unwritten = (s.lane t).unwritten ∨
    (a = .lane t ∧ RecordGrows (s.lane t) (u.lane t)) := by
  rcases perform_cases h with ⟨-, rfl⟩ | ⟨-, hc⟩
  · exact .inl rfl
  rcases hc with ⟨r, l, rfl, hl, rfl⟩ | ⟨r, j, d, -, -, rfl⟩ | ⟨r, j, d, -, -, -, rfl⟩ | ⟨-, -, rfl⟩ |
    ⟨-, n, -, rfl⟩ | ⟨rfl, -⟩
  · by_cases hr : t = r
    · subst hr
      obtain ⟨m, -, hm⟩ := laneNext_some.1 hl
      rw [lane_setLane_same]
      exact .inr ⟨rfl, recordGrows_runMicro hm⟩
    · rw [lane_setLane_ne s hr]
      exact .inl rfl
  · exact .inl (setLane_unwritten (by rfl) t)
  · exact .inl (setLane_unwritten (by rfl) t)
  · exact .inl rfl
  · rw [lane_with_resets, lane_resetEvent]
    exact .inl rfl
  · exact .inl (perform_host_unwritten h t)

/-! ### Who raises a fault, and what clears it (R204, R206, R209) -/

/-- A step that makes FAULT nonzero is the host's. -/
theorem host_of_raises {a : Action} {s u : State} (h : perform a s = .next u) (hf : s.status.fault = none)
    (hu : u.status.fault ≠ none) : a = .host := by
  rcases perform_status h with hst | ⟨-, hst⟩ | ⟨-, hst⟩ | ⟨ha, -⟩ | ⟨ha, -⟩
  · rw [hst] at hu; exact absurd hf hu
  · rw [hst] at hu; exact absurd hf hu
  · rw [hst] at hu; exact absurd rfl hu
  · exact ha
  · exact ha

/-- A step that changes a nonzero FAULT is a RESET, and clears it. -/
theorem reset_of_fault_changes {a : Action} {s u : State} (h : perform a s = .next u) (hf : s.status.fault ≠ none)
    (hu : u.status.fault ≠ s.status.fault) : a.isReset s = true ∧ u.status.fault = none := by
  rcases perform_status h with hst | ⟨-, hst⟩ | ⟨hreset, hst⟩ | ⟨-, hnone, -⟩ | ⟨-, hst, -⟩
  · rw [hst] at hu; exact absurd rfl hu
  · rw [hst] at hu; exact absurd rfl hu
  · exact ⟨hreset, congrArg Status.fault hst⟩
  · exact absurd hnone hf
  · rw [hst] at hu; exact absurd rfl hu

/-- Settles O51: the changes of `STATUS` that touch FAULT, and the record of each lane. -/
theorem onlyHostRaisesOnlyResetClears : Obligations.OnlyHostRaisesOnlyResetClears := by
  refine fun a s u h => ⟨host_of_raises h, reset_of_fault_changes h, fun t => ?_⟩
  have hgrows : RecordGrows (s.lane t) (u.lane t) :=
    (perform_record h t).elim recordGrows_of_eq And.right
  refine ⟨fun hrec => ⟨hgrows.kept hrec, fun ⟨_, _, hclean⟩ => ?_⟩, fun hno hrec => ⟨?_, hgrows.made hno hrec⟩⟩
  · exact absurd ((hgrows.kept hrec).symm.trans (hclean t)) (by decide)
  · rcases perform_record h t with hsame | ⟨ha, -⟩
    · rw [hsame, hno] at hrec; cases hrec
    · exact ha

end Sys2Proof.Machine

/-! Lanes beside each other, and the reset event: steps of different lanes commute, and RESET puts CORE at its reset values. -/

namespace Sys2Proof.Machine

/-! ### Steps of different lanes commute (R70, R243) -/

/-- The TE's room holds a micro-step or lets it be taken; it has no part in what the step makes of its lane (R76). -/
theorem runMicro_with_room {m : Micro} {room : Bool} {h : BitVec 1} {s : LaneId} {l l' : Lane}
    (hr : runMicro m room h s l = some l') : runMicro m true h s l = some l' := by
  cases m with
  | fStore => exact fStore_some.2 ⟨rfl, (fStore_some.1 hr).2⟩
  | mFetch => exact mFetch_some.2 ⟨rfl, (mFetch_some.1 hr).2⟩
  | sExec | bMix0 | bMix1 | fMix0 | fMix1 | mXor | mMix0 | mMix1 | lDrain => exact hr

/-- An enabled step of LANE(t) replaces lane t by what the lane and `CUR.H` alone determine. -/
theorem perform_lane_enabled {s u : State} {t : LaneId} (hen : enabled (.lane t) s = true)
    (h : perform (.lane t) s = .next u) :
    ∃ l, laneNext true s.cur.h t (s.lane t) = some l ∧ u = s.setLane t l := by
  obtain ⟨l, hl⟩ := Option.isSome_iff_exists.1 hen
  obtain ⟨m, hsel, hr⟩ := laneNext_some.1 hl
  rw [perform, hl] at h
  cases h
  exact ⟨l, laneNext_some.2 ⟨m, hsel, runMicro_with_room hr⟩, rfl⟩

/-- Settles O41: in either order each lane becomes the same, and the replacements are of different lanes. -/
theorem laneStepsCommute : Obligations.LaneStepsCommute := by
  intro s a a' b b' p q hpq hp hpa hq hqb hq' hqa hp' hpb
  obtain ⟨l, hl, rfl⟩ := perform_lane_enabled hp hpa
  obtain ⟨m, hm, rfl⟩ := perform_lane_enabled hq hqb
  obtain ⟨m', hm', rfl⟩ := perform_lane_enabled hq' hqa
  obtain ⟨l', hl', rfl⟩ := perform_lane_enabled hp' hpb
  rw [setLane_cur, lane_setLane_ne s hpq.symm, hm', Option.some.injEq] at hm
  rw [setLane_cur, lane_setLane_ne s hpq, hl, Option.some.injEq] at hl'
  rw [hm, hl', setLane_comm s hpq]

/-! ### The reset event (R230, R231) -/

/-- A RESET at the head of the script is taken in one step, BUSY or not, and leaves the rest of the script. -/
theorem perform_host_reset {s : State} {rest : List HostAction} (hs : s.script = .reset :: rest) :
    enabled .host s = true ∧ perform .host s = .next { s.resetEvent with script := rest } :=
  ⟨enabled_host hs, perform_host_taken hs rfl⟩

/-- A RESET beside the script is taken in one step, and leaves the script and one RESET fewer. -/
theorem perform_reset {s : State} {n : Nat} (hn : s.resets = n + 1) :
    enabled .reset s = true ∧ perform .reset s = .next { s.resetEvent with resets := n } := by
  simp [enabled, perform, resetStep, hn]

/-- After the reset event no word and no slot of a lane holds a value, nothing is in flight, and the lane is at rest (R34). -/
theorem lane_resetEvent_values (s : State) (t : LaneId) :
    (∀ w : Fin 32, (s.resetEvent.lane t).x[w] = none) ∧ (s.resetEvent.lane t).t = none ∧
    (∀ j : Slot, (s.resetEvent.lane t).v.readSlot j = none) ∧ (s.resetEvent.lane t).pw = [] ∧
    (s.resetEvent.lane t).pr = .empty ∧ (s.resetEvent.lane t).seq = { ph := .idle, i := 0, u := 0 } := by
  rw [lane_resetEvent]
  exact ⟨fun w => by simp [Lane.reset], rfl, readSlot_nil, rfl, rfl, rfl⟩

/-- Settles O54: either form of RESET leaves CORE as the reset event does, and that holds the reset values. -/
theorem resetEventResetsAll : Obligations.ResetEventResetsAll := by
  intro a s h
  rcases h with ⟨rfl, hx⟩ | ⟨rfl, hne⟩
  · obtain ⟨rest, hs⟩ := List.head?_eq_some_iff.1 hx
    obtain ⟨hen, hperf⟩ := perform_host_reset hs
    exact ⟨hen, _, hperf, lane_resetEvent_values s, rfl, rfl, by simp [hs], rfl⟩
  · obtain ⟨n, hn⟩ := Nat.exists_eq_succ_of_ne_zero hne
    obtain ⟨hen, hperf⟩ := perform_reset hn
    exact ⟨hen, _, hperf, lane_resetEvent_values s, rfl, rfl, rfl, rfl⟩

end Sys2Proof.Machine
